-- ==== Sys2Proof/Word.lean ====
section
/-! DEFINITION. The word types of the engine (00_scope.md R11, R12). -/

namespace Sys2Proof

/-- A byte: bit 0 is the least significant bit (R11). A byte string is a `List Byte`, index 0 first (R12). -/
abbrev Byte := BitVec 8

/-- A byte string of exactly `n` bytes. -/
abbrev Bytes (n : Nat) := { b : List Byte // b.length = n }

/-- A 32-bit word of the MD5 unit or of a `u32` field; `+` is addition modulo 2^32 (R11). -/
abbrev Word := BitVec 32

end Sys2Proof
end

