-- ==== Sys2Proof/Config.lean ====
section
/-! DEFINITION. The parameters that the spec fixes (00_scope.md R7, R8). The open ones (`DH_P`, the settle
delays) are arguments of the host sequences, as R8 says; `BUS_MAP` is not needed at transaction level. -/

namespace Sys2Proof.Config

/-- Longest variable-length operand or result (R8 `VAR_MAX`, R52). -/
abbrev varMax : Nat := 65535
/-- Longest byte string one `RX_NOTIFY` delivers (R8 `RX_MAX`). -/
abbrev rxMax : Nat := 65535
/-- Operand width of MODPOW in bytes (R8 `MP_BYTES`). -/
abbrev mpBytes : Nat := 128
/-- Length of the DH modulus in bytes (R7): of `DH_P` (R8), and of the DH keys and the secret (R242, R246). -/
abbrev dhBytes : Nat := 128
/-- Length of an MD5 digest, and of an AES-128 key, in bytes (R7). -/
abbrev keyBytes : Nat := 16
/-- Longest frame payload (R7, R80). -/
abbrev payloadMax : Nat := 255
/-- Data bytes of the first of several fragments (R7, R186). -/
abbrev firstChunk : Nat := 14
/-- Data bytes of a later fragment that is not the last (R7, R186). -/
abbrev laterChunk : Nat := 16
/-- Handshake deadline in ticks (R7, R245). -/
abbrev handshakeMs : Nat := 10000
/-- Sub-deadline of a polling loop in ticks (R7, R255). -/
abbrev pollMs : Nat := 2000
/-- Window of `configureWifi` in ticks (R7, R255). -/
abbrev configureMs : Nat := 15000

end Sys2Proof.Config
end

