-- ==== Sys2Proof/Syntax.lean ====
section
/-! DEFINITION. The instructions, one constructor for each row of spec/opcode_table.json, and the transactions
that carry them (30_encoding.md). Operand fields stand in the order of R73. -/

namespace Sys2Proof

/-- A frame (44_frame_codec.md R165). R165 bounds the payload at 255 bytes: `Frame.wellFormed`. -/
structure Frame where
  type : BitVec 2
  subtype : BitVec 6
  fc : Byte
  seq : Byte
  payload : List Byte
  deriving DecidableEq, Repr

/-- The pseudo-commands of R90: actions of the host, without an encoding. -/
inductive Pseudo where
  | frameEnc4 (type subtype seq : Byte) (payload : List Byte)
  | send (frame : List Byte)
  | wait
  | request (timeoutMs : Word)
  | sleep (ticks : Nat)
  deriving DecidableEq, Repr

/-- What one agent presents to the engine, or the host to itself, in one step: a descriptor on `cmd`, a byte
string on `rx`, a tick (R10), or a pseudo-command (R90). -/
inductive Transaction where
  | cmd (descriptor : List Byte)
  | rx (bytes : List Byte)
  | tick
  | pseudo (p : Pseudo)
  deriving DecidableEq, Repr

/-- The instructions. -/
inductive Instr where
  /-- `MD5`, R109. -/
  | md5 (msg : List Byte)
  /-- `AES_SETKEY`, R130. -/
  | aesSetkey (key : List Byte)
  /-- `AES_ENCBLK`, R131. -/
  | aesEncblk (block : List Byte)
  /-- `CFB_ENC`, R143. -/
  | cfbEnc (iv data : List Byte)
  /-- `MODPOW`, R155. -/
  | modpow (base exp mod : List Byte)
  /-- `FRAME_ENC`, R167. -/
  | frameEnc (type subtype fc seq : Byte) (payload : List Byte)
  /-- `FRAME_DEC`, R169. -/
  | frameDec (buf : List Byte)
  /-- `FRAME_TX`, R172. -/
  | frameTx (type subtype fc : Byte) (payload : List Byte)
  /-- `FRAME_TX_ENC`, R174. -/
  | frameTxEnc (type subtype fc : Byte) (payload : List Byte)
  /-- `FRAG`, R189. -/
  | frag (data : List Byte)
  /-- `REASM_PUSH`, R193. -/
  | reasmPush (fc : Byte) (payload : List Byte)
  /-- `REASM_RESET`, R195. -/
  | reasmReset
  /-- `REQ_ISSUE`, R207. -/
  | reqIssue (timeoutMs : Word)
  /-- `REQ_COLLECT`, R210. -/
  | reqCollect
  /-- `GET_STATUS`, R234. -/
  | getStatus
  /-- `SESSION_INIT`, R231. -/
  | sessionInit
  /-- `SESSION_END`, R232. -/
  | sessionEnd
  /-- `CLR_FLAGS`, R235. -/
  | clrFlags (mask : Byte)
  /-- `(reserved)`, R75: the whole descriptor, empty or with a reserved opcode. -/
  | reserved (descriptor : List Byte)
  /-- `RX_NOTIFY`, R212. -/
  | rxNotify (bytes : List Byte)
  /-- `TICK`, R214. -/
  | tick
  /-- `FRAME.DATA.NEG`, R82: a notification with byte 0 = 0x01. -/
  | frameDataNeg (fc seq : Byte) (payload : List Byte)
  /-- `FRAME.DATA.SSID`, R82: byte 0 = 0x09. -/
  | frameDataSsid (fc seq : Byte) (payload : List Byte)
  /-- `FRAME.DATA.PASSWORD`, R82: byte 0 = 0x0D. -/
  | frameDataPassword (fc seq : Byte) (payload : List Byte)
  /-- `FRAME.DATA.STATUS`, R82: byte 0 = 0x3D. -/
  | frameDataStatus (fc seq : Byte) (payload : List Byte)
  /-- `FRAME.DATA.WIFILIST`, R82: byte 0 = 0x45. -/
  | frameDataWifilist (fc seq : Byte) (payload : List Byte)
  /-- `FRAME.CTRL.APPLY`, R82: byte 0 = 0x0C. -/
  | frameCtrlApply (fc seq : Byte) (payload : List Byte)
  /-- `FRAME.CTRL.SCAN`, R82: byte 0 = 0x24. -/
  | frameCtrlScan (fc seq : Byte) (payload : List Byte)
  /-- `FRAME__generic`, R77, R83: any other frame. -/
  | frameGeneric (type : BitVec 2) (subtype : BitVec 6) (fc seq : Byte) (payload : List Byte)
  /-- `FRAME_ENC4`, R90. -/
  | frameEnc4 (type subtype seq : Byte) (payload : List Byte)
  /-- `SEND`, R90. -/
  | send (frame : List Byte)
  /-- `WAIT`, R90. -/
  | wait
  /-- `REQUEST`, R90. -/
  | request (timeoutMs : Word)
  /-- `SLEEP`, R90. -/
  | sleep (ticks : Nat)
  deriving DecidableEq, Repr

end Sys2Proof
end

