-- ==== Sys2Proof/WellFormed.lean ====
section
/-! DEFINITION. When an instruction's operands fit its encoding (30_encoding.md R70, R73; 20_memory.md R52).
Operand VALUES that a command refuses with a status (R76) are well formed: the command runs and answers. -/

namespace Sys2Proof

/-- An opcode outside 0x01 to 0x12 (R75). -/
abbrev reservedOpcode (op : Byte) : Bool := op.toNat == 0 || 0x12 < op.toNat

/-- A descriptor that R72 step (1) answers with ERR_OPCODE: empty, or with a reserved opcode. -/
def reservedDescriptor : List Byte → Bool
  | [] => true
  | op :: _ => reservedOpcode op

/-- A byte string that a `var` field can carry: its length fits a `u16` (R52, R70). -/
abbrev fitsVar (b : List Byte) : Bool := b.length ≤ Config.varMax

/-- A frame's payload length fits the length byte (R52, R77). -/
abbrev fitsFrame (b : List Byte) : Bool := b.length ≤ Config.payloadMax

/-- A frame that R165 admits. -/
abbrev Frame.wellFormed (f : Frame) : Bool := fitsFrame f.payload

/-- The operands fit the fields that R73 gives the row. -/
def wellFormed : Instr → Bool
  | .md5 msg => fitsVar msg
  | .aesSetkey key => key.length == 16
  | .aesEncblk block => block.length == 16
  | .cfbEnc iv data => iv.length == 16 && fitsVar data
  | .modpow base exp mod => fitsVar base && fitsVar exp && fitsVar mod
  | .frameEnc _ _ _ _ payload => fitsVar payload
  | .frameDec buf => fitsVar buf
  | .frameTx _ _ _ payload => fitsVar payload
  | .frameTxEnc _ _ _ payload => fitsVar payload
  | .frag data => fitsVar data
  | .reasmPush _ payload => fitsVar payload
  | .reasmReset => true
  | .reqIssue _ => true
  | .reqCollect => true
  | .getStatus => true
  | .sessionInit => true
  | .sessionEnd => true
  | .clrFlags _ => true
  | .reserved d => reservedDescriptor d
  | .rxNotify b => b.length ≤ Config.rxMax
  | .tick => true
  | .frameDataNeg _ _ payload => fitsFrame payload
  | .frameDataSsid _ _ payload => fitsFrame payload
  | .frameDataPassword _ _ payload => fitsFrame payload
  | .frameDataStatus _ _ payload => fitsFrame payload
  | .frameDataWifilist _ _ payload => fitsFrame payload
  | .frameCtrlApply _ _ payload => fitsFrame payload
  | .frameCtrlScan _ _ payload => fitsFrame payload
  | .frameGeneric _ _ _ _ payload => fitsFrame payload
  | .frameEnc4 _ _ _ payload => fitsVar payload
  | .send _ => true
  | .wait => true
  | .request _ => true
  | .sleep _ => true

end Sys2Proof
end

