-- ==== Sys2Proof/Decode.lean ====
section
/-! DEFINITION. The byte-order helpers (00_scope.md R12), the field readers (20_memory.md R53), the frame codec
(44_frame_codec.md R165 to R168), the decoder of every transaction and, after it, the encoder
(30_encoding.md R70 to R83). -/

namespace Sys2Proof

/-! ## Byte order (R12, R54) -/

/-- `le16(v)` for `v < 65536`. -/
def le16 (v : Nat) : List Byte := [BitVec.ofNat 8 v, BitVec.ofNat 8 (v / 256)]

/-- `le32(v)`. -/
def le32 (v : Word) : List Byte :=
  [v.extractLsb' 0 8, v.extractLsb' 8 8, v.extractLsb' 16 8, v.extractLsb' 24 8]

/-- `from_le16` of two bytes. -/
def fromLe16 (lo hi : Byte) : Nat := lo.toNat + 256 * hi.toNat

/-- The word whose little-endian bytes are the four given. -/
def fromLe32 (b0 b1 b2 b3 : Byte) : Word := b3 ++ b2 ++ b1 ++ b0

/-- `os2ip(b)`: the big-endian unsigned integer of a byte string; 0 for the empty one. -/
def os2ip (b : List Byte) : Nat := b.foldl (fun v x => 256 * v + x.toNat) 0

/-- `i2osp(v, n)`: the `n`-byte big-endian string of `v < 256^n`. -/
def i2osp (v : Nat) : Nat → List Byte
  | 0 => []
  | n + 1 => i2osp (v / 256) n ++ [BitVec.ofNat 8 v]

/-- A `var` field: a `u16` length and the bytes (R70). -/
def varField (b : List Byte) : List Byte := le16 b.length ++ b

/-! ## Field readers (R53): each answers the value and the bytes after the field, or none where R53's `need` fails -/

def readU8 : List Byte → Option (Byte × List Byte)
  | b :: p => some (b, p)
  | [] => none

def readU16 : List Byte → Option (Nat × List Byte)
  | lo :: hi :: p => some (fromLe16 lo hi, p)
  | _ => none

def readU32 : List Byte → Option (Word × List Byte)
  | b0 :: b1 :: b2 :: b3 :: p => some (fromLe32 b0 b1 b2 b3, p)
  | _ => none

def readFix (n : Nat) (p : List Byte) : Option (List Byte × List Byte) :=
  if n ≤ p.length then some (p.take n, p.drop n) else none

def readVar (p : List Byte) : Option (List Byte × List Byte) := do
  let (n, p) ← readU16 p
  readFix n p

/-- The operand fields of a command, in R73's order, and the bytes after the last one. -/
def readOperands (op : Byte) (p : List Byte) : Option (Instr × List Byte) :=
  match op.toNat with
  | 0x01 => do
    let (msg, p) ← readVar p
    return (.md5 msg, p)
  | 0x02 => do
    let (key, p) ← readFix 16 p
    return (.aesSetkey key, p)
  | 0x03 => do
    let (block, p) ← readFix 16 p
    return (.aesEncblk block, p)
  | 0x04 => do
    let (iv, p) ← readFix 16 p
    let (data, p) ← readVar p
    return (.cfbEnc iv data, p)
  | 0x05 => do
    let (base, p) ← readVar p
    let (exp, p) ← readVar p
    let (mod, p) ← readVar p
    return (.modpow base exp mod, p)
  | 0x06 => do
    let (type, p) ← readU8 p
    let (subtype, p) ← readU8 p
    let (fc, p) ← readU8 p
    let (seq, p) ← readU8 p
    let (payload, p) ← readVar p
    return (.frameEnc type subtype fc seq payload, p)
  | 0x07 => do
    let (buf, p) ← readVar p
    return (.frameDec buf, p)
  | 0x08 => do
    let (type, p) ← readU8 p
    let (subtype, p) ← readU8 p
    let (fc, p) ← readU8 p
    let (payload, p) ← readVar p
    return (.frameTx type subtype fc payload, p)
  | 0x09 => do
    let (type, p) ← readU8 p
    let (subtype, p) ← readU8 p
    let (fc, p) ← readU8 p
    let (payload, p) ← readVar p
    return (.frameTxEnc type subtype fc payload, p)
  | 0x0A => do
    let (data, p) ← readVar p
    return (.frag data, p)
  | 0x0B => do
    let (fc, p) ← readU8 p
    let (payload, p) ← readVar p
    return (.reasmPush fc payload, p)
  | 0x0C => some (.reasmReset, p)
  | 0x0D => do
    let (t, p) ← readU32 p
    return (.reqIssue t, p)
  | 0x0E => some (.reqCollect, p)
  | 0x0F => some (.getStatus, p)
  | 0x10 => some (.sessionInit, p)
  | 0x11 => some (.sessionEnd, p)
  | 0x12 => do
    let (mask, p) ← readU8 p
    return (.clrFlags mask, p)
  | _ => none

/-! ## Frames (R77, R78, R165 to R168) -/

/-- Header byte 0: `(subtype << 2) | type` (R78). -/
def headerByte (type : BitVec 2) (subtype : BitVec 6) : Byte :=
  (subtype.setWidth 8 <<< 2) ||| type.setWidth 8

/-- `frame_encode` (R166), for a payload of at most 255 bytes. -/
def frameEncode (f : Frame) : List Byte :=
  headerByte f.type f.subtype :: f.fc :: f.seq :: BitVec.ofNat 8 f.payload.length :: f.payload

/-- `frame_decode` (R168): none is its ParseError. Bytes after the payload are ignored. -/
def frameDecode : List Byte → Option Frame
  | b0 :: fc :: seq :: len :: rest =>
    if len.toNat ≤ rest.length then
      some { type := b0.extractLsb' 0 2, subtype := b0.extractLsb' 2 6, fc, seq, payload := rest.take len.toNat }
    else none
  | _ => none

/-- The row of the opcode table that a frame belongs to, by its byte 0 (R82). -/
def frameInstr (f : Frame) : Instr :=
  match (headerByte f.type f.subtype).toNat with
  | 0x01 => .frameDataNeg f.fc f.seq f.payload
  | 0x09 => .frameDataSsid f.fc f.seq f.payload
  | 0x0D => .frameDataPassword f.fc f.seq f.payload
  | 0x3D => .frameDataStatus f.fc f.seq f.payload
  | 0x45 => .frameDataWifilist f.fc f.seq f.payload
  | 0x0C => .frameCtrlApply f.fc f.seq f.payload
  | 0x24 => .frameCtrlScan f.fc f.seq f.payload
  | _ => .frameGeneric f.type f.subtype f.fc f.seq f.payload

/-- The frame that a frame row stands for (R82). -/
def instrFrame : Instr → Option Frame
  | .frameDataNeg fc seq payload => some ⟨1, 0x00, fc, seq, payload⟩
  | .frameDataSsid fc seq payload => some ⟨1, 0x02, fc, seq, payload⟩
  | .frameDataPassword fc seq payload => some ⟨1, 0x03, fc, seq, payload⟩
  | .frameDataStatus fc seq payload => some ⟨1, 0x0F, fc, seq, payload⟩
  | .frameDataWifilist fc seq payload => some ⟨1, 0x11, fc, seq, payload⟩
  | .frameCtrlApply fc seq payload => some ⟨0, 0x03, fc, seq, payload⟩
  | .frameCtrlScan fc seq payload => some ⟨0, 0x09, fc, seq, payload⟩
  | .frameGeneric type subtype fc seq payload => some ⟨type, subtype, fc, seq, payload⟩
  | .md5 _ => none
  | .aesSetkey _ => none
  | .aesEncblk _ => none
  | .cfbEnc _ _ => none
  | .modpow _ _ _ => none
  | .frameEnc _ _ _ _ _ => none
  | .frameDec _ => none
  | .frameTx _ _ _ _ => none
  | .frameTxEnc _ _ _ _ => none
  | .frag _ => none
  | .reasmPush _ _ => none
  | .reasmReset => none
  | .reqIssue _ => none
  | .reqCollect => none
  | .getStatus => none
  | .sessionInit => none
  | .sessionEnd => none
  | .clrFlags _ => none
  | .reserved _ => none
  | .rxNotify _ => none
  | .tick => none
  | .frameEnc4 _ _ _ _ => none
  | .send _ => none
  | .wait => none
  | .request _ => none
  | .sleep _ => none

/-! ## The decoder -/

/-- Why a transaction is no instruction. -/
inductive DecodeError where
  /-- The operand fields do not end exactly at the descriptor's end: the engine answers ERR_DESC (R72 step (2)). -/
  | badDescriptor
  deriving DecidableEq, Repr

/-- A descriptor on `cmd` (R72): empty or with a reserved opcode it is the row `(reserved)` (R75); otherwise its
operands must end exactly at its end. -/
def decodeCmd (d : List Byte) : Except DecodeError Instr :=
  match d with
  | [] => .ok (.reserved [])
  | op :: p =>
    if reservedOpcode op then .ok (.reserved (op :: p))
    else
      match readOperands op p with
      | some (i, []) => .ok i
      | _ => .error .badDescriptor

/-- A byte string on `rx`. One that decodes as a frame is named by its frame row; any other is the bare
`RX_NOTIFY`. DESIGN CHOICE (log 8), safe: both rows mean the same event (R212). -/
def decodeRx (b : List Byte) : Instr :=
  match frameDecode b with
  | some f => frameInstr f
  | none => .rxNotify b

/-- A pseudo-command (R90). -/
def decodePseudo : Pseudo → Instr
  | .frameEnc4 type subtype seq payload => .frameEnc4 type subtype seq payload
  | .send f => .send f
  | .wait => .wait
  | .request t => .request t
  | .sleep n => .sleep n

/-- The decoder: the channel selects the format (R10, R73). -/
def decode : Transaction → Except DecodeError Instr
  | .cmd d => decodeCmd d
  | .rx b => .ok (decodeRx b)
  | .tick => .ok .tick
  | .pseudo p => .ok (decodePseudo p)

/-! ## The encoder (R73) -/

/-- The descriptor of a command or of a reserved row; `[]` for the rows that have none. -/
def encodeCmd : Instr → List Byte
  | .md5 msg => 0x01 :: varField msg
  | .aesSetkey key => 0x02 :: key
  | .aesEncblk block => 0x03 :: block
  | .cfbEnc iv data => 0x04 :: (iv ++ varField data)
  | .modpow base exp mod => 0x05 :: (varField base ++ varField exp ++ varField mod)
  | .frameEnc type subtype fc seq payload => 0x06 :: type :: subtype :: fc :: seq :: varField payload
  | .frameDec buf => 0x07 :: varField buf
  | .frameTx type subtype fc payload => 0x08 :: type :: subtype :: fc :: varField payload
  | .frameTxEnc type subtype fc payload => 0x09 :: type :: subtype :: fc :: varField payload
  | .frag data => 0x0A :: varField data
  | .reasmPush fc payload => 0x0B :: fc :: varField payload
  | .reasmReset => [0x0C]
  | .reqIssue t => 0x0D :: le32 t
  | .reqCollect => [0x0E]
  | .getStatus => [0x0F]
  | .sessionInit => [0x10]
  | .sessionEnd => [0x11]
  | .clrFlags mask => [0x12, mask]
  | .reserved d => d
  | .rxNotify _ => []
  | .tick => []
  | .frameDataNeg _ _ _ => []
  | .frameDataSsid _ _ _ => []
  | .frameDataPassword _ _ _ => []
  | .frameDataStatus _ _ _ => []
  | .frameDataWifilist _ _ _ => []
  | .frameCtrlApply _ _ _ => []
  | .frameCtrlScan _ _ _ => []
  | .frameGeneric _ _ _ _ _ => []
  | .frameEnc4 _ _ _ _ => []
  | .send _ => []
  | .wait => []
  | .request _ => []
  | .sleep _ => []

/-- The transaction that carries an instruction. -/
def encode : Instr → Transaction
  | .md5 msg => .cmd (encodeCmd (.md5 msg))
  | .aesSetkey key => .cmd (encodeCmd (.aesSetkey key))
  | .aesEncblk block => .cmd (encodeCmd (.aesEncblk block))
  | .cfbEnc iv data => .cmd (encodeCmd (.cfbEnc iv data))
  | .modpow base exp mod => .cmd (encodeCmd (.modpow base exp mod))
  | .frameEnc type subtype fc seq payload => .cmd (encodeCmd (.frameEnc type subtype fc seq payload))
  | .frameDec buf => .cmd (encodeCmd (.frameDec buf))
  | .frameTx type subtype fc payload => .cmd (encodeCmd (.frameTx type subtype fc payload))
  | .frameTxEnc type subtype fc payload => .cmd (encodeCmd (.frameTxEnc type subtype fc payload))
  | .frag data => .cmd (encodeCmd (.frag data))
  | .reasmPush fc payload => .cmd (encodeCmd (.reasmPush fc payload))
  | .reasmReset => .cmd (encodeCmd .reasmReset)
  | .reqIssue t => .cmd (encodeCmd (.reqIssue t))
  | .reqCollect => .cmd (encodeCmd .reqCollect)
  | .getStatus => .cmd (encodeCmd .getStatus)
  | .sessionInit => .cmd (encodeCmd .sessionInit)
  | .sessionEnd => .cmd (encodeCmd .sessionEnd)
  | .clrFlags mask => .cmd (encodeCmd (.clrFlags mask))
  | .reserved d => .cmd (encodeCmd (.reserved d))
  | .rxNotify b => .rx b
  | .tick => .tick
  | .frameDataNeg fc seq payload => .rx (frameEncode ⟨1, 0x00, fc, seq, payload⟩)
  | .frameDataSsid fc seq payload => .rx (frameEncode ⟨1, 0x02, fc, seq, payload⟩)
  | .frameDataPassword fc seq payload => .rx (frameEncode ⟨1, 0x03, fc, seq, payload⟩)
  | .frameDataStatus fc seq payload => .rx (frameEncode ⟨1, 0x0F, fc, seq, payload⟩)
  | .frameDataWifilist fc seq payload => .rx (frameEncode ⟨1, 0x11, fc, seq, payload⟩)
  | .frameCtrlApply fc seq payload => .rx (frameEncode ⟨0, 0x03, fc, seq, payload⟩)
  | .frameCtrlScan fc seq payload => .rx (frameEncode ⟨0, 0x09, fc, seq, payload⟩)
  | .frameGeneric type subtype fc seq payload => .rx (frameEncode ⟨type, subtype, fc, seq, payload⟩)
  | .frameEnc4 type subtype seq payload => .pseudo (.frameEnc4 type subtype seq payload)
  | .send f => .pseudo (.send f)
  | .wait => .pseudo .wait
  | .request t => .pseudo (.request t)
  | .sleep n => .pseudo (.sleep n)

/-- The instruction is the row that the decoder names for its bytes: a frame outside the catalog for
`FRAME__generic`, bytes that are no frame for `RX_NOTIFY` (log 8). -/
def canonical : Instr → Bool
  | .rxNotify b => frameDecode b == none
  | .frameGeneric type subtype fc seq payload =>
    frameInstr ⟨type, subtype, fc, seq, payload⟩ == .frameGeneric type subtype fc seq payload
  | .md5 _ => true
  | .aesSetkey _ => true
  | .aesEncblk _ => true
  | .cfbEnc _ _ => true
  | .modpow _ _ _ => true
  | .frameEnc _ _ _ _ _ => true
  | .frameDec _ => true
  | .frameTx _ _ _ _ => true
  | .frameTxEnc _ _ _ _ => true
  | .frag _ => true
  | .reasmPush _ _ => true
  | .reasmReset => true
  | .reqIssue _ => true
  | .reqCollect => true
  | .getStatus => true
  | .sessionInit => true
  | .sessionEnd => true
  | .clrFlags _ => true
  | .reserved _ => true
  | .tick => true
  | .frameDataNeg _ _ _ => true
  | .frameDataSsid _ _ _ => true
  | .frameDataPassword _ _ _ => true
  | .frameDataStatus _ _ _ => true
  | .frameDataWifilist _ _ _ => true
  | .frameCtrlApply _ _ _ => true
  | .frameCtrlScan _ _ _ => true
  | .frameEnc4 _ _ _ _ => true
  | .send _ => true
  | .wait => true
  | .request _ => true
  | .sleep _ => true

/-! ## Words of the opcode table -/

/-- Byte 0 of a frame of the catalog that is no opcode of a command. The other catalog bytes 0x01, 0x09, 0x0C and
0x0D are opcodes as well, and a word alone does not say its channel (log 9). -/
def catalogOnly (b0 : Byte) : Bool := b0 == 0x3D || b0 == 0x45 || b0 == 0x24

/-- The bytes of a table word, byte 0 first (R11, R12). -/
def wordBytes (nbits w : Nat) : List Byte := (List.range (nbits / 8)).map fun k => BitVec.ofNat 8 (w / 256 ^ k)

/-- The bytes of a table word as one transaction: its bytes, then as many zero bytes as its fields need (at most 64).
DESIGN CHOICE (log 9): a catalog byte that is no opcode arrives on `rx`, every other word on `cmd`. -/
def tableTransaction (nbits w : Nat) : Transaction :=
  match wordBytes nbits w with
  | [] => .cmd []
  | op :: p =>
    let padded := p ++ List.replicate 64 0
    if catalogOnly op then .rx (op :: (p ++ List.replicate (3 - p.length) 0))
    else if reservedOpcode op then .cmd (op :: p)
    else
      match readOperands op padded with
      | some (_, rest) => .cmd (op :: padded.take (max p.length (padded.length - rest.length)))
      | none => .cmd (op :: p)

/-- The instruction that the decoder reads from a word of the opcode table; none where it refuses. -/
def decodeTableWord (nbits w : Nat) : Option Instr :=
  match decode (tableTransaction nbits w) with
  | .ok i => some i
  | .error _ => none

end Sys2Proof
end

