-- ==== Sys2Proof/Machine/State.lean ====
section
/-! DEFINITION. The state of the machine as plain data (10_state.md), the reasons a step could stop, and reset
(R36, R300). INVENTORY.md lists every field with its rule and its reset value. -/

namespace Sys2Proof.Machine

/-- Faults: none. A command completes with a status (R270), events cannot fail (R279), and host actions complete
or report a TransportError to the session's caller (R266); nothing raises a fault, so nothing here is unsafe. -/
inductive Fault where
  deriving DecidableEq, Repr

/-- Refusals. -/
inductive Refusal where
  /-- Raised by `exec` alone, for an instruction that has no meaning yet; safe. No instruction is in this case. -/
  | notModelled (mnemonic : String)
  deriving DecidableEq, Repr

/-! ## The engine (R20) -/

/-- A message being collected (R27): present exactly while `RA_ACTIVE = 1`. -/
structure Reasm where
  /-- `RA_TOTAL`, 16 bits. -/
  total : BitVec 16
  /-- `RA_BUF`. -/
  buf : List Byte
  deriving DecidableEq, Repr

/-- The pending slot (R28, R205): `CORR_STATE` with the `CORR_REMAIN` and `CORR_FRAME` that go with it. -/
inductive Corr where
  /-- `CORR_STATE = 0`; `CORR_REMAIN = 0`. -/
  | idle
  /-- `CORR_STATE = 1`; the live count. -/
  | awaiting (remain : Word)
  /-- `CORR_STATE = 2`; the count frozen when the frame came, and `CORR_FRAME`. -/
  | resolved (remain : Word) (frame : Frame)
  /-- `CORR_STATE = 3`; `CORR_REMAIN = 0`. -/
  | timedOut
  deriving DecidableEq, Repr

/-- The persistent state of the engine (R20, R25 to R29). Absent data is the spec's 'no value' (log 1). -/
structure Engine where
  /-- `SEQ` (R25). -/
  seq : Byte
  /-- `AES_RK` (R26): 176 bytes, round key `r` at `16r`; present exactly while `KEYVALID = 1` (log 2). -/
  aesRk : Option (List Byte)
  /-- `RA_ACTIVE`, `RA_TOTAL`, `RA_BUF` (R27). -/
  ra : Option Reasm
  /-- `CORR_STATE`, `CORR_REMAIN`, `CORR_FRAME` (R28). -/
  corr : Corr
  /-- `PARSE_ERR` (R29). -/
  parseErr : Bool
  /-- `UNSOLICITED` (R29). -/
  unsolicited : Bool
  deriving DecidableEq, Repr

/-- The engine after reset (R36, R300). -/
def Engine.reset : Engine :=
  { seq := 0, aesRk := none, ra := none, corr := .idle, parseErr := false, unsolicited := false }

/-! ## The host (R24, R35, R240 to R268) -/

/-- The negotiator's states (R241). -/
inductive NegoState where
  | idle | keysGenerated | lengthSent | paramsSent | awaitingPeerKey | established | failed
  deriving DecidableEq, Repr

/-- A characteristic of a device, as the Transport's calls name it (R289). Its identifiers have no form in the spec: byte
strings (log 27). -/
structure Characteristic where
  serviceId : List Byte
  charId : List Byte
  deriving DecidableEq, Repr

/-- The device of the connection and the characteristic that `SEND` writes to (R90, R250, R289; log 25). -/
structure Peer where
  id : List Byte
  write : Characteristic
  deriving DecidableEq, Repr

/-- The values that the host holds for the length of a handshake (R35, R240); absent before their step and after the
sequence (log 26). -/
structure HandshakeKeys where
  /-- The 128 random bytes (R242). -/
  privateKey : Option (Bytes Config.dhBytes)
  /-- R242. -/
  publicKey : Option (Bytes Config.dhBytes)
  /-- The payload of the peer's response (R246). -/
  peerPublicKey : Option (Bytes Config.dhBytes)
  /-- R246. -/
  sharedSecret : Option (Bytes Config.dhBytes)
  /-- R246. -/
  sessionKey : Option (Bytes Config.keyBytes)
  deriving DecidableEq, Repr

/-- Outside a handshake none of the values is held (R240). -/
def HandshakeKeys.dropped : HandshakeKeys :=
  { privateKey := none, publicKey := none, peerPublicKey := none, sharedSecret := none, sessionKey := none }

/-- A device that the Transport discovers: `{id, name, signal}` (R289). The spec gives the fields no form (log 27). -/
structure Device where
  id : List Byte
  name : List Byte
  signal : Int
  deriving DecidableEq, Repr

/-- The host's calls of the Transport (R289); the `onData` of subscribeNotifications is the channel `rx`. -/
inductive TransportCall where
  | openAdapter
  | discover (filter : List Byte) (durationMs : Nat)
  | connect (id : List Byte) (timeoutMs : Nat)
  | setMtu (id : List Byte) (size : Nat)
  | listServices (id : List Byte)
  | listCharacteristics (id serviceId : List Byte)
  | writeCharacteristic (id serviceId charId bytes : List Byte)
  | subscribeNotifications (id serviceId charId : List Byte)
  | disconnect (id : List Byte)
  deriving DecidableEq, Repr

/-- One entry of the WiFi list (R261). -/
structure WifiEntry where
  ssid : List Byte
  signal : Int
  deriving DecidableEq, Repr

/-- What a host sequence tells the session's caller (R266, R267). -/
inductive Report where
  /-- The final list of a scan (R267, R289). -/
  | scanned (devices : List Device)
  | connected
  | established
  | wifiConfigured (success : Bool)
  | wifiList (entries : List WifiEntry)
  | disconnected
  /-- TransportError (R266); which of its causes it was is not told (log 28). -/
  | transportError
  /-- ProtocolTimeoutError: the handshake timed out (R247). -/
  | protocolTimeout
  /-- The peer's key was not 128 bytes (R247). -/
  | handshakeError
  /-- A command answered an error status that its sequence does not expect (R241, R266). -/
  | commandError (status : Byte)
  deriving DecidableEq, Repr

/-- The session's use-cases (R267). The open parameters `DH_P`, `SETTLE_CONNECT_MS`, `SETTLE_WRITE_MS`, the random bytes
and what R250 leaves out of `connect` (the timeout, the two characteristics) are their arguments (R8, log 16). -/
inductive UseCase where
  | init
  | scan (filter : List Byte) (durationMs : Nat)
  | connect (id : List Byte) (timeoutMs : Nat) (notify write : Characteristic) (settleMs : Nat)
  | negotiate (dhP priv : Bytes Config.dhBytes)
  | configureWifi (ssid password : List Byte) (settleMs : Nat)
  | listWifi (timeoutMs : Nat)
  | disconnect
  deriving DecidableEq, Repr

/-- What a polling loop looks for (R255, R257). -/
inductive PollGoal where
  | status | scan
  deriving DecidableEq, Repr

/-- What the host does with the last response it received, between two actions of a sequence, with the parameters of
that sequence (log 12). -/
inductive Kont where
  /-- The response must be OK, else the sequence ends (R241). -/
  | expectOk
  /-- `SEND` the frame that FRAME_TX or FRAME_TX_ENC returned. -/
  | sendFrame
  /-- `SEND` the frames that FRAG returned, in order (R245). -/
  | sendFrames
  /-- The negotiator moves (R241). -/
  | nego (state : NegoState)
  /-- `pub` has come (R242); the handshake goes on (R243 to R245). -/
  | publicKey (dhP : Bytes Config.dhBytes)
  /-- The outcome of the handshake's request has been collected (R246). -/
  | peerKey (dhP : Bytes Config.dhBytes)
  /-- `ss` has come (R246). -/
  | sharedSecret
  /-- `key` has come (R246). -/
  | sessionKey
  /-- `discover` has yielded the list of a scan (R267, R289). -/
  | discovered
  /-- SESSION_INIT of `connect` has answered (R250). -/
  | sessionInit (id : List Byte) (notify : Characteristic) (settleMs : Nat)
  /-- The head of a polling loop (R255). -/
  | poll (goal : PollGoal) (left : Nat)
  /-- A poll's outcome has been collected (R255). -/
  | polled (goal : PollGoal) (left t : Nat)
  /-- The sequence ends well. -/
  | report (r : Report)
  deriving DecidableEq, Repr

/-- One thing the host does. -/
inductive HostAction where
  /-- Issue a command descriptor on `cmd`. -/
  | cmd (descriptor : List Byte)
  | pseudo (p : Pseudo)
  | transport (c : TransportCall)
  | start (u : UseCase)
  | resume (k : Kont)
  deriving DecidableEq, Repr

/-- Whether the host can take its next action (R90 `WAIT`, `SLEEP`). -/
inductive Block where
  | ready
  /-- Until `irq_corr = 1`. -/
  | untilIrq
  /-- Until this many more TICKs have passed. -/
  | ticks (left : Nat)
  deriving DecidableEq, Repr

structure HostSide where
  /-- What the host will do after the sequence it is in. -/
  program : List HostAction
  /-- What is left of the sequence it is in. -/
  running : List HostAction
  block : Block
  /-- The negotiator of this connection, once one has started (R241, log 18). -/
  nego : Option NegoState
  /-- The values of the handshake under way (R240, log 26). -/
  keys : HandshakeKeys
  /-- Where `SEND` writes (R90, log 25). -/
  peer : Peer
  /-- The final list of the last `discover` (R289). -/
  devices : List Device
  /-- Newest first. -/
  reports : List Report
  deriving DecidableEq, Repr

/-! ## The whole machine -/

/-- One move of the interleaving (R58, R284; log 4). -/
inductive Turn where
  /-- The host takes its next action. -/
  | host
  /-- The Transport delivers a notification: `RX_NOTIFY`. -/
  | rx (bytes : List Byte)
  /-- The Timer ticks: `TICK`. -/
  | tick
  /-- The platform resets the engine (R300). -/
  | reset
  /-- From now on Transport calls that can fail succeed, or fail (log 7). -/
  | link (up : Bool)
  /-- From now on `discover` yields this list (log 7). -/
  | inRange (devices : List Device)
  deriving DecidableEq, Repr

structure State where
  engine : Engine
  /-- The responses produced on `rsp`, newest first (R10, R74; log 6). -/
  rsp : List (List Byte)
  host : HostSide
  /-- The Transport calls made, newest first (R289; log 7). -/
  calls : List TransportCall
  /-- Whether a Transport call that can fail succeeds (R289; log 7). -/
  linkUp : Bool
  /-- What `discover` yields (R289; log 7). -/
  inRange : List Device
  /-- The moves still to come, the next one first (log 4). -/
  turns : List Turn
  deriving DecidableEq, Repr

/-- The machine right after reset: the engine as R36 says, nothing on any channel, a host with nothing to do. The host's
and the channels' values are DESIGN CHOICE (log 4, 6, 7, 21, 25). -/
def State.reset : State :=
  { engine := Engine.reset
    rsp := []
    host :=
      { program := [], running := [], block := .ready, nego := none, keys := HandshakeKeys.dropped
        peer := { id := [], write := { serviceId := [], charId := [] } }, devices := [], reports := [] }
    calls := []
    linkUp := true
    inRange := []
    turns := [] }

end Sys2Proof.Machine
end

