-- ==== Sys2Proof/Machine/Ops.lean ====
section
/-! DEFINITION. The operations that the meanings share: completing a command, ending it with an error status (the
spec's exception, 60_exceptions.md R270 to R277), an event, and cutting a byte string into blocks. -/

namespace Sys2Proof.Machine

/-- The status codes, complete (R271). -/
inductive Status where
  | ok | errOpcode | errDesc | errLen | errParse | errBusy | errTimeout | errPending | errNoreq | errNokey
  | errKeyset | errOperand | errFrag
  deriving DecidableEq, Repr

/-- The code of a status (R271). -/
def Status.code : Status → Byte
  | .ok => 0x00
  | .errOpcode => 0x01
  | .errDesc => 0x02
  | .errLen => 0x03
  | .errParse => 0x04
  | .errBusy => 0x05
  | .errTimeout => 0x06
  | .errPending => 0x07
  | .errNoreq => 0x08
  | .errNokey => 0x09
  | .errKeyset => 0x0A
  | .errOperand => 0x0B
  | .errFrag => 0x0C

/-- `raise` (R276): the command ends, the response is the one status byte, the engine is as given. There is no
handler, nothing is saved and there is no return (R277): the next command is accepted at once. -/
def raise (status : Status) (e : Engine) : Engine × List Byte := (e, [status.code])

/-- `return` (R13, R74): the command ends with status OK and its results. -/
def complete (results : List Byte) (e : Engine) : Engine × List Byte := (e, Status.ok.code :: results)

/-- A command's step: the new engine, and one response on `rsp` (R10, R56). -/
def State.command (f : Engine → Engine × List Byte) (s : State) : State :=
  { s with engine := (f s.engine).1, rsp := (f s.engine).2 :: s.rsp }

/-- An event's step: the new engine and no response (R279). -/
def State.event (f : Engine → Engine) (s : State) : State := { s with engine := f s.engine }

/-- ERR_DESC for a descriptor that does not parse into its opcode's fields (R72 step (2)). -/
def rejectDescriptor (s : State) : State := s.command (raise .errDesc)

/-- Reset (R300) as a step: the engine's persistent state, and nothing outside the engine (log 17). -/
def resetStep (s : State) : State := s.event fun _ => Engine.reset

/-- `b` cut into blocks of `n` bytes, the last of them of 1 to `n` bytes; no block for an empty `b`. -/
def blocksOf (n : Nat) (b : List Byte) : List (List Byte) := go b.length b
where
  /-- At most `fuel` blocks. -/
  go : Nat → List Byte → List (List Byte)
  | 0, _ => []
  | _ + 1, [] => []
  | fuel + 1, b => b.take n :: go fuel (b.drop n)

/-- Bytewise `^`, as long as the shorter of the two. -/
def xorBytes (a b : List Byte) : List Byte := List.zipWith (· ^^^ ·) a b

end Sys2Proof.Machine
end

