-- ==== Sys2Proof/Machine/Flags.lean ====
section
/-! DEFINITION. The flags: the views KEYVALID, RA_ACTIVE, CORR_STATE, CORR_REMAIN, CORR_FRAME of what is stored once
(log 2), the STATUS register (10_state.md R30), `irq_corr` (60_exceptions.md R280), and the frameControl bits
(30_encoding.md R79). -/

namespace Sys2Proof.Machine

/-- `KEYVALID` (R26). -/
def Engine.keyValid (e : Engine) : Bool := e.aesRk.isSome

/-- `RA_ACTIVE` (R27). -/
def Engine.raActive (e : Engine) : Bool := e.ra.isSome

/-- `CORR_STATE` as its number (R28). -/
def Corr.code : Corr → Byte
  | .idle => 0
  | .awaiting _ => 1
  | .resolved _ _ => 2
  | .timedOut => 3

/-- `CORR_REMAIN` (R28). -/
def Corr.remain : Corr → Word
  | .idle => 0
  | .awaiting remain => remain
  | .resolved remain _ => remain
  | .timedOut => 0

/-- `CORR_FRAME` (R28). -/
def Corr.frame : Corr → Option Frame
  | .resolved _ f => some f
  | _ => none

/-- `CORR_STATE` as GET_STATUS returns it: the upper 6 bits are 0 (R31). -/
def Engine.corrCode (e : Engine) : Byte := e.corr.code
def Engine.corrRemain (e : Engine) : Word := e.corr.remain
def Engine.corrFrame (e : Engine) : Option Frame := e.corr.frame

/-- `STATUS = KEYVALID | RA_ACTIVE << 1 | PARSE_ERR << 2 | UNSOLICITED << 3` (R30, R234). -/
def Engine.statusByte (e : Engine) : Byte :=
  (BitVec.ofBool e.keyValid).setWidth 8 ||| ((BitVec.ofBool e.raActive).setWidth 8 <<< 1)
    ||| ((BitVec.ofBool e.parseErr).setWidth 8 <<< 2) ||| ((BitVec.ofBool e.unsolicited).setWidth 8 <<< 3)

/-- `irq_corr` (R280): 1 while CORR_STATE is Resolved or TimedOut. -/
def Corr.irq : Corr → Bool
  | .idle => false
  | .awaiting _ => false
  | .resolved _ _ => true
  | .timedOut => true

def Engine.irqCorr (e : Engine) : Bool := e.corr.irq

/-- `FC_ENC` (R79). -/
def fcEnc : Byte := 0x01
/-- `FC_FRAG` (R79). -/
def fcFrag : Byte := 0x10

end Sys2Proof.Machine
end

