-- ==== Sys2Proof/Machine/Operands.lean ====
section
/-! DEFINITION. The operand checks of the frame commands (30_encoding.md R76, 44_frame_codec.md R176) and the result
fields of a response (20_memory.md R53's writers). -/

namespace Sys2Proof.Machine

/-- The checks of FRAME_ENC, FRAME_TX and FRAME_TX_ENC in R176's order: field ranges, then payload length. -/
def frameCheck (type subtype : Byte) (payload : List Byte) : Option Status :=
  if 2 ≤ type.toNat ∨ 63 < subtype.toNat then some .errOperand
  else if Config.payloadMax < payload.length then some .errLen
  else none

/-- `frame_encode(type, subtype, fc, seq, payload)` on the `u8` operands of a command that passed `frameCheck`. -/
def frameOf (type subtype fc seq : Byte) (payload : List Byte) : List Byte :=
  frameEncode { type := type.setWidth 2, subtype := subtype.setWidth 6, fc, seq, payload }

/-- The five result fields of a decoded frame: `type`, `subtype`, `fc`, `seq`, `payload` (R169, R210). -/
def frameFields (f : Frame) : List Byte :=
  f.type.setWidth 8 :: f.subtype.setWidth 8 :: f.fc :: f.seq :: varField f.payload

end Sys2Proof.Machine
end

