-- ==== Sys2Proof/Machine/Aes.lean ====
section
/-! DEFINITION. The AES-128 block cipher unit (41_aes128.md) and the CFB encryptor (42_cfb.md). Only encryption
exists (R120, R145). -/

namespace Sys2Proof.Machine

/-- The S-box, row `R` of R122 read as one number, column 0 in the most significant byte. -/
def sboxRows : List (BitVec 128) :=
  [0x637c777bf26b6fc53001672bfed7ab76, 0xca82c97dfa5947f0add4a2af9ca472c0,
   0xb7fd9326363ff7cc34a5e5f171d83115, 0x04c723c31896059a071280e2eb27b275,
   0x09832c1a1b6e5aa0523bd6b329e32f84, 0x53d100ed20fcb15b6acbbe394a4c58cf,
   0xd0efaafb434d338545f9027f503c9fa8, 0x51a3408f929d38f5bcb6da2110fff3d2,
   0xcd0c13ec5f974417c4a77e3d645d1973, 0x60814fdc222a908846eeb814de5e0bdb,
   0xe0323a0a4906245cc2d3ac629195e479, 0xe7c8376d8dd54ea96c56f4ea657aae08,
   0xba78252e1ca6b4c6e8dd741f4bbd8b8a, 0x703eb5664803f60e613557b986c11d9e,
   0xe1f8981169d98e949b1e87e9ce5528df, 0x8ca1890dbfe6426841992d0fb054bb16]

/-- `SBOX[x]` (R122). -/
def sbox (x : Byte) : Byte :=
  ((sboxRows.getD (x.toNat / 16) 0) >>> (8 * (15 - x.toNat % 16))).setWidth 8

/-- `xtime` in GF(2^8) modulo 0x11B (R121). -/
def xtime (a : Byte) : Byte := (a <<< 1) ^^^ (if a.getLsbD 7 then 0x1B else 0)

/-- `mul3` (R121). -/
def mul3 (a : Byte) : Byte := xtime a ^^^ a

/-- `RCON[1..10]` (R123). -/
def rcon (i : Nat) : Byte := [0x01, 0x02, 0x04, 0x08, 0x10, 0x20, 0x40, 0x80, 0x1b, 0x36].getD (i - 1) 0

/-- The `t` of R124 for word `i`: rotated, substituted and with the round constant when `i mod 4 = 0`. -/
def keyTemp (i : Nat) (w : List Byte) : List Byte :=
  match w with
  | [t0, t1, t2, t3] => if i % 4 = 0 then [sbox t1 ^^^ rcon (i / 4), sbox t2, sbox t3, sbox t0] else w
  | w => w

/-- One word of the schedule (R124): `ws` holds the words before `w[i]`, the newest first. -/
def keyStep (ws : List (List Byte)) (i : Nat) : List (List Byte) :=
  xorBytes (ws.getD 3 []) (keyTemp i (ws.getD 0 [])) :: ws

/-- `aes_key_expand(key)` (R124). -/
def aesKeyExpand (key : List Byte) : List Byte :=
  ((List.range' 4 40).foldl keyStep (blocksOf 4 key).reverse).reverse.flatten

/-- Round key `r` of a schedule (R26). -/
def roundKey (rk : List Byte) (r : Nat) : List Byte := (rk.drop (16 * r)).take 16

/-- `SubBytes` (R127). -/
def subBytes (st : List Byte) : List Byte := st.map sbox

/-- `ShiftRows` as R128's index list. -/
def shiftRows (st : List Byte) : List Byte :=
  [0, 5, 10, 15, 4, 9, 14, 3, 8, 13, 2, 7, 12, 1, 6, 11].map fun k => st.getD k 0

/-- `MixColumns` (R129), column by column. -/
def mixColumns : List Byte → List Byte
  | a0 :: a1 :: a2 :: a3 :: rest =>
    (xtime a0 ^^^ mul3 a1 ^^^ a2 ^^^ a3) :: (a0 ^^^ xtime a1 ^^^ mul3 a2 ^^^ a3)
      :: (a0 ^^^ a1 ^^^ xtime a2 ^^^ mul3 a3) :: (mul3 a0 ^^^ a1 ^^^ a2 ^^^ xtime a3) :: mixColumns rest
  | _ => []

/-- One of rounds 1 to 9 (R132). -/
def aesRound (rk : List Byte) (st : List Byte) (r : Nat) : List Byte :=
  xorBytes (mixColumns (shiftRows (subBytes st))) (roundKey rk r)

/-- `aes128_encrypt_block(rk, block)` (R132). -/
def aesEncryptBlock (rk block : List Byte) : List Byte :=
  let st := (List.range' 1 9).foldl (aesRound rk) (xorBytes block (roundKey rk 0))
  xorBytes (shiftRows (subBytes st)) (roundKey rk 10)

/-- CFB over the blocks of the data, with the feedback register `fb` (R140, R141). -/
def cfbBlocks (rk : List Byte) : List (List Byte) → List Byte → List Byte
  | [], _ => []
  | block :: rest, fb =>
    let c := xorBytes block (aesEncryptBlock rk fb)
    c ++ cfbBlocks rk rest c

/-- `cfb_encrypt(rk, data, iv)` (R140); the last block may be short (R142). -/
def cfbEncrypt (rk data iv : List Byte) : List Byte := cfbBlocks rk (blocksOf 16 data) iv

/-- `AES_SETKEY` (R130). -/
def cmdAesSetkey (key : List Byte) (e : Engine) : Engine × List Byte :=
  if e.keyValid then raise .errKeyset e else complete [] { e with aesRk := some (aesKeyExpand key) }

/-- `AES_ENCBLK` (R131). -/
def cmdAesEncblk (block : List Byte) (e : Engine) : Engine × List Byte :=
  match e.aesRk with
  | none => raise .errNokey e
  | some rk => complete (aesEncryptBlock rk block) e

/-- `CFB_ENC` (R143). -/
def cmdCfbEnc (iv data : List Byte) (e : Engine) : Engine × List Byte :=
  match e.aesRk with
  | none => raise .errNokey e
  | some rk => complete (varField (cfbEncrypt rk data iv)) e

def execAesSetkey (key : List Byte) (s : State) : Host.Outcome State Fault Refusal :=
  .next (s.command (cmdAesSetkey key))

def execAesEncblk (block : List Byte) (s : State) : Host.Outcome State Fault Refusal :=
  .next (s.command (cmdAesEncblk block))

def execCfbEnc (iv data : List Byte) (s : State) : Host.Outcome State Fault Refusal :=
  .next (s.command (cmdCfbEnc iv data))

end Sys2Proof.Machine
end

