-- ==== Sys2Proof/Machine/Correlator.lean ====
section
/-! DEFINITION. The request/response correlator: its two commands, its two events (46_correlator.md), and the frame
rows, each a notification of such a frame (30_encoding.md R82, R83; log 8). -/

namespace Sys2Proof.Machine

/-- `REQ_ISSUE` (R207). -/
def cmdReqIssue (t : Word) (e : Engine) : Engine × List Byte :=
  if e.corr = .idle then complete [] { e with corr := if t = 0 then .timedOut else .awaiting t }
  else raise .errBusy e

/-- `REQ_COLLECT` (R210). -/
def cmdReqCollect (e : Engine) : Engine × List Byte :=
  match e.corr with
  | .idle => raise .errNoreq e
  | .awaiting _ => raise .errPending e
  | .timedOut => raise .errTimeout { e with corr := .idle }
  | .resolved remain f => complete (le32 remain ++ frameFields f) { e with corr := .idle }

/-- A decoded frame reaches the slot (R212): it resolves an awaiting request, whatever its header (R209), and is
dropped otherwise. -/
def receiveFrame (f : Frame) (e : Engine) : Engine :=
  match e.corr with
  | .awaiting remain => { e with corr := .resolved remain f }
  | _ => { e with unsolicited := true }

/-- `RX_NOTIFY(b)` (R212): one notification is decoded as one frame from its first byte. -/
def receive (b : List Byte) (e : Engine) : Engine :=
  match frameDecode b with
  | none => { e with parseErr := true }
  | some f => receiveFrame f e

/-- `TICK` in the engine (R214). -/
def tickEngine (e : Engine) : Engine :=
  match e.corr with
  | .awaiting remain => { e with corr := if remain - 1 = 0 then .timedOut else .awaiting (remain - 1) }
  | _ => e

/-- A tick as a sleeping host counts it (R90 `SLEEP`, log 10). -/
def Block.tick : Block → Block
  | .ticks left => .ticks (left - 1)
  | b => b

def execReqIssue (timeoutMs : Word) (s : State) : Host.Outcome State Fault Refusal :=
  .next (s.command (cmdReqIssue timeoutMs))

def execReqCollect (s : State) : Host.Outcome State Fault Refusal := .next (s.command cmdReqCollect)

def execRxNotify (bytes : List Byte) (s : State) : Host.Outcome State Fault Refusal := .next (s.event (receive bytes))

/-- `TICK`: one millisecond passes for the engine (R214) and for a host that sleeps. -/
def execTick (s : State) : Host.Outcome State Fault Refusal :=
  .next { s.event tickEngine with host := { s.host with block := s.host.block.tick } }

/-- A notification whose bytes are those of a frame. -/
def notifyFrame (f : Frame) (s : State) : State := s.event (receive (frameEncode f))

def execFrameDataNeg (fc seq : Byte) (payload : List Byte) (s : State) : Host.Outcome State Fault Refusal :=
  .next (notifyFrame { type := 1, subtype := 0x00, fc, seq, payload } s)

def execFrameDataSsid (fc seq : Byte) (payload : List Byte) (s : State) : Host.Outcome State Fault Refusal :=
  .next (notifyFrame { type := 1, subtype := 0x02, fc, seq, payload } s)

def execFrameDataPassword (fc seq : Byte) (payload : List Byte) (s : State) : Host.Outcome State Fault Refusal :=
  .next (notifyFrame { type := 1, subtype := 0x03, fc, seq, payload } s)

def execFrameDataStatus (fc seq : Byte) (payload : List Byte) (s : State) : Host.Outcome State Fault Refusal :=
  .next (notifyFrame { type := 1, subtype := 0x0F, fc, seq, payload } s)

def execFrameDataWifilist (fc seq : Byte) (payload : List Byte) (s : State) : Host.Outcome State Fault Refusal :=
  .next (notifyFrame { type := 1, subtype := 0x11, fc, seq, payload } s)

def execFrameCtrlApply (fc seq : Byte) (payload : List Byte) (s : State) : Host.Outcome State Fault Refusal :=
  .next (notifyFrame { type := 0, subtype := 0x03, fc, seq, payload } s)

def execFrameCtrlScan (fc seq : Byte) (payload : List Byte) (s : State) : Host.Outcome State Fault Refusal :=
  .next (notifyFrame { type := 0, subtype := 0x09, fc, seq, payload } s)

def execFrameGeneric (type : BitVec 2) (subtype : BitVec 6) (fc seq : Byte) (payload : List Byte) (s : State) :
    Host.Outcome State Fault Refusal :=
  .next (notifyFrame { type, subtype, fc, seq, payload } s)

end Sys2Proof.Machine
end

