-- ==== Sys2Proof/Machine/Fragments.lean ====
section
/-! DEFINITION. The message fragmenter and the reassembler (45_fragmenter.md). -/

namespace Sys2Proof.Machine

/-- The chunks after the first (R186): the flag is set on every one but the last. -/
def laterChunks : List (List Byte) → List (Bool × List Byte)
  | [] => []
  | [last] => [(false, last)]
  | block :: rest => (true, block) :: laterChunks rest

/-- `fragment_chunks(data)` (R186): `(more, payload)` pairs. -/
def fragmentChunks (data : List Byte) : List (Bool × List Byte) :=
  if data.length ≤ Config.firstChunk then [(false, data)]
  else
    (true, le16 data.length ++ data.take Config.firstChunk)
      :: laterChunks (blocksOf Config.laterChunk (data.drop Config.firstChunk))

/-- The frames of the chunks, with sequence numbers from `seq` on (R188). -/
def fragmentFrames (seq : Byte) : List (Bool × List Byte) → List (List Byte)
  | [] => []
  | (more, payload) :: rest =>
    frameEncode { type := 1, subtype := 0, fc := if more then fcFrag else 0, seq, payload }
      :: fragmentFrames (seq + 1) rest

/-- `FRAG` (R189). -/
def cmdFrag (data : List Byte) (e : Engine) : Engine × List Byte :=
  let chunks := fragmentChunks data
  complete (le16 chunks.length ++ ((fragmentFrames e.seq chunks).map varField).flatten)
    { e with seq := e.seq + BitVec.ofNat 8 chunks.length }

/-- What the reassembler answers to a chunk (R192). -/
inductive ReasmResult where
  | more
  | done (message : List Byte)
  | error
  deriving DecidableEq, Repr

/-- The reassembler's step on one chunk (R192): the new RA_ACTIVE, RA_TOTAL, RA_BUF, and the answer. -/
def reasmStep (more : Bool) (pl : List Byte) (ra : Option Reasm) : Option Reasm × ReasmResult :=
  match ra with
  | none =>
    if more then
      match pl with
      | lo :: hi :: data =>
        if fromLe16 lo hi < data.length then (none, .error)
        else (some { total := BitVec.ofNat 16 (fromLe16 lo hi), buf := data }, .more)
      | _ => (none, .error)
    else (none, .done pl)
  | some r =>
    let buf := r.buf ++ pl
    if r.total.toNat < buf.length then (none, .error)
    else if more then (some { r with buf }, .more)
    else if buf.length = r.total.toNat then (none, .done buf)
    else (none, .error)

/-- `REASM_PUSH` (R193): only bit 4 of `fc` is read. -/
def cmdReasmPush (fc : Byte) (pl : List Byte) (e : Engine) : Engine × List Byte :=
  if Config.payloadMax < pl.length then raise .errLen e
  else
    match reasmStep (fc.getLsbD 4) pl e.ra with
    | (ra, .more) => complete [0] { e with ra }
    | (ra, .done message) => complete (1 :: varField message) { e with ra }
    | (ra, .error) => raise .errFrag { e with ra }

/-- `REASM_RESET` (R195). -/
def cmdReasmReset (e : Engine) : Engine × List Byte := complete [] { e with ra := none }

def execFrag (data : List Byte) (s : State) : Host.Outcome State Fault Refusal := .next (s.command (cmdFrag data))

def execReasmPush (fc : Byte) (payload : List Byte) (s : State) : Host.Outcome State Fault Refusal :=
  .next (s.command (cmdReasmPush fc payload))

def execReasmReset (s : State) : Host.Outcome State Fault Refusal := .next (s.command cmdReasmReset)

end Sys2Proof.Machine
end

