-- ==== Sys2Proof/Machine/Frames.lean ====
section
/-! DEFINITION. The frame encoder and decoder as commands (44_frame_codec.md). -/

namespace Sys2Proof.Machine

/-- `FRAME_ENC` (R167). -/
def cmdFrameEnc (type subtype fc seq : Byte) (payload : List Byte) (e : Engine) : Engine × List Byte :=
  match frameCheck type subtype payload with
  | some status => raise status e
  | none => complete (varField (frameOf type subtype fc seq payload)) e

/-- `FRAME_DEC` (R169): it sets no sticky flag. -/
def cmdFrameDec (buf : List Byte) (e : Engine) : Engine × List Byte :=
  match frameDecode buf with
  | none => raise .errParse e
  | some f => complete (frameFields f) e

/-- `FRAME_TX` (R172). -/
def cmdFrameTx (type subtype fc : Byte) (payload : List Byte) (e : Engine) : Engine × List Byte :=
  match frameCheck type subtype payload with
  | some status => raise status e
  | none => complete (varField (frameOf type subtype fc e.seq payload)) { e with seq := e.seq + 1 }

/-- The IV of an encrypted frame (R175). -/
def frameIv (seq : Byte) : List Byte := seq :: List.replicate 15 0

/-- `FRAME_TX_ENC` (R174). -/
def cmdFrameTxEnc (type subtype fc : Byte) (payload : List Byte) (e : Engine) : Engine × List Byte :=
  match frameCheck type subtype payload with
  | some status => raise status e
  | none =>
    match e.aesRk with
    | none => raise .errNokey e
    | some rk =>
      complete (varField (frameOf type subtype (fc ||| fcEnc) e.seq (cfbEncrypt rk payload (frameIv e.seq))))
        { e with seq := e.seq + 1 }

def execFrameEnc (type subtype fc seq : Byte) (payload : List Byte) (s : State) : Host.Outcome State Fault Refusal :=
  .next (s.command (cmdFrameEnc type subtype fc seq payload))

def execFrameDec (buf : List Byte) (s : State) : Host.Outcome State Fault Refusal :=
  .next (s.command (cmdFrameDec buf))

def execFrameTx (type subtype fc : Byte) (payload : List Byte) (s : State) : Host.Outcome State Fault Refusal :=
  .next (s.command (cmdFrameTx type subtype fc payload))

def execFrameTxEnc (type subtype fc : Byte) (payload : List Byte) (s : State) : Host.Outcome State Fault Refusal :=
  .next (s.command (cmdFrameTxEnc type subtype fc payload))

/-- `FRAME_ENC4` (R90): FRAME_ENC with `fc = 0x00`. -/
def execFrameEnc4 (type subtype seq : Byte) (payload : List Byte) (s : State) : Host.Outcome State Fault Refusal :=
  .next (s.command (cmdFrameEnc type subtype 0x00 seq payload))

end Sys2Proof.Machine
end

