-- ==== Sys2Proof/Machine/Wifi.lean ====
section
/-! DEFINITION. The WiFi-list report and the negotiation payloads, as the host builds and reads them
(48_host_sequences.md R244, R260 to R264; 30_encoding.md R85 to R88). -/

namespace Sys2Proof.Machine

/-- `wifi_parse` (R260) over at most `fuel` entries: it stops at the first bad entry. The signal is signed (R262). -/
def wifiEntries : Nat → List Byte → List WifiEntry
  | 0, _ => []
  | _ + 1, [] => []
  | fuel + 1, n :: rest =>
    if n.toNat ≤ 1 ∨ rest.length < n.toNat then []
    else
      match rest.take n.toNat with
      | rssi :: ssid => { ssid, signal := rssi.toInt } :: wifiEntries fuel (rest.drop n.toNat)
      | [] => []

/-- `wifi_parse(p)` (R260). -/
def wifiParse (p : List Byte) : List WifiEntry := wifiEntries p.length p

/-- De-duplication (R263): the first entry of each SSID stays. -/
def wifiDedupe (entries : List WifiEntry) : List WifiEntry :=
  entries.foldl (fun kept e => if kept.any (·.ssid == e.ssid) then kept else kept ++ [e]) []

/-- The stable order of R264: the highest signal first. -/
def wifiSort (entries : List WifiEntry) : List WifiEntry :=
  entries.insertionSort fun a b => b.signal ≤ a.signal

/-- `wifi_list(p)` (R264). -/
def wifiList (p : List Byte) : List WifiEntry := wifiSort (wifiDedupe (wifiParse p))

/-- The length announcement (R85): 263, although the block is 264 bytes (conflict C2). -/
def lengthAnnouncement : List Byte := [0x00, 0x01, 0x07]

/-- The DH parameter block (R86, R244): the two lengths `00 80` are those of its two 128-byte fields. -/
def paramBlock (dhP pub : Bytes Config.dhBytes) : List Byte :=
  [0x01, 0x00, 0x80] ++ dhP.val ++ [0x00, 0x01, 0x02, 0x00, 0x80] ++ pub.val

/-- The status report says success (R88, R255). -/
def statusSuccess (payload : List Byte) : Bool := payload[1]? == some 0

end Sys2Proof.Machine
end

