-- ==== Sys2Proof/Machine/HostSide.lean ====
section
/-! DEFINITION. The host: the pseudo-commands (30_encoding.md R90), the Transport's calls (60_exceptions.md R289) and
the sequences of 48_host_sequences.md (R240 to R268) as lists of actions with continuations (log 12). -/

namespace Sys2Proof.Machine

/-! ## The host's own operations -/

/-- These actions come next. -/
def State.push (as : List HostAction) (s : State) : State :=
  { s with host := { s.host with running := as ++ s.host.running } }

/-- Tell the session's caller (R266, R267). -/
def State.report (r : Report) (s : State) : State :=
  { s with host := { s.host with reports := r :: s.host.reports } }

def State.setNego (n : Option NegoState) (s : State) : State := { s with host := { s.host with nego := n } }

/-- The host holds these values of a handshake from now on (R240). -/
def State.hold (keys : HandshakeKeys) (s : State) : State := { s with host := { s.host with keys := keys } }

/-- `SEND` writes to this device and characteristic from now on (R250, log 25). -/
def State.setPeer (peer : Peer) (s : State) : State := { s with host := { s.host with peer := peer } }

/-- Established and Failed are final; any other state fails (R241). -/
def NegoState.onError : NegoState → NegoState
  | .established => .established
  | _ => .failed

/-- The sequence stops where it is (R241, R247, R266; log 13), and the values it held are gone with it (R240). -/
def State.abort (r : Report) (s : State) : State :=
  { s with host :=
      { s.host with
        running := [], reports := r :: s.host.reports, nego := s.host.nego.map NegoState.onError
        keys := HandshakeKeys.dropped } }

/-- The calls whose result is `Result<_, TransportError>` (R289). -/
def TransportCall.canFail : TransportCall → Bool
  | .openAdapter => true
  | .connect _ _ => true
  | .writeCharacteristic _ _ _ _ => true
  | .subscribeNotifications _ _ _ => true
  | .discover _ _ => false
  | .setMtu _ _ => false
  | .listServices _ => false
  | .listCharacteristics _ _ => false
  | .disconnect _ => false

/-- The host with what a call yields: the final list of `discover`, whose filter the Transport has applied. No other call
yields anything beside success or failure (R289). -/
def HostSide.afterCall (h : HostSide) (inRange : List Device) : TransportCall → HostSide
  | .discover _ _ => { h with devices := inRange }
  | .openAdapter => h
  | .connect _ _ => h
  | .setMtu _ _ => h
  | .listServices _ => h
  | .listCharacteristics _ _ => h
  | .writeCharacteristic _ _ _ _ => h
  | .subscribeNotifications _ _ _ => h
  | .disconnect _ => h

/-- A call of the Transport: made, with its result for the host (R289), or a TransportError that ends the sequence (R266;
log 7). -/
def State.callTransport (c : TransportCall) (s : State) : State :=
  if c.canFail && !s.linkUp then s.abort .transportError
  else { s with calls := c :: s.calls, host := s.host.afterCall s.inRange c }

/-- A command as the host issues it (R72). -/
def issue (i : Instr) : HostAction := .cmd (encodeCmd i)

/-! ## Pseudo-commands (R90) -/

/-- The Transport's call that writes `bytes` to the peer (R90). -/
def Peer.writeCall (p : Peer) (bytes : List Byte) : TransportCall :=
  .writeCharacteristic p.id p.write.serviceId p.write.charId bytes

/-- `SEND f`: `Transport.writeCharacteristic(id, serviceId, charId, f)` for the frame `f`. -/
def execSend (frame : List Byte) (s : State) : Host.Outcome State Fault Refusal :=
  .next (s.callTransport (s.host.peer.writeCall frame))

/-- `WAIT`: the host does nothing until `irq_corr = 1` (log 10). -/
def execWait (s : State) : Host.Outcome State Fault Refusal :=
  .next { s with host := { s.host with block := .untilIrq } }

/-- `REQUEST t`: `REQ_ISSUE t` in this step, then `WAIT` and `REQ_COLLECT` (log 11). -/
def execRequest (timeoutMs : Word) (s : State) : Host.Outcome State Fault Refusal :=
  .next ((s.command (cmdReqIssue timeoutMs)).push [.pseudo .wait, issue .reqCollect])

/-- `SLEEP t`: the host lets `t` TICKs pass (log 10). -/
def execSleep (ticks : Nat) (s : State) : Host.Outcome State Fault Refusal :=
  .next { s with host := { s.host with block := .ticks ticks } }

/-! ## Reading the last response -/

/-- The status and the results of the last response (R74). -/
def State.lastResponse (s : State) : Byte × List Byte :=
  match s.rsp with
  | (status :: results) :: _ => (status, results)
  | _ => (0xFF, [])

/-- Go on with the parsed results of the last response, or end the sequence with its status (R241, R266). -/
def State.withResult {α : Type} (parse : List Byte → Option α) (s : State) (k : α → State) : State :=
  let (status, results) := s.lastResponse
  if status = Status.ok.code then
    match parse results with
    | some x => k x
    | none => s.abort (.commandError status)
  else s.abort (.commandError status)

/-- One `var` field. -/
def parseVar (p : List Byte) : Option (List Byte) := (readVar p).map (·.1)

/-- Results that are `n` bytes and nothing else. -/
def parseFixed (n : Nat) (p : List Byte) : Option (Bytes n) := if h : p.length = n then some ⟨p, h⟩ else none

/-- `count` times a `var` field. -/
def readVars : Nat → List Byte → Option (List (List Byte))
  | 0, _ => some []
  | n + 1, p => do
    let (b, p) ← readVar p
    let bs ← readVars n p
    return b :: bs

/-- FRAG's results (R73). -/
def parseFrames (p : List Byte) : Option (List (List Byte)) := do
  let (n, p) ← readU16 p
  readVars n p

/-- REQ_COLLECT's results (R73): `remain`, `type`, `subtype` and `payload`; `fc` and `seq` are not examined. -/
def parseCollect (p : List Byte) : Option (Nat × Byte × Byte × List Byte) := do
  let (remain, p) ← readU32 p
  let (type, p) ← readU8 p
  let (subtype, p) ← readU8 p
  let (_, p) ← readU8 p
  let (_, p) ← readU8 p
  let (payload, _) ← readVar p
  return (remain.toNat, type, subtype, payload)

/-! ## The sequences -/

/-- The handshake after the public key is there (R243 to R246): the announcement, the request armed BEFORE the block
is fragmented and written (R245), the wait. -/
def handshake (dhP pub : Bytes Config.dhBytes) : List HostAction :=
  [issue (.frameTx 1 0 0 lengthAnnouncement), .resume .sendFrame, .resume (.nego .lengthSent),
   issue (.reqIssue (BitVec.ofNat 32 Config.handshakeMs)), .resume .expectOk,
   issue (.frag (paramBlock dhP pub)), .resume .sendFrames, .resume (.nego .paramsSent),
   .resume (.nego .awaitingPeerKey), .pseudo .wait, issue .reqCollect, .resume (.peerKey dhP)]

/-- The actions a use-case begins with, on the connection to the device `peerId` (R265). -/
def UseCase.actions (peerId : List Byte) : UseCase → List HostAction
  | .init => [.transport .openAdapter]
  | .scan filter durationMs => [.transport (.discover filter durationMs), .resume .discovered]
  | .connect id timeoutMs notify _ settleMs =>
    [.transport (.connect id timeoutMs), issue .sessionInit, .resume (.sessionInit id notify settleMs)]
  | .negotiate dhP priv => [issue (.modpow [0x02] priv.val dhP.val), .resume (.publicKey dhP)]
  | .configureWifi ssid password settleMs =>
    [issue (.frameTxEnc 1 2 0 ssid), .resume .sendFrame, .pseudo (.sleep settleMs),
     issue (.frameTxEnc 1 3 0 password), .resume .sendFrame, .pseudo (.sleep settleMs),
     issue (.frameTx 0 3 0 []), .resume .sendFrame, .resume (.poll .status Config.configureMs)]
  | .listWifi timeoutMs => [issue (.frameTx 0 9 0 []), .resume .sendFrame, .resume (.poll .scan timeoutMs)]
  | .disconnect =>
    [.transport (.disconnect peerId), issue .sessionEnd, .resume .expectOk, .resume (.report .disconnected)]

/-- A use-case begins. `connect` opens a connection that has had no negotiator (log 18) and says where `SEND` writes
(log 25); `negotiate` creates a negotiator and draws its private key (R241, R242), also where the connection has had one that
is Established or Failed (log 18). -/
def startUseCase (u : UseCase) (s : State) : State :=
  let s := s.push (u.actions s.host.peer.id)
  match u with
  | .connect id _ _ write _ => (s.setNego none).setPeer { id, write }
  | .negotiate _ priv => (s.setNego (some .idle)).hold { HandshakeKeys.dropped with privateKey := some priv }
  | _ => s

/-- What a polling loop reports when its window has elapsed (R255, R257). -/
def PollGoal.elapsed : PollGoal → Report
  | .status => .wifiConfigured false
  | .scan => .wifiList []

/-- What a collected frame is to a polling loop: its result, or none where it does not qualify (R255, R257). -/
def PollGoal.result (goal : PollGoal) (type subtype : Byte) (payload : List Byte) : Option Report :=
  match goal with
  | .status => if type = 1 ∧ subtype = 0x0F ∧ statusSuccess payload then some (.wifiConfigured true) else none
  | .scan => if type = 1 ∧ subtype = 0x11 then some (.wifiList (wifiList payload)) else none

/-- The head of a polling loop with `left` ticks of its window left (R255). -/
def pollStep (goal : PollGoal) (left : Nat) (s : State) : State :=
  if left = 0 then s.report goal.elapsed
  else
    let t := min Config.pollMs left
    s.push [.pseudo (.request (BitVec.ofNat 32 t)), .resume (.polled goal left t)]

/-- The host goes on after a response (log 12). -/
def resume (k : Kont) (s : State) : State :=
  match k with
  | .expectOk => s.withResult some fun _ => s
  | .sendFrame => s.withResult parseVar fun f => s.push [.pseudo (.send f)]
  | .sendFrames => s.withResult parseFrames fun fs => s.push (fs.map fun f => .pseudo (.send f))
  | .nego state => s.setNego (some state)
  | .publicKey dhP =>
    s.withResult (parseFixed Config.dhBytes) fun pub =>
      ((s.setNego (some .keysGenerated)).hold { s.host.keys with publicKey := some pub }).push (handshake dhP pub)
  | .peerKey dhP =>
    if s.lastResponse.1 = Status.errTimeout.code then s.abort .protocolTimeout
    else
      s.withResult parseCollect fun (_, _, _, peer) =>
        match parseFixed Config.dhBytes peer with
        | some peer =>
          let priv := (s.host.keys.privateKey.map (·.val)).getD []
          (s.hold { s.host.keys with peerPublicKey := some peer }).push
            [issue (.modpow peer.val priv dhP.val), .resume .sharedSecret]
        | none => s.abort .handshakeError
  | .sharedSecret =>
    s.withResult (parseFixed Config.dhBytes) fun ss =>
      (s.hold { s.host.keys with sharedSecret := some ss }).push [issue (.md5 ss.val), .resume .sessionKey]
  | .sessionKey =>
    s.withResult (parseFixed Config.keyBytes) fun key =>
      (s.hold { s.host.keys with sessionKey := some key }).push
        [issue (.aesSetkey key.val), .resume .expectOk, .resume (.nego .established), .resume (.report .established)]
  | .discovered => s.report (.scanned s.host.devices)
  | .sessionInit id notify settleMs =>
    if s.lastResponse.1 = Status.errBusy.code then
      s.push [.pseudo .wait, issue .reqCollect, issue .sessionInit, .resume (.sessionInit id notify settleMs)]
    else
      s.withResult some fun _ =>
        s.push
          [.transport (.subscribeNotifications id notify.serviceId notify.charId), .pseudo (.sleep settleMs),
           .resume (.report .connected)]
  | .poll goal left => pollStep goal left s
  | .polled goal left t =>
    if s.lastResponse.1 = Status.errTimeout.code then pollStep goal (left - t) s
    else
      s.withResult parseCollect fun (remain, type, subtype, payload) =>
        match goal.result type subtype payload with
        | some r => s.report r
        | none => pollStep goal (left - (t - remain)) s
  | .report r => (s.report r).hold HandshakeKeys.dropped

end Sys2Proof.Machine
end

