-- ==== Sys2Proof/Machine/Md5.lean ====
section
/-! DEFINITION. The MD5 digest unit (40_md5.md). Its registers live inside one command (10_state.md R21 to R23,
log 3). -/

namespace Sys2Proof.Machine

/-- The working registers `A, B, C, D`, and in the same form the chaining value `H[0..3]` (R21, R22). -/
structure Md5Regs where
  a : Word
  b : Word
  c : Word
  d : Word
  deriving DecidableEq, Repr

/-- The additive constants `T[0..63]` (R102). -/
def md5T : List Word :=
  [0xd76aa478, 0xe8c7b756, 0x242070db, 0xc1bdceee, 0xf57c0faf, 0x4787c62a, 0xa8304613, 0xfd469501,
   0x698098d8, 0x8b44f7af, 0xffff5bb1, 0x895cd7be, 0x6b901122, 0xfd987193, 0xa679438e, 0x49b40821] ++
  [0xf61e2562, 0xc040b340, 0x265e5a51, 0xe9b6c7aa, 0xd62f105d, 0x02441453, 0xd8a1e681, 0xe7d3fbc8,
   0x21e1cde6, 0xc33707d6, 0xf4d50d87, 0x455a14ed, 0xa9e3e905, 0xfcefa3f8, 0x676f02d9, 0x8d2a4c8a] ++
  [0xfffa3942, 0x8771f681, 0x6d9d6122, 0xfde5380c, 0xa4beea44, 0x4bdecfa9, 0xf6bb4b60, 0xbebfbc70,
   0x289b7ec6, 0xeaa127fa, 0xd4ef3085, 0x04881d05, 0xd9d4d039, 0xe6db99e5, 0x1fa27cf8, 0xc4ac5665] ++
  [0xf4292244, 0x432aff97, 0xab9423a7, 0xfc93a039, 0x655b59c3, 0x8f0ccc92, 0xffeff47d, 0x85845dd1,
   0x6fa87e4f, 0xfe2ce6e0, 0xa3014314, 0x4e0811a1, 0xf7537e82, 0xbd3af235, 0x2ad7d2bb, 0xeb86d391]

/-- The rotation amount `s[i]` (R103). -/
def md5Shift (i : Nat) : Nat :=
  match i / 16 with
  | 0 => [7, 12, 17, 22].getD (i % 4) 0
  | 1 => [5, 9, 14, 20].getD (i % 4) 0
  | 2 => [4, 11, 16, 23].getD (i % 4) 0
  | _ => [6, 10, 15, 21].getD (i % 4) 0

/-- The message-word index `g[i]` (R103). -/
def md5Index (i : Nat) : Nat :=
  match i / 16 with
  | 0 => i
  | 1 => (5 * i + 1) % 16
  | 2 => (3 * i + 5) % 16
  | _ => (7 * i) % 16

/-- The auxiliary functions F, G, H, I by step index (R103). -/
def md5Aux (i : Nat) (b c d : Word) : Word :=
  match i / 16 with
  | 0 => (b &&& c) ||| (~~~b &&& d)
  | 1 => (b &&& d) ||| (c &&& ~~~d)
  | 2 => b ^^^ c ^^^ d
  | _ => c ^^^ (b ||| ~~~d)

/-- One step; the four writes are simultaneous (R106). -/
def md5Step (x : List Word) (r : Md5Regs) (i : Nat) : Md5Regs :=
  let tmp := r.a + md5Aux i r.b r.c r.d + x.getD (md5Index i) 0 + md5T.getD i 0
  { a := r.d, b := r.b + tmp.rotateLeft (md5Shift i), c := r.b, d := r.c }

/-- A block as little-endian words `X[0..15]` (R105). -/
def md5Words : List Byte → List Word
  | b0 :: b1 :: b2 :: b3 :: rest => fromLe32 b0 b1 b2 b3 :: md5Words rest
  | _ => []

/-- Compression of one block, with the feed-forward (R107). -/
def md5Compress (h : Md5Regs) (block : List Byte) : Md5Regs :=
  let r := (List.range 64).foldl (md5Step (md5Words block)) h
  { a := h.a + r.a, b := h.b + r.b, c := h.c + r.c, d := h.d + r.d }

/-- The initial chaining value (R104). -/
def md5Init : Md5Regs := { a := 0x67452301, b := 0xEFCDAB89, c := 0x98BADCFE, d := 0x10325476 }

/-- `le64(v mod 2^64)`. -/
def le64 (v : Nat) : List Byte := (i2osp v 8).reverse

/-- Padding (R101): `z = (55 - n) mod 64` zero bytes, then the length in bits. -/
def md5Pad (msg : List Byte) : List Byte :=
  msg ++ 0x80 :: List.replicate ((55 + 63 * msg.length) % 64) 0 ++ le64 (8 * msg.length)

/-- The digest (R100, R108). -/
def md5 (msg : List Byte) : List Byte :=
  let h := (blocksOf 64 (md5Pad msg)).foldl md5Compress md5Init
  le32 h.a ++ le32 h.b ++ le32 h.c ++ le32 h.d

/-- `MD5` (R109). -/
def cmdMd5 (msg : List Byte) (e : Engine) : Engine × List Byte := complete (md5 msg) e

def execMd5 (msg : List Byte) (s : State) : Host.Outcome State Fault Refusal := .next (s.command (cmdMd5 msg))

end Sys2Proof.Machine
end

