-- ==== Sys2Proof/Machine/ModPow.lean ====
section
/-! DEFINITION. The modular exponentiation unit (43_modexp.md). -/

namespace Sys2Proof.Machine

/-- R152's loop with the registers `ACC` and `SQ`; `fuel` bounds the bits of the exponent that are left. -/
def modpowLoop (m : Nat) : Nat → Nat → Nat → Nat → Nat
  | 0, acc, _, _ => acc
  | fuel + 1, acc, sq, exp =>
    if exp = 0 then acc
    else modpowLoop m fuel (if exp % 2 = 1 then acc * sq % m else acc) (sq * sq % m) (exp / 2)

/-- `modpow(b, e, m)` for `m ≥ 1` (R150, computed as R152 does). -/
def modpow (b e m : Nat) : Nat := modpowLoop m (Nat.log2 e + 1) (1 % m) (b % m) e

/-- `MODPOW` (R155). -/
def cmdModpow (base exp mod : List Byte) (e : Engine) : Engine × List Byte :=
  if Config.mpBytes < base.length ∨ Config.mpBytes < exp.length ∨ Config.mpBytes < mod.length then raise .errOperand e
  else if os2ip mod = 0 then raise .errOperand e
  else complete (i2osp (modpow (os2ip base) (os2ip exp) (os2ip mod)) Config.mpBytes) e

def execModpow (base exp mod : List Byte) (s : State) : Host.Outcome State Fault Refusal :=
  .next (s.command (cmdModpow base exp mod))

end Sys2Proof.Machine
end

