-- ==== Sys2Proof/Machine/Session.lean ====
section
/-! DEFINITION. Session control and status (47_session_control.md), and the reserved opcodes (30_encoding.md R75). -/

namespace Sys2Proof.Machine

/-- `SESSION_INIT` (R231). -/
def cmdSessionInit (e : Engine) : Engine × List Byte :=
  if e.corr = .idle then
    complete [] { e with seq := 0, aesRk := none, ra := none, parseErr := false, unsolicited := false }
  else raise .errBusy e

/-- `SESSION_END` (R232). -/
def cmdSessionEnd (e : Engine) : Engine × List Byte := complete [] { e with aesRk := none }

/-- `GET_STATUS` (R234). -/
def cmdGetStatus (e : Engine) : Engine × List Byte :=
  complete (e.statusByte :: e.seq :: e.corrCode :: le32 e.corrRemain) e

/-- `CLR_FLAGS` (R235). -/
def cmdClrFlags (mask : Byte) (e : Engine) : Engine × List Byte :=
  complete []
    { e with parseErr := e.parseErr && !mask.getLsbD 2, unsolicited := e.unsolicited && !mask.getLsbD 3 }

def execSessionInit (s : State) : Host.Outcome State Fault Refusal := .next (s.command cmdSessionInit)

def execSessionEnd (s : State) : Host.Outcome State Fault Refusal := .next (s.command cmdSessionEnd)

def execGetStatus (s : State) : Host.Outcome State Fault Refusal := .next (s.command cmdGetStatus)

def execClrFlags (mask : Byte) (s : State) : Host.Outcome State Fault Refusal := .next (s.command (cmdClrFlags mask))

/-- A reserved opcode or the empty descriptor (R75): ERR_OPCODE; the operands are not looked at. -/
def execReserved (_descriptor : List Byte) (s : State) : Host.Outcome State Fault Refusal :=
  .next (s.command (raise .errOpcode))

end Sys2Proof.Machine
end

