-- ==== Sys2Proof/Machine/Dispatch.lean ====
section
/-! DEFINITION. One arm per instruction (spec/opcode_table.json), each one call of its meaning. -/

namespace Sys2Proof.Machine

def exec (i : Instr) (s : State) : Host.Outcome State Fault Refusal :=
  match i with
  | .md5 msg => Sys2Proof.Machine.execMd5 msg s
  | .aesSetkey key => Sys2Proof.Machine.execAesSetkey key s
  | .aesEncblk block => Sys2Proof.Machine.execAesEncblk block s
  | .cfbEnc iv data => Sys2Proof.Machine.execCfbEnc iv data s
  | .modpow base exp mod => Sys2Proof.Machine.execModpow base exp mod s
  | .frameEnc type subtype fc seq payload => Sys2Proof.Machine.execFrameEnc type subtype fc seq payload s
  | .frameDec buf => Sys2Proof.Machine.execFrameDec buf s
  | .frameTx type subtype fc payload => Sys2Proof.Machine.execFrameTx type subtype fc payload s
  | .frameTxEnc type subtype fc payload => Sys2Proof.Machine.execFrameTxEnc type subtype fc payload s
  | .frag data => Sys2Proof.Machine.execFrag data s
  | .reasmPush fc payload => Sys2Proof.Machine.execReasmPush fc payload s
  | .reasmReset => Sys2Proof.Machine.execReasmReset s
  | .reqIssue timeoutMs => Sys2Proof.Machine.execReqIssue timeoutMs s
  | .reqCollect => Sys2Proof.Machine.execReqCollect s
  | .getStatus => Sys2Proof.Machine.execGetStatus s
  | .sessionInit => Sys2Proof.Machine.execSessionInit s
  | .sessionEnd => Sys2Proof.Machine.execSessionEnd s
  | .clrFlags mask => Sys2Proof.Machine.execClrFlags mask s
  | .reserved descriptor => Sys2Proof.Machine.execReserved descriptor s
  | .rxNotify bytes => Sys2Proof.Machine.execRxNotify bytes s
  | .tick => Sys2Proof.Machine.execTick s
  | .frameDataNeg fc seq payload => Sys2Proof.Machine.execFrameDataNeg fc seq payload s
  | .frameDataSsid fc seq payload => Sys2Proof.Machine.execFrameDataSsid fc seq payload s
  | .frameDataPassword fc seq payload => Sys2Proof.Machine.execFrameDataPassword fc seq payload s
  | .frameDataStatus fc seq payload => Sys2Proof.Machine.execFrameDataStatus fc seq payload s
  | .frameDataWifilist fc seq payload => Sys2Proof.Machine.execFrameDataWifilist fc seq payload s
  | .frameCtrlApply fc seq payload => Sys2Proof.Machine.execFrameCtrlApply fc seq payload s
  | .frameCtrlScan fc seq payload => Sys2Proof.Machine.execFrameCtrlScan fc seq payload s
  | .frameGeneric type subtype fc seq payload => Sys2Proof.Machine.execFrameGeneric type subtype fc seq payload s
  | .frameEnc4 type subtype seq payload => Sys2Proof.Machine.execFrameEnc4 type subtype seq payload s
  | .send frame => Sys2Proof.Machine.execSend frame s
  | .wait => Sys2Proof.Machine.execWait s
  | .request timeoutMs => Sys2Proof.Machine.execRequest timeoutMs s
  | .sleep ticks => Sys2Proof.Machine.execSleep ticks s

end Sys2Proof.Machine
end

