-- ==== Sys2Proof/Machine/Fetch.lean ====
section
/-! DEFINITION. What moves next (20_memory.md R58): the next turn, and on the host's turn its next action. -/

namespace Sys2Proof.Machine

/-- What the next move is. -/
inductive Fetched where
  /-- A transaction to decode and run in the given state. -/
  | run (t : Transaction) (s : State)
  /-- A move that is no instruction (reset, a change of the Transport, a Transport call, a computation of the host, a
  host that waits, or nobody's turn), and the state after it. -/
  | move (s : State)
  deriving DecidableEq, Repr

/-- The host can take an action (R90 `WAIT`, `SLEEP`). -/
def State.hostReady (s : State) : Bool :=
  match s.host.block with
  | .ready => true
  | .untilIrq => s.engine.irqCorr
  | .ticks left => left == 0

/-- The host's next action, of the sequence it is in or else of its program, and the host without it. -/
def HostSide.next (h : HostSide) : Option (HostAction × HostSide) :=
  match h.running with
  | a :: rest => some (a, { h with running := rest, block := .ready })
  | [] =>
    match h.program with
    | a :: rest => some (a, { h with program := rest, block := .ready })
    | [] => none

/-- The host's turn. -/
def fetchHost (s : State) : Fetched :=
  if s.hostReady then
    match s.host.next with
    | none => .move s
    | some (.cmd d, h) => .run (.cmd d) { s with host := h }
    | some (.pseudo p, h) => .run (.pseudo p) { s with host := h }
    | some (.transport c, h) => .move (State.callTransport c { s with host := h })
    | some (.start u, h) => .move (startUseCase u { s with host := h })
    | some (.resume k, h) => .move (resume k { s with host := h })
  else .move s

/-- The next move. With no turn to come nobody moves (R302; log 5). -/
def fetch (s : State) : Fetched :=
  match s.turns with
  | [] => .move s
  | .host :: rest => fetchHost { s with turns := rest }
  | .rx b :: rest => .run (.rx b) { s with turns := rest }
  | .tick :: rest => .run .tick { s with turns := rest }
  | .reset :: rest => .move (resetStep { s with turns := rest })
  | .link up :: rest => .move { s with turns := rest, linkUp := up }
  | .inRange devices :: rest => .move { s with turns := rest, inRange := devices }

/-- The state whose next move is the host's action `a`: it stands first, and the host waits for nothing. -/
def State.withAction (a : HostAction) (s : State) : State :=
  { s with
    turns := .host :: s.turns
    host := { s.host with running := a :: s.host.running, block := .ready } }

/-- The state whose next move is the given transaction. -/
def State.withTransaction (t : Transaction) (s : State) : State :=
  match t with
  | .cmd d => s.withAction (.cmd d)
  | .pseudo p => s.withAction (.pseudo p)
  | .rx b => { s with turns := .rx b :: s.turns }
  | .tick => { s with turns := .tick :: s.turns }

end Sys2Proof.Machine
end

