-- ==== Sys2Proof/Machine/Step.lean ====
section
/-! DEFINITION. One step of the machine: the next move (20_memory.md R58), an instruction decoded and run where the
move is one. -/

namespace Sys2Proof.Machine

/-- One step. -/
def step (s : State) : Host.Outcome State Fault Refusal :=
  match fetch s with
  | .move s' => .next s'
  | .run t s' =>
    match decode t with
    | .ok i => exec i s'
    | .error .badDescriptor => .next (rejectDescriptor s')

/-- The instruction of a word of the opcode table, placed as the next move (log 9). -/
def State.withFetchWord (s : State) (nbits w : Nat) : State := s.withTransaction (tableTransaction nbits w)

end Sys2Proof.Machine
end

