-- ==== Sys2Proof/Safety.lean ====
section
/-! DEFINITION. The terms the claims are stated in: a sound engine (10_state.md R37), a command that answers, an event
that moves the engine, the instruction a step runs, a run of instructions. -/

namespace Sys2Proof.Machine

/-- The slot's part of R37 and R28: an awaiting slot has ticks left (I2), a latched frame is one that R165 admits. I1, I3
and I5 hold by the form of `Corr`. -/
def Corr.Sound : Corr → Prop
  | .idle => True
  | .awaiting remain => remain ≠ 0
  | .resolved _ f => f.payload.length ≤ Config.payloadMax
  | .timedOut => True

/-- The reassembler's part of R37 (I4). -/
def Reasm.Sound (r : Reasm) : Prop := r.buf.length ≤ r.total.toNat

/-- The invariant of the persistent state: R26's schedule length, I2 and I4 of R37, R28's frame. -/
structure Engine.Sound (e : Engine) : Prop where
  schedule : ∀ rk, e.aesRk = some rk → rk.length = 176
  reasm : ∀ r, e.ra = some r → r.Sound
  corr : e.corr.Sound

/-- The invariant of the machine. -/
def State.Sound (s : State) : Prop := s.engine.Sound

/-- The instruction runs to a next state in which the engine is `e`, one more response `r` stands on `rsp`, and
nothing else has changed: how a command completes (R56, R74). -/
def Answers (i : Instr) (s : State) (e : Engine) (r : List Byte) : Prop :=
  exec i s = .next { s with engine := e, rsp := r :: s.rsp }

/-- The instruction runs to a next state in which the engine is `e`, there is no response, and nothing else has
changed: how an event completes (R279). -/
def Moves (i : Instr) (s : State) (e : Engine) : Prop := exec i s = .next { s with engine := e }

/-- The next step runs instruction `i`. -/
def State.Runs (s : State) (i : Instr) : Prop := ∃ t s', fetch s = .run t s' ∧ decode t = .ok i

/-- The next step is a reset (R300). -/
def State.Resets (s : State) : Prop := s.turns.head? = some .reset

/-- The instructions one after the other; none if one of them does not answer a next state. -/
def runAll : List Instr → State → Option State
  | [], s => some s
  | i :: is, s =>
    match exec i s with
    | .next s' => runAll is s'
    | .fault _ => none
    | .refused _ => none

/-- The frames that a response of FRAME_TX, FRAME_TX_ENC or FRAG carries (R73); none for any other. -/
def framesOf (i : Instr) (rsp : List Byte) : List (List Byte) :=
  match rsp with
  | 0x00#8 :: results =>
    match i with
    | .frameTx _ _ _ _ => (parseVar results).toList
    | .frameTxEnc _ _ _ _ => (parseVar results).toList
    | .frag _ => (parseFrames results).getD []
    | .md5 _ => []
    | .aesSetkey _ => []
    | .aesEncblk _ => []
    | .cfbEnc _ _ => []
    | .modpow _ _ _ => []
    | .frameEnc _ _ _ _ _ => []
    | .frameDec _ => []
    | .reasmPush _ _ => []
    | .reasmReset => []
    | .reqIssue _ => []
    | .reqCollect => []
    | .getStatus => []
    | .sessionInit => []
    | .sessionEnd => []
    | .clrFlags _ => []
    | .reserved _ => []
    | .rxNotify _ => []
    | .tick => []
    | .frameDataNeg _ _ _ => []
    | .frameDataSsid _ _ _ => []
    | .frameDataPassword _ _ _ => []
    | .frameDataStatus _ _ _ => []
    | .frameDataWifilist _ _ _ => []
    | .frameCtrlApply _ _ _ => []
    | .frameCtrlScan _ _ _ => []
    | .frameGeneric _ _ _ _ _ => []
    | .frameEnc4 _ _ _ _ => []
    | .send _ => []
    | .wait => []
    | .request _ => []
    | .sleep _ => []
  | _ => []

/-- The frames that a run of instructions builds, in order (R60). -/
def framesBuilt : List Instr → State → List (List Byte)
  | [], _ => []
  | i :: is, s =>
    match exec i s with
    | .next s' => framesOf i (s'.rsp.headD []) ++ framesBuilt is s'
    | .fault _ => []
    | .refused _ => []

/-- FRAME_TX, FRAME_TX_ENC or FRAG: the commands that take sequence numbers (R25). -/
def takesSeq : Instr → Bool
  | .frameTx _ _ _ _ => true
  | .frameTxEnc _ _ _ _ => true
  | .frag _ => true
  | .md5 _ => false
  | .aesSetkey _ => false
  | .aesEncblk _ => false
  | .cfbEnc _ _ => false
  | .modpow _ _ _ => false
  | .frameEnc _ _ _ _ _ => false
  | .frameDec _ => false
  | .reasmPush _ _ => false
  | .reasmReset => false
  | .reqIssue _ => false
  | .reqCollect => false
  | .getStatus => false
  | .sessionInit => false
  | .sessionEnd => false
  | .clrFlags _ => false
  | .reserved _ => false
  | .rxNotify _ => false
  | .tick => false
  | .frameDataNeg _ _ _ => false
  | .frameDataSsid _ _ _ => false
  | .frameDataPassword _ _ _ => false
  | .frameDataStatus _ _ _ => false
  | .frameDataWifilist _ _ _ => false
  | .frameCtrlApply _ _ _ => false
  | .frameCtrlScan _ _ _ => false
  | .frameGeneric _ _ _ _ _ => false
  | .frameEnc4 _ _ _ _ => false
  | .send _ => false
  | .wait => false
  | .request _ => false
  | .sleep _ => false

/-- A notification: RX_NOTIFY or one of the frame rows (log 8). -/
def notifies : Instr → Bool
  | .rxNotify _ => true
  | .frameDataNeg _ _ _ => true
  | .frameDataSsid _ _ _ => true
  | .frameDataPassword _ _ _ => true
  | .frameDataStatus _ _ _ => true
  | .frameDataWifilist _ _ _ => true
  | .frameCtrlApply _ _ _ => true
  | .frameCtrlScan _ _ _ => true
  | .frameGeneric _ _ _ _ _ => true
  | .md5 _ => false
  | .aesSetkey _ => false
  | .aesEncblk _ => false
  | .cfbEnc _ _ => false
  | .modpow _ _ _ => false
  | .frameEnc _ _ _ _ _ => false
  | .frameDec _ => false
  | .frameTx _ _ _ _ => false
  | .frameTxEnc _ _ _ _ => false
  | .frag _ => false
  | .reasmPush _ _ => false
  | .reasmReset => false
  | .reqIssue _ => false
  | .reqCollect => false
  | .getStatus => false
  | .sessionInit => false
  | .sessionEnd => false
  | .clrFlags _ => false
  | .reserved _ => false
  | .tick => false
  | .frameEnc4 _ _ _ _ => false
  | .send _ => false
  | .wait => false
  | .request _ => false
  | .sleep _ => false

/-- The statuses besides OK that a command can answer (R272); a descriptor that is no instruction answers ERR_DESC
in `step`. -/
def statusMatrix : Instr → List Status
  | .md5 _ => []
  | .aesSetkey _ => [.errKeyset]
  | .aesEncblk _ => [.errNokey]
  | .cfbEnc _ _ => [.errNokey]
  | .modpow _ _ _ => [.errOperand]
  | .frameEnc _ _ _ _ _ => [.errOperand, .errLen]
  | .frameDec _ => [.errParse]
  | .frameTx _ _ _ _ => [.errOperand, .errLen]
  | .frameTxEnc _ _ _ _ => [.errOperand, .errLen, .errNokey]
  | .frag _ => []
  | .reasmPush _ _ => [.errLen, .errFrag]
  | .reasmReset => []
  | .reqIssue _ => [.errBusy]
  | .reqCollect => [.errNoreq, .errPending, .errTimeout]
  | .getStatus => []
  | .sessionInit => [.errBusy]
  | .sessionEnd => []
  | .clrFlags _ => []
  | .reserved _ => [.errOpcode]
  | .frameEnc4 _ _ _ _ => [.errOperand, .errLen]
  | .request _ => [.errBusy]
  | .rxNotify _ => []
  | .tick => []
  | .frameDataNeg _ _ _ => []
  | .frameDataSsid _ _ _ => []
  | .frameDataPassword _ _ _ => []
  | .frameDataStatus _ _ _ => []
  | .frameDataWifilist _ _ _ => []
  | .frameCtrlApply _ _ _ => []
  | .frameCtrlScan _ _ _ => []
  | .frameGeneric _ _ _ _ _ => []
  | .send _ => []
  | .wait => []
  | .sleep _ => []

/-- One WiFi-list entry as the device reports it (R87). -/
def wifiEntryBytes (rssi : Byte) (ssid : List Byte) : List Byte :=
  BitVec.ofNat 8 (ssid.length + 1) :: rssi :: ssid

end Sys2Proof.Machine
end

