-- ==== Sys2Proof/Certificates/Slice0/Obligations.lean ====
section
/-! DEFINITION. The statements for the provers. Each docstring names the rule of spec/ that it formalises. Clauses
that rest on the model's own choices name the log entry. -/

open Sys2Proof Sys2Proof.Machine

/-! ## The step, the decoder and the encoder -/

/-- R58, R72: the next move of the host, the Transport or the Timer runs the instruction that its transaction decodes
to, in the state without that move. The lists of turns and actions are the model's form (log 4, log 12). -/
def Obligations.StepRunsDecodedInstruction : Prop :=
  ∀ (s : State) (rest : List Turn) (more : List HostAction) (d : List Byte) (p : Pseudo) (b : List Byte) (i : Instr),
    (s.turns = .host :: rest → s.hostReady = true → s.host.running = .cmd d :: more → decodeCmd d = .ok i →
      step s = exec i { s with turns := rest, host := { s.host with running := more, block := .ready } }) ∧
    (s.turns = .host :: rest → s.hostReady = true → s.host.running = [] → s.host.program = .cmd d :: more →
      decodeCmd d = .ok i →
      step s = exec i { s with turns := rest, host := { s.host with program := more, block := .ready } }) ∧
    (s.turns = .host :: rest → s.hostReady = true → s.host.running = .pseudo p :: more →
      step s = exec (decodePseudo p)
        { s with turns := rest, host := { s.host with running := more, block := .ready } }) ∧
    (s.turns = .host :: rest → s.hostReady = true → s.host.running = [] → s.host.program = .pseudo p :: more →
      step s = exec (decodePseudo p)
        { s with turns := rest, host := { s.host with program := more, block := .ready } }) ∧
    (s.turns = .rx b :: rest → step s = exec (decodeRx b) { s with turns := rest }) ∧
    (s.turns = .tick :: rest → step s = exec .tick { s with turns := rest })

/-- R72, R73, R75: descriptors written out from the spec's examples decode to what they stand for. The last clause names
the row of a notification that is a frame: R168 and R82 give its frame and the catalog's row, that the decoder answers
that row is the model's choice (log 8). -/
def Obligations.WordsDecodeAsWritten : Prop :=
  decodeCmd [0x01, 0x03, 0x00, 0x61, 0x62, 0x63] = .ok (.md5 [0x61, 0x62, 0x63]) ∧
  decodeCmd [0x05, 0x01, 0x00, 0x04, 0x01, 0x00, 0x0d, 0x02, 0x00, 0x01, 0xf1]
    = .ok (.modpow [0x04] [0x0d] [0x01, 0xf1]) ∧
  decodeCmd [0x06, 0x01, 0x11, 0x10, 0xff, 0x03, 0x00, 0x01, 0x02, 0x03]
    = .ok (.frameEnc 1 0x11 0x10 0xff [0x01, 0x02, 0x03]) ∧
  decodeCmd [0x0d, 0x10, 0x27, 0x00, 0x00] = .ok (.reqIssue 10000) ∧
  decodeCmd [0x12, 0x04] = .ok (.clrFlags 0x04) ∧
  decodeCmd [0x13] = .ok (.reserved [0x13]) ∧
  decodeCmd [0x01, 0x04, 0x00, 0x61, 0x62, 0x63] = .error .badDescriptor ∧
  decodeRx [0x3d, 0x00, 0x07, 0x02, 0x00, 0x00] = .frameDataStatus 0x00 0x07 [0x00, 0x00]

/-- Decode and encode agree: every well-formed instruction of every row, named as the decoder names it (log 8), is
read back from its own transaction, with every operand at every value (R70 to R73, R77, R78, R90). -/
def Obligations.DecodeInvertsEncode : Prop :=
  ∀ i : Instr, wellFormed i = true → canonical i = true → decode (encode i) = .ok i

/-- The other direction: a descriptor that decodes is the encoding of what it decodes to, so that no byte of a
descriptor is ignored and each descriptor has one reading (R71, R72). -/
def Obligations.DescriptorHasOneReading : Prop :=
  ∀ (d : List Byte) (i : Instr), decodeCmd d = .ok i → encodeCmd i = d ∧ wellFormed i = true

/-- R72: what the engine does with a descriptor that the host issues, from the sequence it is in or from its program
(log 12). -/
def Obligations.DescriptorIsDecodedOrRefused : Prop :=
  ∀ (s s₁ : State) (rest : List Turn) (more : List HostAction) (d : List Byte),
    s.turns = .host :: rest → s.hostReady = true →
    (s.host.running = .cmd d :: more ∧
        s₁ = { s with turns := rest, host := { s.host with running := more, block := .ready } }) ∨
      (s.host.running = [] ∧ s.host.program = .cmd d :: more ∧
        s₁ = { s with turns := rest, host := { s.host with program := more, block := .ready } }) →
    (d = [] ∨ (∃ op p, d = op :: p ∧ (op.toNat = 0 ∨ 0x12 < op.toNat)) → step s = .next { s₁ with rsp := [0x01] :: s.rsp }) ∧
    (∀ op p, d = op :: p → 0x01 ≤ op.toNat → op.toNat ≤ 0x12 →
      (∀ i, wellFormed i = true → encodeCmd i = d → step s = exec i s₁) ∧
      ((∀ i, wellFormed i = true → encodeCmd i ≠ d) → step s = .next { s₁ with rsp := [0x02] :: s.rsp }))

/-- R75: every reserved opcode, with any operands, and the empty descriptor are refused with ERR_OPCODE and no state
changes. -/
def Obligations.ReservedOpcodesAreRefused : Prop :=
  ∀ (d : List Byte) (s : State), (d = [] ∨ ∃ op p, d = op :: p ∧ (op.toNat = 0 ∨ 0x13 ≤ op.toNat)) →
    decodeCmd d = .ok (.reserved d) ∧ Answers (.reserved d) s s.engine [0x01]

/-! ## MD5 -/

/-- R100, R103 to R108: MD5 answers the digest of any message and changes nothing. The digest is R100's iteration over the
blocks of the padded message; a block's words (R105), the 64 steps (R103, R106) and the feed-forward (R107) are spelled
out, and the digest of `abc` is the source's own. -/
def Obligations.Md5AnswersDigest : Prop :=
  (∀ (msg : List Byte) (s : State),
    let h := (List.range ((msg.length + 8) / 64 + 1)).foldl
      (fun h k => md5Compress h (((md5Pad msg).drop (64 * k)).take 64)) ⟨0x67452301, 0xEFCDAB89, 0x98BADCFE, 0x10325476⟩
    Answers (.md5 msg) s s.engine (0x00 :: (le32 h.a ++ le32 h.b ++ le32 h.c ++ le32 h.d))) ∧
  (∀ block : List Byte, block.length = 64 → (md5Words block).length = 16 ∧ ∀ j, j < 16 →
    (md5Words block).getD j 0 = block.getD (4 * j + 3) 0 ++ block.getD (4 * j + 2) 0 ++ block.getD (4 * j + 1) 0
      ++ block.getD (4 * j) 0) ∧
  (∀ (x : List Word) (a b c d : Word) (i : Nat), i < 64 →
    let f : Word := if i < 16 then (b &&& c) ||| (~~~b &&& d) else if i < 32 then (b &&& d) ||| (c &&& ~~~d)
      else if i < 48 then b ^^^ c ^^^ d else c ^^^ (b ||| ~~~d)
    let g := if i < 16 then i else if i < 32 then (5 * i + 1) % 16 else if i < 48 then (3 * i + 5) % 16 else (7 * i) % 16
    let amounts := if i < 16 then [7, 12, 17, 22] else if i < 32 then [5, 9, 14, 20] else if i < 48 then [4, 11, 16, 23]
      else [6, 10, 15, 21]
    md5Step x ⟨a, b, c, d⟩ i
      = ⟨d, b + (a + f + x.getD g 0 + md5T.getD i 0).rotateLeft (amounts.getD (i % 4) 0), b, c⟩) ∧
  (∀ (a b c d : Word) (block : List Byte),
    let r := (List.range 64).foldl (fun r i => md5Step (md5Words block) r i) ⟨a, b, c, d⟩
    md5Compress ⟨a, b, c, d⟩ block = ⟨a + r.a, b + r.b, c + r.c, d + r.d⟩) ∧
  md5 [0x61, 0x62, 0x63]
    = [0x90, 0x01, 0x50, 0x98, 0x3c, 0xd2, 0x4f, 0xb0, 0xd6, 0x96, 0x3f, 0x7d, 0x28, 0xe1, 0x7f, 0x72]

/-- R101: the padding, with the smallest number of zero bytes, the 64-bit little-endian length in bits, and the
number of blocks. -/
def Obligations.Md5PaddingFillsBlocks : Prop :=
  ∀ msg : List Byte, ∃ z : Nat,
    (msg.length + 1 + z) % 64 = 56 ∧ (∀ z', (msg.length + 1 + z') % 64 = 56 → z ≤ z') ∧
    (z : Int) = (55 - (msg.length : Int)) % 64 ∧
    md5Pad msg = msg ++ [0x80] ++ List.replicate z 0x00
      ++ (List.range 8).map (fun k => BitVec.ofNat 8 (8 * msg.length % 2 ^ 64 / 256 ^ k)) ∧
    (md5Pad msg).length = 64 * ((msg.length + 8) / 64 + 1)

/-! ## AES and CFB -/

/-- R130: AES_SETKEY loads a schedule when there is none, and is refused with ERR_KEYSET, the old one kept, when there
is one. -/
def Obligations.AesSetkeyLoadsOnce : Prop :=
  ∀ (key : List Byte) (s : State),
    (s.engine.aesRk = none →
      Answers (.aesSetkey key) s { s.engine with aesRk := some (aesKeyExpand key) } [0x00]) ∧
    (∀ rk, s.engine.aesRk = some rk → Answers (.aesSetkey key) s s.engine [0x0A])

/-- R124: the schedule has 176 bytes, begins with the key, and every later word follows the recurrence. -/
def Obligations.KeyScheduleFollowsRecurrence : Prop :=
  ∀ key : List Byte, key.length = 16 →
    let w (i k : Nat) : Byte := (aesKeyExpand key).getD (4 * i + k) 0
    (aesKeyExpand key).length = 176 ∧ (aesKeyExpand key).take 16 = key ∧
    ∀ i, 4 ≤ i → i ≤ 43 →
      (i % 4 ≠ 0 → ∀ k, k < 4 → w i k = w (i - 4) k ^^^ w (i - 1) k) ∧
      (i % 4 = 0 →
        w i 0 = w (i - 4) 0 ^^^ (sbox (w (i - 1) 1) ^^^ rcon (i / 4)) ∧ w i 1 = w (i - 4) 1 ^^^ sbox (w (i - 1) 2) ∧
        w i 2 = w (i - 4) 2 ^^^ sbox (w (i - 1) 3) ∧ w i 3 = w (i - 4) 3 ^^^ sbox (w (i - 1) 0))

/-- R131: AES_ENCBLK answers the encrypted block under the loaded schedule, ERR_NOKEY without one; it changes no state. The
cipher is R132's: an initial AddRoundKey, nine rounds, and a last round without MixColumns, with the laws of the four
steps (R126 to R129), of `xtime` (R121) and of the S-box (R122). -/
def Obligations.AesEncblkAnswers : Prop :=
  (∀ (block : List Byte) (s : State),
    (∀ rk, s.engine.aesRk = some rk → Answers (.aesEncblk block) s s.engine (0x00 :: aesEncryptBlock rk block)) ∧
    (s.engine.aesRk = none → Answers (.aesEncblk block) s s.engine [0x09])) ∧
  (∀ rk block : List Byte,
    let addRoundKey (st : List Byte) (r : Nat) := xorBytes st ((rk.drop (16 * r)).take 16)
    aesEncryptBlock rk block =
      addRoundKey (shiftRows (subBytes
        ((List.range' 1 9).foldl (fun st r => addRoundKey (mixColumns (shiftRows (subBytes st))) r)
          (addRoundKey block 0)))) 10) ∧
  (∀ st k : List Byte, st.length = 16 → k.length = 16 →
    (xorBytes st k).length = 16 ∧ (subBytes st).length = 16 ∧ (shiftRows st).length = 16 ∧ (mixColumns st).length = 16 ∧
    ∀ r c, r < 4 → c < 4 →
      let a (q : Nat) : Byte := st.getD (4 * c + q) 0
      (xorBytes st k).getD (4 * c + r) 0 = a r ^^^ k.getD (4 * c + r) 0 ∧
      (subBytes st).getD (4 * c + r) 0 = sbox (a r) ∧
      (shiftRows st).getD (4 * c + r) 0 = st.getD (4 * ((c + r) % 4) + r) 0 ∧
      (mixColumns st).getD (4 * c + r) 0 =
        xtime (a r) ^^^ (xtime (a ((r + 1) % 4)) ^^^ a ((r + 1) % 4)) ^^^ a ((r + 2) % 4) ^^^ a ((r + 3) % 4)) ∧
  (∀ a : Byte, xtime a = if a.getLsbD 7 then (a <<< 1) ^^^ 0x1B else a <<< 1) ∧
  (∀ x : Byte, ∃ y : Byte,
    let product := ((List.range 8).foldl
      (fun (acc : Byte × Byte) k => (if y.getLsbD k then acc.1 ^^^ acc.2 else acc.1, xtime acc.2)) (0, x)).1
    (x = 0 → y = 0) ∧ (x ≠ 0 → product = 1) ∧ ∀ i, i < 8 → (sbox x).getLsbD i =
      (y.getLsbD i ^^ y.getLsbD ((i + 4) % 8) ^^ y.getLsbD ((i + 5) % 8) ^^ y.getLsbD ((i + 6) % 8) ^^
        y.getLsbD ((i + 7) % 8) ^^ (0x63 : Byte).getLsbD i))

/-- R131: under every schedule the cipher is a permutation of the 16-byte blocks. -/
def Obligations.CipherIsAPermutation : Prop :=
  ∀ rk : List Byte, rk.length = 176 →
    (∀ b : List Byte, b.length = 16 → (aesEncryptBlock rk b).length = 16) ∧
    (∀ a b : List Byte, a.length = 16 → b.length = 16 → aesEncryptBlock rk a = aesEncryptBlock rk b → a = b) ∧
    (∀ c : List Byte, c.length = 16 → ∃ b : List Byte, b.length = 16 ∧ aesEncryptBlock rk b = c)

/-- R140, R143: CFB_ENC answers `cfb_encrypt` of the data under the loaded schedule, ERR_NOKEY without a key; no state
changes. `cfb_encrypt` gives as many bytes as it was given, each block of them the data under the encrypted
feedback: the IV for the first block, the ciphertext before it for every other. -/
def Obligations.CfbEncAnswers : Prop :=
  (∀ (iv data : List Byte) (s : State),
    (s.engine.aesRk = none → Answers (.cfbEnc iv data) s s.engine [0x09]) ∧
    (∀ rk, s.engine.aesRk = some rk →
      Answers (.cfbEnc iv data) s s.engine (0x00 :: varField (cfbEncrypt rk data iv)))) ∧
  (∀ rk iv data : List Byte, rk.length = 176 → iv.length = 16 →
    let out := cfbEncrypt rk data iv
    out.length = data.length ∧
    ∀ k j, j < 16 → 16 * k + j < data.length →
      let feedback := if k = 0 then iv else (out.drop (16 * (k - 1))).take 16
      out.getD (16 * k + j) 0 = data.getD (16 * k + j) 0 ^^^ (aesEncryptBlock rk feedback).getD j 0)

/-- R142: a message that ends inside a block has the ciphertext of any longer message, cut at its own length. -/
def Obligations.CfbPartialBlockIsAPrefix : Prop :=
  ∀ (rk data iv : List Byte) (n : Nat), rk.length = 176 → iv.length = 16 →
    (cfbEncrypt rk data iv).length = data.length ∧
    cfbEncrypt rk (data.take n) iv = (cfbEncrypt rk data iv).take n

/-- R140, R141: a message may be encrypted in two calls when the first is a whole number of blocks and the second
takes the first's last 16 ciphertext bytes as its IV. -/
def Obligations.CfbContinuesAtBlockBoundary : Prop :=
  ∀ rk a b iv : List Byte, rk.length = 176 → iv.length = 16 → a ≠ [] → a.length % 16 = 0 →
    cfbEncrypt rk (a ++ b) iv
      = cfbEncrypt rk a iv ++ cfbEncrypt rk b ((cfbEncrypt rk a iv).drop (a.length - 16))

/-! ## Modular exponentiation -/

/-- R150, R151, R155: MODPOW answers the power as 128 big-endian bytes, or ERR_OPERAND; it changes no state. -/
def Obligations.ModpowAnswers : Prop :=
  ∀ (base exp mod : List Byte) (s : State),
    (base.length ≤ 128 → exp.length ≤ 128 → mod.length ≤ 128 → os2ip mod ≠ 0 → ∃ r : List Byte,
      Answers (.modpow base exp mod) s s.engine (0x00 :: r) ∧ r.length = 128 ∧
      os2ip r = os2ip base ^ os2ip exp % os2ip mod) ∧
    (128 < base.length ∨ 128 < exp.length ∨ 128 < mod.length ∨ os2ip mod = 0 →
      Answers (.modpow base exp mod) s s.engine [0x0B])

/-- R156: DH symmetry through the command: each side's power of the other's public value is the same 128 bytes. -/
def Obligations.DhSharedSecretIsSymmetric : Prop :=
  ∀ (g a b m : List Byte) (s : State), g.length ≤ 128 → a.length ≤ 128 → b.length ≤ 128 → m.length ≤ 128 →
    os2ip m ≠ 0 → ∃ pubA pubB secret : List Byte,
      Answers (.modpow g a m) s s.engine (0x00 :: pubA) ∧ Answers (.modpow g b m) s s.engine (0x00 :: pubB) ∧
      Answers (.modpow pubB a m) s s.engine (0x00 :: secret) ∧ Answers (.modpow pubA b m) s s.engine (0x00 :: secret)

/-! ## Frames -/

/-- R78: header byte 0, assembled and taken apart, with the catalog's values. -/
def Obligations.HeaderBytePacksTypeAndSubtype : Prop :=
  (∀ (t : BitVec 2) (st : BitVec 6), (headerByte t st).toNat = 4 * st.toNat + t.toNat) ∧
  (∀ (b0 fc seq : Byte) (rest : List Byte), ∃ f, frameDecode (b0 :: fc :: seq :: 0x00 :: rest) = some f ∧
    f.type.setWidth 8 = b0 &&& 0x03 ∧ f.subtype.setWidth 8 = b0 >>> 2) ∧
  headerByte 1 0x00 = 0x01 ∧ headerByte 1 0x02 = 0x09 ∧ headerByte 1 0x03 = 0x0D ∧ headerByte 1 0x0F = 0x3D ∧
  headerByte 1 0x11 = 0x45 ∧ headerByte 0 0x03 = 0x0C ∧ headerByte 0 0x09 = 0x24

/-- R166, R167, R176, R90: FRAME_ENC, and FRAME_ENC4 as FRAME_ENC with `fc = 0x00`, in every form; no state changes. -/
def Obligations.FrameEncAnswers : Prop :=
  ∀ (type subtype fc seq : Byte) (payload : List Byte) (s : State),
    let frame (fc : Byte) : List Byte :=
      [(subtype <<< 2) ||| type, fc, seq, BitVec.ofNat 8 payload.length] ++ payload
    (type.toNat < 2 → subtype.toNat ≤ 63 → payload.length ≤ 255 →
      Answers (.frameEnc type subtype fc seq payload) s s.engine (0x00 :: (le16 (4 + payload.length) ++ frame fc)) ∧
      Answers (.frameEnc4 type subtype seq payload) s s.engine (0x00 :: (le16 (4 + payload.length) ++ frame 0x00))) ∧
    (2 ≤ type.toNat ∨ 63 < subtype.toNat →
      Answers (.frameEnc type subtype fc seq payload) s s.engine [0x0B] ∧
      Answers (.frameEnc4 type subtype seq payload) s s.engine [0x0B]) ∧
    (type.toNat < 2 → subtype.toNat ≤ 63 → 255 < payload.length →
      Answers (.frameEnc type subtype fc seq payload) s s.engine [0x03] ∧
      Answers (.frameEnc4 type subtype seq payload) s s.engine [0x03])

/-- R168, R169: FRAME_DEC answers the five fields as found, or ERR_PARSE; it changes no state, not even PARSE_ERR. -/
def Obligations.FrameDecAnswers : Prop :=
  ∀ (buf : List Byte) (s : State),
    (∀ b0 fc seq n rest, buf = b0 :: fc :: seq :: n :: rest → n.toNat ≤ rest.length →
      Answers (.frameDec buf) s s.engine
        (0x00 :: (b0 &&& 0x03) :: (b0 >>> 2) :: fc :: seq :: (le16 n.toNat ++ rest.take n.toNat))) ∧
    (buf.length < 4 ∨ buf.length < 4 + (buf.getD 3 0).toNat → Answers (.frameDec buf) s s.engine [0x04])

/-- R171: the round trip through the commands, with any trailing bytes, and the other direction. -/
def Obligations.FrameRoundTrip : Prop :=
  (∀ (type subtype fc seq : Byte) (payload t : List Byte) (s : State),
    type.toNat ≤ 1 → subtype.toNat ≤ 63 → payload.length ≤ 255 → ∃ frame : List Byte,
      Answers (.frameEnc type subtype fc seq payload) s s.engine (0x00 :: varField frame) ∧
      Answers (.frameDec (frame ++ t)) s s.engine (0x00 :: type :: subtype :: fc :: seq :: varField payload)) ∧
  (∀ (buf : List Byte) (f : Frame), frameDecode buf = some f → f.type.toNat ≤ 1 →
    frameEncode f = buf.take (4 + (buf.getD 3 0).toNat))

/-- R172, R176: FRAME_TX builds the session's next frame and takes one sequence number, or takes none. -/
def Obligations.FrameTxAnswers : Prop :=
  ∀ (type subtype fc : Byte) (payload : List Byte) (s : State),
    (type.toNat < 2 → subtype.toNat ≤ 63 → payload.length ≤ 255 →
      Answers (.frameTx type subtype fc payload) s { s.engine with seq := s.engine.seq + 1 }
        (0x00 :: (le16 (4 + payload.length) ++
          [(subtype <<< 2) ||| type, fc, s.engine.seq, BitVec.ofNat 8 payload.length] ++ payload))) ∧
    (2 ≤ type.toNat ∨ 63 < subtype.toNat → Answers (.frameTx type subtype fc payload) s s.engine [0x0B]) ∧
    (type.toNat < 2 → subtype.toNat ≤ 63 → 255 < payload.length →
      Answers (.frameTx type subtype fc payload) s s.engine [0x03])

/-- R174, R175, R176: FRAME_TX_ENC encrypts under the IV that begins with the frame's own sequence number and sets
FC_ENC; its three refusals, in that priority, take no sequence number. -/
def Obligations.FrameTxEncAnswers : Prop :=
  ∀ (type subtype fc : Byte) (payload : List Byte) (s : State),
    (∀ rk, s.engine.aesRk = some rk → rk.length = 176 → type.toNat < 2 → subtype.toNat ≤ 63 → payload.length ≤ 255 →
      Answers (.frameTxEnc type subtype fc payload) s { s.engine with seq := s.engine.seq + 1 }
        (0x00 :: (le16 (4 + payload.length) ++
          [(subtype <<< 2) ||| type, fc ||| 0x01, s.engine.seq, BitVec.ofNat 8 payload.length] ++
          cfbEncrypt rk payload (s.engine.seq :: List.replicate 15 0x00)))) ∧
    (2 ≤ type.toNat ∨ 63 < subtype.toNat → Answers (.frameTxEnc type subtype fc payload) s s.engine [0x0B]) ∧
    (type.toNat < 2 → subtype.toNat ≤ 63 → 255 < payload.length →
      Answers (.frameTxEnc type subtype fc payload) s s.engine [0x03]) ∧
    (s.engine.aesRk = none → type.toNat < 2 → subtype.toNat ≤ 63 → payload.length ≤ 255 →
      Answers (.frameTxEnc type subtype fc payload) s s.engine [0x09])

/-- R173: over any run of FRAME_TX, FRAME_TX_ENC and FRAG the k-th frame built carries the k-th sequence number from
the start, and the counter ends after the last. -/
def Obligations.SequenceNumbersFollowIssuance : Prop :=
  ∀ (is : List Instr) (s s' : State), s.Sound → (∀ i ∈ is, takesSeq i = true ∧ wellFormed i = true) →
    runAll is s = some s' →
    (∀ k, k < (framesBuilt is s).length →
      ((framesBuilt is s).getD k []).getD 2 0 = s.engine.seq + BitVec.ofNat 8 k) ∧
    s'.engine.seq = s.engine.seq + BitVec.ofNat 8 (framesBuilt is s).length

/-- R25: a step changes SEQ only if it runs one of the commands that R25 lists, or resets. -/
def Obligations.OnlyListedStepsWriteSeq : Prop :=
  ∀ s s' : State, step s = .next s' → s'.engine.seq ≠ s.engine.seq →
    s.Resets ∨ ∃ i, s.Runs i ∧ (takesSeq i = true ∨ i = .sessionInit)

/-! ## Fragments -/

/-- R84, R188: FRAG answers every message with the frames of R84's table, numbered from SEQ on. -/
def Obligations.FragAnswersFramesOfTable : Prop :=
  ∀ (data : List Byte) (s : State), data.length ≤ 65535 →
    let n := if data.length ≤ 14 then 1 else 1 + (data.length - 14 + 15) / 16
    let payload (i : Nat) : List Byte :=
      if n = 1 then data
      else if i = 0 then le16 data.length ++ data.take 14
      else (data.drop (14 + 16 * (i - 1))).take 16
    ∃ frames : List (List Byte), frames.length = n ∧
      Answers (.frag data) s { s.engine with seq := s.engine.seq + BitVec.ofNat 8 n }
        (0x00 :: (le16 n ++ (frames.map varField).flatten)) ∧
      ∀ i, i < n → frames.getD i [] =
        [0x01, if i + 1 < n then 0x10 else 0x00, s.engine.seq + BitVec.ofNat 8 i, BitVec.ofNat 8 (payload i).length]
          ++ payload i

/-- R187: the number of chunks and their payload lengths, with the table's rows. -/
def Obligations.FragmentCountAndSizes : Prop :=
  (∀ data : List Byte,
    let n := (fragmentChunks data).length
    (data.length ≤ 14 → (fragmentChunks data).map (·.2.length) = [data.length]) ∧
    (14 < data.length → n = 1 + (data.length - 14 + 15) / 16 ∧
      (fragmentChunks data).map (·.2.length) = List.replicate (n - 1) 16 ++ [data.length - 14 - 16 * (n - 2)] ∧
      1 ≤ data.length - 14 - 16 * (n - 2) ∧ data.length - 14 - 16 * (n - 2) ≤ 16)) ∧
  (∀ p ∈ [(0, 1), (13, 1), (14, 1), (15, 2), (29, 2), (30, 2), (31, 3), (264, 17), (300, 19), (1000, 63), (65535, 4097)],
    ∀ data : List Byte, data.length = p.1 → (fragmentChunks data).length = p.2)

/-- R192, R193: the reassembler on one chunk, in every state, with the response of REASM_PUSH. -/
def Obligations.ReasmPushAnswers : Prop :=
  ∀ (fc : Byte) (pl : List Byte) (s : State),
    let push := Instr.reasmPush fc pl
    (255 < pl.length → Answers push s s.engine [0x03]) ∧
    (pl.length ≤ 255 → s.engine.ra = none → fc.getLsbD 4 = false → Answers push s s.engine (0x00 :: 0x01 :: varField pl)) ∧
    (s.engine.ra = none → fc.getLsbD 4 = true → pl.length < 2 → Answers push s s.engine [0x0C]) ∧
    (∀ lo hi data, pl.length ≤ 255 → s.engine.ra = none → fc.getLsbD 4 = true → pl = lo :: hi :: data →
      (data.length ≤ lo.toNat + 256 * hi.toNat →
        Answers push s { s.engine with ra := some ⟨BitVec.ofNat 16 (lo.toNat + 256 * hi.toNat), data⟩ } [0x00, 0x00]) ∧
      (lo.toNat + 256 * hi.toNat < data.length → Answers push s s.engine [0x0C])) ∧
    (∀ r, pl.length ≤ 255 → s.engine.ra = some r →
      (r.total.toNat < r.buf.length + pl.length → Answers push s { s.engine with ra := none } [0x0C]) ∧
      (r.buf.length + pl.length ≤ r.total.toNat → fc.getLsbD 4 = true →
        Answers push s { s.engine with ra := some { r with buf := r.buf ++ pl } } [0x00, 0x00]) ∧
      (r.buf.length + pl.length = r.total.toNat → fc.getLsbD 4 = false →
        Answers push s { s.engine with ra := none } (0x00 :: 0x01 :: varField (r.buf ++ pl))) ∧
      (r.buf.length + pl.length < r.total.toNat → fc.getLsbD 4 = false →
        Answers push s { s.engine with ra := none } [0x0C]))

/-- R196: pushing the chunks of any message into an idle reassembler answers More for all but the last, the message
for the last, and leaves the engine as it was. -/
def Obligations.ReassembleFragmentsRoundTrip : Prop :=
  ∀ (data : List Byte) (s : State), data.length ≤ 65535 → s.engine.ra = none →
    runAll ((fragmentChunks data).map fun c => .reasmPush (if c.1 then 0x10 else 0x00) c.2) s
      = some { s with rsp := (0x00 :: 0x01 :: varField data)
        :: (List.replicate ((fragmentChunks data).length - 1) [0x00, 0x00] ++ s.rsp) }

/-- R194, R195: after ERR_FRAG the reassembler is idle, and a partial message stays until a REASM_PUSH, REASM_RESET,
SESSION_INIT or reset; there is no reassembly timeout. REASM_RESET idles the reassembler and changes nothing else. -/
def Obligations.PartialMessageStays : Prop :=
  (∀ s : State, Answers .reasmReset s { s.engine with ra := none } [0x00]) ∧
  (∀ (fc : Byte) (pl : List Byte) (s s' : State), exec (.reasmPush fc pl) s = .next s' →
    s'.rsp = [0x0C] :: s.rsp → s'.engine.ra = none) ∧
  (∀ s s' : State, step s = .next s' → s.engine.ra ≠ none → s'.engine.ra ≠ s.engine.ra →
    s.Resets ∨ s.Runs .reasmReset ∨ s.Runs .sessionInit ∨ ∃ fc pl, s.Runs (.reasmPush fc pl))

/-! ## The correlator -/

/-- R206: the transition table, row by row, and every other instruction leaves the correlator's state unchanged. -/
def Obligations.CorrelatorTransitionTable : Prop :=
  ∀ s : State,
    (∀ t : Word, s.engine.corr = .idle → t ≠ 0 → Answers (.reqIssue t) s { s.engine with corr := .awaiting t } [0x00]) ∧
    (s.engine.corr = .idle → Answers (.reqIssue 0) s { s.engine with corr := .timedOut } [0x00]) ∧
    (∀ t : Word, s.engine.corr ≠ .idle → Answers (.reqIssue t) s s.engine [0x05]) ∧
    (∀ r b f, s.engine.corr = .awaiting r → frameDecode b = some f →
      Moves (.rxNotify b) s { s.engine with corr := .resolved r f }) ∧
    (∀ b, frameDecode b = none → Moves (.rxNotify b) s { s.engine with parseErr := true }) ∧
    (∀ b f, (∀ r, s.engine.corr ≠ .awaiting r) → frameDecode b = some f →
      Moves (.rxNotify b) s { s.engine with unsolicited := true }) ∧
    (∀ s', exec .tick s = .next s' →
      (s.engine.corr = .awaiting 1 → s'.engine = { s.engine with corr := .timedOut }) ∧
      (∀ r, s.engine.corr = .awaiting r → 1 < r.toNat → s'.engine = { s.engine with corr := .awaiting (r - 1) }) ∧
      ((∀ r, s.engine.corr ≠ .awaiting r) → s'.engine = s.engine)) ∧
    (∀ r f, s.engine.corr = .resolved r f →
      Answers .reqCollect s { s.engine with corr := .idle }
        (0x00 :: (le32 r ++ [f.type.setWidth 8, f.subtype.setWidth 8, f.fc, f.seq] ++ varField f.payload))) ∧
    (s.engine.corr = .timedOut → Answers .reqCollect s { s.engine with corr := .idle } [0x06]) ∧
    (∀ r, s.engine.corr = .awaiting r → Answers .reqCollect s s.engine [0x07]) ∧
    (s.engine.corr = .idle → Answers .reqCollect s s.engine [0x08]) ∧
    (∀ i s', exec i s = .next s' → (∀ t, i ≠ .reqIssue t) → (∀ t, i ≠ .request t) → i ≠ .reqCollect → i ≠ .tick →
      notifies i = false → s'.engine.corr = s.engine.corr)

/-- R82, R83, R209: a notification that is a frame of any row, the catalog's seven and the generic one, resolves an
awaiting request with that very frame and is dropped otherwise (log 8). -/
def Obligations.EveryFrameRowReachesTheSlot : Prop :=
  (∀ (i : Instr) (f : Frame) (s : State), instrFrame i = some f → f.payload.length ≤ 255 →
    (∀ r, s.engine.corr = .awaiting r → Moves i s { s.engine with corr := .resolved r f }) ∧
    ((∀ r, s.engine.corr ≠ .awaiting r) → Moves i s { s.engine with unsolicited := true })) ∧
  (∀ (fc seq : Byte) (pl : List Byte) (t : BitVec 2) (st : BitVec 6),
    instrFrame (.frameDataNeg fc seq pl) = some ⟨1, 0x00, fc, seq, pl⟩ ∧
    instrFrame (.frameDataSsid fc seq pl) = some ⟨1, 0x02, fc, seq, pl⟩ ∧
    instrFrame (.frameDataPassword fc seq pl) = some ⟨1, 0x03, fc, seq, pl⟩ ∧
    instrFrame (.frameDataStatus fc seq pl) = some ⟨1, 0x0F, fc, seq, pl⟩ ∧
    instrFrame (.frameDataWifilist fc seq pl) = some ⟨1, 0x11, fc, seq, pl⟩ ∧
    instrFrame (.frameCtrlApply fc seq pl) = some ⟨0, 0x03, fc, seq, pl⟩ ∧
    instrFrame (.frameCtrlScan fc seq pl) = some ⟨0, 0x09, fc, seq, pl⟩ ∧
    instrFrame (.frameGeneric t st fc seq pl) = some ⟨t, st, fc, seq, pl⟩)

/-- R214: TICK completes with no response, and a request issued with `t > 0` and not resolved is awaiting before and
timed out at its `t`-th TICK; the host's sleep counts the tick too (log 10). -/
def Obligations.TimeoutAtExactlyTheDeadline : Prop :=
  (∀ s : State, ∃ e block, exec .tick s = .next { s with engine := e, host := { s.host with block := block } } ∧
    e.seq = s.engine.seq ∧ e.aesRk = s.engine.aesRk ∧ e.ra = s.engine.ra ∧ e.parseErr = s.engine.parseErr ∧
    e.unsolicited = s.engine.unsolicited ∧ (block = s.host.block ∨ ∃ n, s.host.block = .ticks n ∧ block = .ticks (n - 1))) ∧
  (∀ (s : State) (t : Word), s.engine.corr = .awaiting t → t ≠ 0 →
    (∀ k, k < t.toNat → ∃ s', runAll (List.replicate k .tick) s = some s' ∧
      s'.engine = { s.engine with corr := .awaiting (t - BitVec.ofNat 32 k) }) ∧
    ∃ s', runAll (List.replicate t.toNat .tick) s = some s' ∧ s'.engine = { s.engine with corr := .timedOut })

/-- R215: once resolved or timed out the slot does not move by events, and when a frame and the last tick are ready
together both orders are steps of the machine, with the two legal outcomes. -/
def Obligations.RaceResolvesExactlyOnce : Prop :=
  (∀ (s s' : State) (i : Instr), notifies i = true ∨ i = .tick → s.engine.irqCorr = true → exec i s = .next s' →
    s'.engine.corr = s.engine.corr) ∧
  (∀ (s : State) (rest : List Turn) (b : List Byte) (f : Frame), s.engine.corr = .awaiting 1 → frameDecode b = some f →
    (s.turns = .rx b :: .tick :: rest → ∃ s', Sys2Proof.core.run 2 s = .next s' ∧
      s'.engine = { s.engine with corr := .resolved 1 f }) ∧
    (s.turns = .tick :: .rx b :: rest → ∃ s', Sys2Proof.core.run 2 s = .next s' ∧
      s'.engine = { s.engine with corr := .timedOut, unsolicited := true }))

/-- R211: no step takes the slot from Awaiting to Idle but a reset; SESSION_END leaves it alone and SESSION_INIT
refuses while it is not Idle. -/
def Obligations.OnlyResetCancelsAWait : Prop :=
  (∀ (s s' : State) (r : Word), step s = .next s' → s.engine.corr = .awaiting r → s'.engine.corr = .idle → s.Resets) ∧
  (∀ s s' : State, exec .sessionEnd s = .next s' → s'.engine.corr = s.engine.corr) ∧
  (∀ s : State, s.engine.corr ≠ .idle → Answers .sessionInit s s.engine [0x05])

/-- R280: `irq_corr` is a function of CORR_STATE; it rises only in a step that resolves or times out the request and
falls only in the step that collects the outcome or at reset. -/
def Obligations.IrqRisesAndFallsWithTheOutcome : Prop :=
  (∀ e : Engine, e.irqCorr = true ↔ e.corrCode = 2 ∨ e.corrCode = 3) ∧
  (∀ s s' : State, step s = .next s' → s.engine.irqCorr = false → s'.engine.irqCorr = true →
    ∃ i, s.Runs i ∧ (notifies i = true ∨ i = .tick ∨ i = .reqIssue 0 ∨ i = .request 0)) ∧
  (∀ s s' : State, step s = .next s' → s.engine.irqCorr = true → s'.engine.irqCorr = false →
    s.Resets ∨ s.Runs .reqCollect)

/-- R279: an event never produces a response and never fails. -/
def Obligations.EventsNeverFailOrRespond : Prop :=
  ∀ (s : State) (rest : List Turn) (b : List Byte), s.turns = .rx b :: rest ∨ s.turns = .tick :: rest →
    ∃ s', step s = .next s' ∧ s'.rsp = s.rsp ∧ s'.turns = rest ∧ s'.calls = s.calls

/-! ## Session control -/

/-- R301, R300: SESSION_INIT on an idle slot leaves the persistent state that reset leaves, and is refused otherwise; reset
is never refused. That a reset step leaves everything outside the engine (the host, the responses, the Transport's calls
and link) as it was is the model's reading (log 17, DEDUCED). -/
def Obligations.SessionInitLeavesResetState : Prop :=
  ∀ (s : State) (rest : List Turn),
    (s.engine.corr = .idle → Answers .sessionInit s Engine.reset [0x00]) ∧
    (s.engine.corr ≠ .idle → Answers .sessionInit s s.engine [0x05]) ∧
    (s.turns = .reset :: rest → step s = .next { s with engine := Engine.reset, turns := rest })

/-- R232: SESSION_END destroys the key and changes nothing else, in every state of the slot. -/
def Obligations.SessionEndDropsOnlyTheKey : Prop :=
  ∀ s : State, Answers .sessionEnd s { s.engine with aesRk := none } [0x00]

/-- R233: the lifetime of the key, over every step of the machine. -/
def Obligations.KeyIsImmutableOnceEstablished : Prop :=
  ∀ s s' : State, step s = .next s' →
    (s.engine.keyValid = false → s'.engine.keyValid = true → ∃ key, s.Runs (.aesSetkey key)) ∧
    (s.engine.keyValid = true → s'.engine.keyValid = false →
      s.Runs .sessionEnd ∨ s.Runs .sessionInit ∨ s.Resets) ∧
    (s.engine.keyValid = true → s'.engine.keyValid = true → s'.engine.aesRk = s.engine.aesRk)

/-- R234: GET_STATUS answers the registers in their order and changes nothing; STATUS has the bits of R30, and CORR_STATE,
CORR_REMAIN and CORR_FRAME are R28's in each state of the slot. -/
def Obligations.GetStatusAnswersRegisters : Prop :=
  (∀ s : State, Answers .getStatus s s.engine
    (0x00 :: s.engine.statusByte :: s.engine.seq :: s.engine.corrCode :: le32 s.engine.corrRemain)) ∧
  (∀ e : Engine, (e.statusByte.getLsbD 0 = true ↔ e.aesRk ≠ none) ∧ (e.statusByte.getLsbD 1 = true ↔ e.ra ≠ none) ∧
    e.statusByte.getLsbD 2 = e.parseErr ∧ e.statusByte.getLsbD 3 = e.unsolicited ∧ e.statusByte.toNat < 16) ∧
  (∀ (e : Engine) (r : Word) (f : Frame),
    (e.corr = .idle → e.corrCode = 0x00 ∧ e.corrRemain = 0) ∧ (e.corr = .awaiting r → e.corrCode = 0x01 ∧ e.corrRemain = r) ∧
    (e.corr = .resolved r f → e.corrCode = 0x02 ∧ e.corrRemain = r ∧ e.corrFrame = some f) ∧
    (e.corr = .timedOut → e.corrCode = 0x03 ∧ e.corrRemain = 0) ∧ (e.corrCode ≠ 0x02 → e.corrFrame = none))

/-- R235: CLR_FLAGS clears exactly the sticky flags its mask names; the other bits of the mask are ignored. -/
def Obligations.ClrFlagsClearsNamedFlags : Prop :=
  ∀ (mask : Byte) (s : State), ∃ p u : Bool,
    Answers (.clrFlags mask) s { s.engine with parseErr := p, unsolicited := u } [0x00] ∧
    (mask.getLsbD 2 = true → p = false) ∧ (mask.getLsbD 2 = false → p = s.engine.parseErr) ∧
    (mask.getLsbD 3 = true → u = false) ∧ (mask.getLsbD 3 = false → u = s.engine.unsolicited)

/-! ## Statuses -/

/-- R74: a step that puts something on `rsp` puts one response there; when its first byte is not OK the response is that
one byte. So for every command by itself. -/
def Obligations.ErrorResponseIsOneByte : Prop :=
  (∀ (i : Instr) (s s' : State), exec i s = .next s' → s'.rsp ≠ s.rsp →
    ∃ status results, s'.rsp = (status :: results) :: s.rsp ∧ (status ≠ 0x00 → results = [])) ∧
  (∀ s s' : State, step s = .next s' → s'.rsp ≠ s.rsp →
    ∃ status results, s'.rsp = (status :: results) :: s.rsp ∧ (status ≠ 0x00 → results = []))

/-- R272: a command answers OK or a status of its row of the matrix. -/
def Obligations.StatusesStayInTheMatrix : Prop :=
  ∀ (i : Instr) (s s' : State) (status : Byte) (results : List Byte), exec i s = .next s' →
    s'.rsp = (status :: results) :: s.rsp → status = 0x00 ∨ ∃ st ∈ statusMatrix i, status = st.code

/-- R276: a command that ends with an error status answers that one byte and changes no persistent state, with exactly
two exceptions. -/
def Obligations.ErrorsArePrecise : Prop :=
  ∀ (i : Instr) (s s' : State) (status : Byte) (results : List Byte), exec i s = .next s' →
    s'.rsp = (status :: results) :: s.rsp → status ≠ 0x00 → results = [] ∧
    (s'.engine = s.engine ∨
      (i = .reqCollect ∧ status = 0x06 ∧ s'.engine = { s.engine with corr := .idle }) ∨
      (∃ fc pl, i = .reasmPush fc pl ∧ status = 0x0C ∧ s'.engine = { s.engine with ra := none }))

/-- R57: the pure commands and GET_STATUS leave the engine as it is and answer the same again; REQ_COLLECT is a
destructive read. -/
def Obligations.PureCommandsRepeat : Prop :=
  (∀ (i : Instr) (s s₁ s₂ : State),
    (∃ m, i = .md5 m) ∨ (∃ b, i = .aesEncblk b) ∨ (∃ v d, i = .cfbEnc v d) ∨ (∃ b e m, i = .modpow b e m) ∨
      (∃ t st fc q p, i = .frameEnc t st fc q p) ∨ (∃ b, i = .frameDec b) ∨ i = .getStatus →
    exec i s = .next s₁ → exec i s₁ = .next s₂ →
    s₁.engine = s.engine ∧ ∃ r, s₁.rsp = r :: s.rsp ∧ s₂.rsp = r :: r :: s.rsp) ∧
  (∀ s s₁ s₂ : State, exec .reqCollect s = .next s₁ → exec .reqCollect s₁ = .next s₂ → s.engine.irqCorr = true →
    s₂.rsp = [0x08] :: s₁.rsp)

/-! ## Reset and the invariant -/

/-- R300: reset puts every piece of persistent state to its value, in any state of the engine. -/
def Obligations.ResetPutsEveryPieceOfState : Prop :=
  (∀ (s : State) (rest : List Turn), s.turns = .reset :: rest → ∃ s', step s = .next s' ∧
    s'.engine = ⟨0x00, none, none, .idle, false, false⟩ ∧ s'.engine.statusByte = 0x00 ∧ s'.engine.irqCorr = false ∧
    s'.engine.keyValid = false ∧ s'.engine.raActive = false ∧ s'.engine.corrCode = 0x00 ∧ s'.engine.corrRemain = 0 ∧
    s'.engine.corrFrame = none) ∧
  State.reset.engine = ⟨0x00, none, none, .idle, false, false⟩

/-- R302: after reset nothing moves by itself, and events before the first command are legal. -/
def Obligations.NothingMovesAfterReset : Prop :=
  step State.reset = .next State.reset ∧
  (∀ s : State, s.engine = Engine.reset → ∃ s', exec .tick s = .next s' ∧ s'.engine = Engine.reset) ∧
  (∀ (s : State) (b : List Byte), s.engine = Engine.reset →
    ((frameDecode b).isSome = true → Moves (.rxNotify b) s { Engine.reset with unsolicited := true }) ∧
    (frameDecode b = none → Moves (.rxNotify b) s { Engine.reset with parseErr := true }))

/-- R37, R26: every step keeps the invariant, from every state that has it. -/
def Obligations.StepKeepsSoundness : Prop :=
  ∀ s s' : State, s.Sound → step s = .next s' → s'.Sound

/-- R36, R37: the invariant holds at reset. -/
def Obligations.ResetIsSound : Prop := State.reset.Sound

/-! ## The host -/

/-- R90, R266, R289: SEND writes its frame to the peer's characteristic; when the link is down the sequence the host is in
stops where it is, with a TransportError, an unfinished negotiator is Failed (R241), and the values of a handshake are
gone with the sequence (R240). Nothing reaches the engine either way (log 7, 13, 25, 26, 28). -/
def Obligations.SendWritesOrStops : Prop :=
  ∀ (f : List Byte) (s : State),
    let peer := s.host.peer
    (s.linkUp = true → exec (.send f) s = .next
      { s with calls := .writeCharacteristic peer.id peer.write.serviceId peer.write.charId f :: s.calls }) ∧
    (s.linkUp = false → ∃ nego, exec (.send f) s = .next
        { s with host :=
          { s.host with
            running := [], reports := .transportError :: s.host.reports, nego := nego
            keys := ⟨none, none, none, none, none⟩ } } ∧
      (s.host.nego = none → nego = none) ∧ (s.host.nego = some .established → nego = some .established) ∧
      (∀ n, s.host.nego = some n → n ≠ .established → nego = some .failed))

/-- R90: WAIT holds the host until `irq_corr = 1`, and lets it go on then (log 10). -/
def Obligations.WaitHoldsUntilIrq : Prop :=
  (∀ s : State, exec .wait s = .next { s with host := { s.host with block := .untilIrq } }) ∧
  (∀ (s : State) (rest : List Turn), s.turns = .host :: rest → s.host.block = .untilIrq →
    (s.engine.irqCorr = false → step s = .next { s with turns := rest }) ∧
    (∀ d more i, s.engine.irqCorr = true → s.host.running = .cmd d :: more → decodeCmd d = .ok i →
      step s = exec i { s with turns := rest, host := { s.host with running := more, block := .ready } }))

/-- R90: SLEEP lets that many TICKs pass: the host can go on after them and not before (log 10). -/
def Obligations.SleepLetsTicksPass : Prop :=
  ∀ (n : Nat) (s : State),
    exec (.sleep n) s = .next { s with host := { s.host with block := .ticks n } } ∧
    ∀ k s', runAll (.sleep n :: List.replicate k .tick) s = some s' → (s'.hostReady = true ↔ n ≤ k)

/-- R90: REQUEST is REQ_ISSUE, then WAIT and REQ_COLLECT (log 11). -/
def Obligations.RequestIssuesThenWaits : Prop :=
  ∀ (t : Word) (s : State),
    let host := { s.host with running := .pseudo .wait :: .cmd [0x0E] :: s.host.running }
    (s.engine.corr = .idle → t ≠ 0 → exec (.request t) s = .next
      { s with engine := { s.engine with corr := .awaiting t }, rsp := [0x00] :: s.rsp, host := host }) ∧
    (s.engine.corr = .idle → t = 0 → exec (.request t) s = .next
      { s with engine := { s.engine with corr := .timedOut }, rsp := [0x00] :: s.rsp, host := host }) ∧
    (s.engine.corr ≠ .idle → exec (.request t) s = .next { s with rsp := [0x05] :: s.rsp, host := host })

/-- R86, R85, R244: the parameter block has the fields of the table at their offsets, and 264 bytes; the announcement
says 263. -/
def Obligations.ParameterBlockLayout : Prop :=
  ∀ p pub : Bytes 128,
    let block := paramBlock p pub
    block.length = 264 ∧ block.take 3 = [0x01, 0x00, 0x80] ∧ (block.drop 3).take 128 = p.val ∧
    (block.drop 131).take 5 = [0x00, 0x01, 0x02, 0x00, 0x80] ∧ block.drop 136 = pub.val ∧
    lengthAnnouncement = [0x00, 0x01, 0x07]

/-- R246, R240: from the collected peer key the host derives and loads the session key, the digest of the 128-byte shared
secret, and the negotiator is Established. The host holds the peer's key, the secret and the session key until the sequence
ends, and none of them after it. The nine host turns are the model's own count (log 12). -/
def Obligations.HandshakeLoadsTheDerivedKey : Prop :=
  ∀ (s : State) (rest : List Turn) (p priv peer : Bytes 128) (remain hdr : List Byte) (rsps : List (List Byte)),
    s.turns = List.replicate 9 .host ++ rest → s.host.block = .ready → s.host.running = [.resume (.peerKey p)] →
    s.host.keys.privateKey = some priv →
    remain.length = 4 → hdr.length = 4 → s.rsp = (0x00 :: (remain ++ hdr ++ varField peer.val)) :: rsps →
    os2ip p.val ≠ 0 → s.engine.aesRk = none →
    let secret := i2osp (os2ip peer.val ^ os2ip priv.val % os2ip p.val) 128
    (∃ s₈, Sys2Proof.core.run 8 s = .next s₈ ∧
      s₈.host.keys.privateKey = some priv ∧ s₈.host.keys.publicKey = s.host.keys.publicKey ∧
      s₈.host.keys.peerPublicKey = some peer ∧ s₈.host.keys.sharedSecret.map (·.val) = some secret ∧
      s₈.host.keys.sessionKey.map (·.val) = some (md5 secret)) ∧
    ∃ s', Sys2Proof.core.run 9 s = .next s' ∧
      s'.engine = { s.engine with aesRk := some (aesKeyExpand (md5 secret)) } ∧
      s'.host.nego = some .established ∧ s'.host.reports = .established :: s.host.reports ∧
      s'.host.keys = ⟨none, none, none, none, none⟩

/-- R247: a timeout or a peer key of another length fails the handshake: no key is loaded, nothing in the engine
changes, the negotiator is Failed (log 13), and the host keeps none of the values (R240). -/
def Obligations.HandshakeFailureLoadsNoKey : Prop :=
  ∀ (s : State) (rest : List Turn) (p : Bytes 128) (more : List HostAction) (rsps : List (List Byte)),
    s.turns = .host :: rest → s.host.block = .ready → s.host.running = .resume (.peerKey p) :: more →
    s.host.nego = some .awaitingPeerKey →
    (s.rsp = [0x06] :: rsps → ∃ s', step s = .next s' ∧ s'.engine = s.engine ∧ s'.host.nego = some .failed ∧
      s'.host.running = [] ∧ s'.host.reports = .protocolTimeout :: s.host.reports ∧
      s'.host.keys = ⟨none, none, none, none, none⟩) ∧
    (∀ remain hdr peer : List Byte, remain.length = 4 → hdr.length = 4 → peer.length ≤ 255 → peer.length ≠ 128 →
      s.rsp = (0x00 :: (remain ++ hdr ++ varField peer)) :: rsps → ∃ s', step s = .next s' ∧ s'.engine = s.engine ∧
      s'.host.nego = some .failed ∧ s'.host.running = [] ∧ s'.host.reports = .handshakeError :: s.host.reports ∧
      s'.host.keys = ⟨none, none, none, none, none⟩)

/-- R255, R257: one round of the polling loop, for the status report and for the scan report. With `left` ticks of the window
left the loop reports its failure (0 left) or requests the sub-deadline; a timeout takes `t` off the window, a frame
that does not qualify takes `t - r` off, and the loop goes on with the rest; a frame that qualifies is reported (the
loop is a continuation: log 12). -/
def Obligations.PollingLoopRounds : Prop :=
  ∀ (s : State) (goal : PollGoal) (rest : List Turn) (left t : Nat) (more : List HostAction) (rsps : List (List Byte)),
    let elapsed : Report := match goal with
      | .status => .wifiConfigured false
      | .scan => .wifiList []
    let answer (type subtype : Byte) (payload : List Byte) : Option Report := match goal with
      | .status => if type = 1 ∧ subtype = 0x0F ∧ payload[1]? = some 0x00 then some (.wifiConfigured true) else none
      | .scan => if type = 1 ∧ subtype = 0x11 then some (.wifiList (wifiList payload)) else none
    let loopsWith (left : Nat) (s' : State) : Prop :=
      if left = 0 then s'.host.reports = elapsed :: s.host.reports ∧ s'.host.running = more
      else s'.host.reports = s.host.reports ∧ s'.host.running = .pseudo (.request (BitVec.ofNat 32 (min 2000 left)))
        :: .resume (.polled goal left (min 2000 left)) :: more
    s.turns = .host :: rest → s.host.block = .ready →
    (s.host.running = .resume (.poll goal left) :: more →
      ∃ s', step s = .next s' ∧ s'.engine = s.engine ∧ loopsWith left s') ∧
    (s.host.running = .resume (.polled goal left t) :: more → t ≤ left →
      (s.rsp = [0x06] :: rsps → ∃ s', step s = .next s' ∧ s'.engine = s.engine ∧ loopsWith (left - t) s') ∧
      (∀ (r : Word) (type subtype fc seq : Byte) (payload : List Byte), payload.length ≤ 255 → r.toNat ≤ t →
        s.rsp = (0x00 :: (le32 r ++ [type, subtype, fc, seq] ++ varField payload)) :: rsps →
        ∃ s', step s = .next s' ∧ s'.engine = s.engine ∧
          (∀ found, answer type subtype payload = some found →
            s'.host.reports = found :: s.host.reports ∧ s'.host.running = more) ∧
          (answer type subtype payload = none → loopsWith (left - (t - r.toNat)) s')))

/-- R260, R261: parsing gives back the entries of a report, signed signal included, and stops at the first entry that
overruns. -/
def Obligations.WifiParseReadsEntries : Prop :=
  ∀ (entries : List (Byte × List Byte)) (tail : List Byte),
    (∀ e ∈ entries, 1 ≤ e.2.length ∧ e.2.length ≤ 254) →
    (tail = [] ∨ ∃ n rest, tail = n :: rest ∧ (n.toNat ≤ 1 ∨ rest.length < n.toNat)) →
    wifiParse ((entries.map fun e => wifiEntryBytes e.1 e.2).flatten ++ tail)
      = entries.map fun e => ⟨e.2, e.1.toInt⟩

/-- R263, R264: the returned list is sorted, strongest first, entries of equal signal in payload order; it has each SSID
of the report once, and keeps of each SSID the first entry. -/
def Obligations.WifiListSortedWithoutDuplicates : Prop :=
  ∀ p : List Byte,
    (wifiList p).Pairwise (fun a b => b.signal ≤ a.signal) ∧ ((wifiList p).map (·.ssid)).Nodup ∧
    (∀ k : Int, ((wifiList p).filter (·.signal == k)).Sublist (wifiParse p)) ∧
    ∀ e : WifiEntry, e ∈ wifiList p ↔ (wifiParse p).find? (fun x => x.ssid == e.ssid) = some e
end

