-- ==== Sys2Proof/Laws/State.lean ====
section
/-! SUPPORT. One lemma per field for every operation on State, true by rfl (or by cases), so that no proof unfolds an update. -/

namespace Sys2Proof.Machine

section
variable (s : State) (f : Engine → Engine × List Byte) (g : Engine → Engine) (as : List HostAction) (a : HostAction)
  (r : Report) (n : Option NegoState) (keys : HandshakeKeys) (peer : Peer)

@[simp] theorem State.command_engine : (s.command f).engine = (f s.engine).1 := rfl
@[simp] theorem State.command_rsp : (s.command f).rsp = (f s.engine).2 :: s.rsp := rfl
@[simp] theorem State.command_host : (s.command f).host = s.host := rfl
@[simp] theorem State.command_calls : (s.command f).calls = s.calls := rfl
@[simp] theorem State.command_linkUp : (s.command f).linkUp = s.linkUp := rfl
@[simp] theorem State.command_inRange : (s.command f).inRange = s.inRange := rfl
@[simp] theorem State.command_turns : (s.command f).turns = s.turns := rfl

@[simp] theorem State.event_engine : (s.event g).engine = g s.engine := rfl
@[simp] theorem State.event_rsp : (s.event g).rsp = s.rsp := rfl
@[simp] theorem State.event_host : (s.event g).host = s.host := rfl
@[simp] theorem State.event_calls : (s.event g).calls = s.calls := rfl
@[simp] theorem State.event_linkUp : (s.event g).linkUp = s.linkUp := rfl
@[simp] theorem State.event_inRange : (s.event g).inRange = s.inRange := rfl
@[simp] theorem State.event_turns : (s.event g).turns = s.turns := rfl

@[simp] theorem State.push_engine : (s.push as).engine = s.engine := rfl
@[simp] theorem State.push_rsp : (s.push as).rsp = s.rsp := rfl
@[simp] theorem State.push_running : (s.push as).host.running = as ++ s.host.running := rfl
@[simp] theorem State.push_program : (s.push as).host.program = s.host.program := rfl
@[simp] theorem State.push_block : (s.push as).host.block = s.host.block := rfl
@[simp] theorem State.push_nego : (s.push as).host.nego = s.host.nego := rfl
@[simp] theorem State.push_keys : (s.push as).host.keys = s.host.keys := rfl
@[simp] theorem State.push_peer : (s.push as).host.peer = s.host.peer := rfl
@[simp] theorem State.push_devices : (s.push as).host.devices = s.host.devices := rfl
@[simp] theorem State.push_reports : (s.push as).host.reports = s.host.reports := rfl
@[simp] theorem State.push_calls : (s.push as).calls = s.calls := rfl
@[simp] theorem State.push_linkUp : (s.push as).linkUp = s.linkUp := rfl
@[simp] theorem State.push_inRange : (s.push as).inRange = s.inRange := rfl
@[simp] theorem State.push_turns : (s.push as).turns = s.turns := rfl

@[simp] theorem State.report_engine : (s.report r).engine = s.engine := rfl
@[simp] theorem State.report_rsp : (s.report r).rsp = s.rsp := rfl
@[simp] theorem State.report_reports : (s.report r).host.reports = r :: s.host.reports := rfl
@[simp] theorem State.report_running : (s.report r).host.running = s.host.running := rfl
@[simp] theorem State.report_nego : (s.report r).host.nego = s.host.nego := rfl
@[simp] theorem State.report_keys : (s.report r).host.keys = s.host.keys := rfl
@[simp] theorem State.report_peer : (s.report r).host.peer = s.host.peer := rfl
@[simp] theorem State.report_devices : (s.report r).host.devices = s.host.devices := rfl
@[simp] theorem State.report_calls : (s.report r).calls = s.calls := rfl
@[simp] theorem State.report_linkUp : (s.report r).linkUp = s.linkUp := rfl
@[simp] theorem State.report_inRange : (s.report r).inRange = s.inRange := rfl
@[simp] theorem State.report_turns : (s.report r).turns = s.turns := rfl

@[simp] theorem State.setNego_engine : (s.setNego n).engine = s.engine := rfl
@[simp] theorem State.setNego_rsp : (s.setNego n).rsp = s.rsp := rfl
@[simp] theorem State.setNego_nego : (s.setNego n).host.nego = n := rfl
@[simp] theorem State.setNego_running : (s.setNego n).host.running = s.host.running := rfl
@[simp] theorem State.setNego_keys : (s.setNego n).host.keys = s.host.keys := rfl
@[simp] theorem State.setNego_peer : (s.setNego n).host.peer = s.host.peer := rfl
@[simp] theorem State.setNego_devices : (s.setNego n).host.devices = s.host.devices := rfl
@[simp] theorem State.setNego_calls : (s.setNego n).calls = s.calls := rfl
@[simp] theorem State.setNego_linkUp : (s.setNego n).linkUp = s.linkUp := rfl
@[simp] theorem State.setNego_inRange : (s.setNego n).inRange = s.inRange := rfl
@[simp] theorem State.setNego_turns : (s.setNego n).turns = s.turns := rfl

@[simp] theorem State.hold_engine : (s.hold keys).engine = s.engine := rfl
@[simp] theorem State.hold_rsp : (s.hold keys).rsp = s.rsp := rfl
@[simp] theorem State.hold_keys : (s.hold keys).host.keys = keys := rfl
@[simp] theorem State.hold_running : (s.hold keys).host.running = s.host.running := rfl
@[simp] theorem State.hold_program : (s.hold keys).host.program = s.host.program := rfl
@[simp] theorem State.hold_block : (s.hold keys).host.block = s.host.block := rfl
@[simp] theorem State.hold_nego : (s.hold keys).host.nego = s.host.nego := rfl
@[simp] theorem State.hold_peer : (s.hold keys).host.peer = s.host.peer := rfl
@[simp] theorem State.hold_devices : (s.hold keys).host.devices = s.host.devices := rfl
@[simp] theorem State.hold_reports : (s.hold keys).host.reports = s.host.reports := rfl
@[simp] theorem State.hold_calls : (s.hold keys).calls = s.calls := rfl
@[simp] theorem State.hold_linkUp : (s.hold keys).linkUp = s.linkUp := rfl
@[simp] theorem State.hold_inRange : (s.hold keys).inRange = s.inRange := rfl
@[simp] theorem State.hold_turns : (s.hold keys).turns = s.turns := rfl

@[simp] theorem State.setPeer_engine : (s.setPeer peer).engine = s.engine := rfl
@[simp] theorem State.setPeer_rsp : (s.setPeer peer).rsp = s.rsp := rfl
@[simp] theorem State.setPeer_peer : (s.setPeer peer).host.peer = peer := rfl
@[simp] theorem State.setPeer_devices : (s.setPeer peer).host.devices = s.host.devices := rfl
@[simp] theorem State.setPeer_running : (s.setPeer peer).host.running = s.host.running := rfl
@[simp] theorem State.setPeer_program : (s.setPeer peer).host.program = s.host.program := rfl
@[simp] theorem State.setPeer_block : (s.setPeer peer).host.block = s.host.block := rfl
@[simp] theorem State.setPeer_nego : (s.setPeer peer).host.nego = s.host.nego := rfl
@[simp] theorem State.setPeer_keys : (s.setPeer peer).host.keys = s.host.keys := rfl
@[simp] theorem State.setPeer_reports : (s.setPeer peer).host.reports = s.host.reports := rfl
@[simp] theorem State.setPeer_calls : (s.setPeer peer).calls = s.calls := rfl
@[simp] theorem State.setPeer_linkUp : (s.setPeer peer).linkUp = s.linkUp := rfl
@[simp] theorem State.setPeer_inRange : (s.setPeer peer).inRange = s.inRange := rfl
@[simp] theorem State.setPeer_turns : (s.setPeer peer).turns = s.turns := rfl

@[simp] theorem State.abort_engine : (s.abort r).engine = s.engine := rfl
@[simp] theorem State.abort_rsp : (s.abort r).rsp = s.rsp := rfl
@[simp] theorem State.abort_running : (s.abort r).host.running = [] := rfl
@[simp] theorem State.abort_program : (s.abort r).host.program = s.host.program := rfl
@[simp] theorem State.abort_reports : (s.abort r).host.reports = r :: s.host.reports := rfl
@[simp] theorem State.abort_nego : (s.abort r).host.nego = s.host.nego.map NegoState.onError := rfl
@[simp] theorem State.abort_keys : (s.abort r).host.keys = HandshakeKeys.dropped := rfl
@[simp] theorem State.abort_peer : (s.abort r).host.peer = s.host.peer := rfl
@[simp] theorem State.abort_devices : (s.abort r).host.devices = s.host.devices := rfl
@[simp] theorem State.abort_calls : (s.abort r).calls = s.calls := rfl
@[simp] theorem State.abort_linkUp : (s.abort r).linkUp = s.linkUp := rfl
@[simp] theorem State.abort_inRange : (s.abort r).inRange = s.inRange := rfl
@[simp] theorem State.abort_turns : (s.abort r).turns = s.turns := rfl

@[simp] theorem State.withAction_engine : (s.withAction a).engine = s.engine := rfl
@[simp] theorem State.withAction_rsp : (s.withAction a).rsp = s.rsp := rfl
@[simp] theorem State.withAction_turns : (s.withAction a).turns = .host :: s.turns := rfl
@[simp] theorem State.withAction_running : (s.withAction a).host.running = a :: s.host.running := rfl
@[simp] theorem State.withAction_block : (s.withAction a).host.block = .ready := rfl

@[simp] theorem resetStep_engine : (resetStep s).engine = Engine.reset := rfl
@[simp] theorem resetStep_rsp : (resetStep s).rsp = s.rsp := rfl
@[simp] theorem resetStep_host : (resetStep s).host = s.host := rfl
@[simp] theorem resetStep_turns : (resetStep s).turns = s.turns := rfl

@[simp] theorem rejectDescriptor_engine : (rejectDescriptor s).engine = s.engine := rfl
@[simp] theorem rejectDescriptor_rsp : (rejectDescriptor s).rsp = [Status.errDesc.code] :: s.rsp := rfl
@[simp] theorem rejectDescriptor_host : (rejectDescriptor s).host = s.host := rfl

@[simp] theorem raise_engine (st : Status) (e : Engine) : (raise st e).1 = e := rfl
@[simp] theorem raise_response (st : Status) (e : Engine) : (raise st e).2 = [st.code] := rfl
@[simp] theorem complete_engine (p : List Byte) (e : Engine) : (complete p e).1 = e := rfl
@[simp] theorem complete_response (p : List Byte) (e : Engine) : (complete p e).2 = 0x00 :: p := rfl

end

/-! ## The views (log 2) -/

@[simp] theorem Engine.keyValid_eq_true {e : Engine} : e.keyValid = true ↔ ∃ rk, e.aesRk = some rk :=
  Option.isSome_iff_exists

@[simp] theorem Engine.raActive_eq_true {e : Engine} : e.raActive = true ↔ ∃ r, e.ra = some r :=
  Option.isSome_iff_exists

section
variable (h : HostSide) (c : TransportCall) (ds : List Device)

@[simp] theorem HostSide.afterCall_discover (filter : List Byte) (durationMs : Nat) :
    h.afterCall ds (.discover filter durationMs) = { h with devices := ds } := rfl
@[simp] theorem HostSide.afterCall_write (id serviceId charId bytes : List Byte) :
    h.afterCall ds (.writeCharacteristic id serviceId charId bytes) = h := rfl
@[simp] theorem HostSide.afterCall_running : (h.afterCall ds c).running = h.running := by cases c <;> rfl
@[simp] theorem HostSide.afterCall_program : (h.afterCall ds c).program = h.program := by cases c <;> rfl
@[simp] theorem HostSide.afterCall_block : (h.afterCall ds c).block = h.block := by cases c <;> rfl
@[simp] theorem HostSide.afterCall_nego : (h.afterCall ds c).nego = h.nego := by cases c <;> rfl
@[simp] theorem HostSide.afterCall_keys : (h.afterCall ds c).keys = h.keys := by cases c <;> rfl
@[simp] theorem HostSide.afterCall_peer : (h.afterCall ds c).peer = h.peer := by cases c <;> rfl
@[simp] theorem HostSide.afterCall_reports : (h.afterCall ds c).reports = h.reports := by cases c <;> rfl

end

theorem State.callTransport_engine (c : TransportCall) (s : State) : (s.callTransport c).engine = s.engine := by
  unfold State.callTransport; split <;> rfl

theorem State.callTransport_rsp (c : TransportCall) (s : State) : (s.callTransport c).rsp = s.rsp := by
  unfold State.callTransport; split <;> rfl

end Sys2Proof.Machine
end

