-- ==== Sys2Proof/Laws/Ops.lean ====
section
/-! SUPPORT. What the shared operations can do, said once: blocks, completing and raising, operand checks. -/

namespace Sys2Proof.Machine

/-! ## Blocks -/

theorem blocksOf_go_flatten {n : Nat} (hn : 0 < n) (fuel : Nat) (b : List Byte) (h : b.length ≤ fuel) :
    (blocksOf.go n fuel b).flatten = b := by
  induction fuel generalizing b with
  | zero => simp at h; subst h; rfl
  | succ fuel ih =>
    match b with
    | [] => rfl
    | x :: b =>
      rw [blocksOf.go, List.flatten_cons, ih]
      · exact List.take_append_drop n (x :: b)
      · simp at h ⊢; omega
      · simp

/-- The blocks are the bytes, in order. -/
theorem blocksOf_flatten {n : Nat} (hn : 0 < n) (b : List Byte) : (blocksOf n b).flatten = b :=
  blocksOf_go_flatten hn _ b le_rfl

theorem blocksOf_go_fuel {n : Nat} (hn : 0 < n) (fuel fuel' : Nat) (b : List Byte) (h : b.length ≤ fuel)
    (h' : b.length ≤ fuel') : blocksOf.go n fuel b = blocksOf.go n fuel' b := by
  induction fuel generalizing b fuel' with
  | zero =>
    simp at h; subst h
    cases fuel' <;> rfl
  | succ fuel ih =>
    match b, fuel' with
    | [], 0 => rfl
    | [], _ + 1 => rfl
    | x :: b, fuel' + 1 =>
      rw [blocksOf.go, blocksOf.go, ih fuel']
      · simp at h ⊢; omega
      · simp at h' ⊢; omega
      · simp
      · simp

@[simp] theorem blocksOf_nil (n : Nat) : blocksOf n [] = [] := rfl

/-- The recursion of the blocks, without the fuel. -/
theorem blocksOf_of_ne_nil {n : Nat} (hn : 0 < n) {b : List Byte} (h : b ≠ []) :
    blocksOf n b = b.take n :: blocksOf n (b.drop n) := by
  match b with
  | x :: b =>
    rw [blocksOf, List.length_cons, blocksOf.go]
    · congr 1
      exact blocksOf_go_fuel hn _ _ _ (by simp; omega) le_rfl
    · simp

/-- A whole first block. -/
theorem blocksOf_append {n : Nat} (hn : 0 < n) {a : List Byte} (b : List Byte) (h : a.length = n) :
    blocksOf n (a ++ b) = a :: blocksOf n b := by
  have hne : a ++ b ≠ [] := by intro hc; simp at hc; simp [hc.1] at h; omega
  rw [blocksOf_of_ne_nil hn hne]
  simp [← h]

/-- Every block has 1 to `n` bytes. -/
theorem blocksOf_mem {n : Nat} (hn : 0 < n) {b c : List Byte} (h : c ∈ blocksOf n b) : c ≠ [] ∧ c.length ≤ n := by
  induction hl : b.length using Nat.strong_induction_on generalizing b with
  | _ l ih =>
    by_cases hb : b = []
    · subst hb; simp at h
    · have hpos : 0 < b.length := List.length_pos_iff.mpr hb
      rw [blocksOf_of_ne_nil hn hb, List.mem_cons] at h
      rcases h with rfl | h
      · refine ⟨fun hc => ?_, by simp⟩
        have := congrArg List.length hc
        rw [List.length_take, List.length_nil] at this; omega
      · exact ih (b.drop n).length (by rw [List.length_drop]; omega) h rfl

/-- The number of blocks. -/
theorem blocksOf_length {n : Nat} (hn : 0 < n) (b : List Byte) : (blocksOf n b).length = (b.length + n - 1) / n := by
  induction hl : b.length using Nat.strong_induction_on generalizing b with
  | _ l ih =>
    by_cases hb : b = []
    · subst hb; simp at hl; subst hl
      simp only [blocksOf_nil, List.length_nil]; rw [Nat.div_eq_of_lt (by omega)]
    · have hpos : 0 < b.length := List.length_pos_iff.mpr hb
      rw [blocksOf_of_ne_nil hn hb, List.length_cons, ih (b.drop n).length (by rw [List.length_drop]; omega) _ rfl, List.length_drop, hl]
      rcases Nat.lt_or_ge l n with h | h
      · have e1 : (l - n + n - 1) / n = 0 := Nat.div_eq_of_lt (by omega)
        have e2 : (l + n - 1) / n = 1 := Nat.div_eq_of_lt_le (by omega) (by omega)
        omega
      · have : l + n - 1 = (l - n + n - 1) + n := by omega
        rw [this, Nat.add_div_right _ hn]

theorem xorBytes_length (a b : List Byte) : (xorBytes a b).length = min a.length b.length := by simp [xorBytes]

/-! ## Operand checks (R176) -/

/-- What the operand check answers, said once: OPERAND before LEN, and none exactly when both pass. -/
theorem frameCheck_cases (type subtype : Byte) (payload : List Byte) :
    (2 ≤ type.toNat ∨ 63 < subtype.toNat) ∧ frameCheck type subtype payload = some .errOperand ∨
    (type.toNat < 2 ∧ subtype.toNat ≤ 63) ∧ 255 < payload.length ∧ frameCheck type subtype payload = some .errLen ∨
    (type.toNat < 2 ∧ subtype.toNat ≤ 63) ∧ payload.length ≤ 255 ∧ frameCheck type subtype payload = none := by
  unfold frameCheck
  split
  · simp_all
  · split
    · right; left; simp_all
    · right; right; simp_all

theorem frameCheck_some {type subtype : Byte} {payload : List Byte} {st : Status}
    (h : frameCheck type subtype payload = some st) : st = .errOperand ∨ st = .errLen := by
  rcases frameCheck_cases type subtype payload with ⟨_, h'⟩ | ⟨_, _, h'⟩ | ⟨_, _, h'⟩ <;> simp_all

theorem frameCheck_none {type subtype : Byte} {payload : List Byte} (h1 : type.toNat < 2) (h2 : subtype.toNat ≤ 63)
    (h3 : payload.length ≤ 255) : frameCheck type subtype payload = none := by
  rcases frameCheck_cases type subtype payload with ⟨h, _⟩ | ⟨_, h, _⟩ | ⟨_, _, h⟩ <;> omega

end Sys2Proof.Machine
end

