-- ==== Sys2Proof/Laws/Aes.lean ====
section
/-! SUPPORT. Lengths in the cipher unit and the recursion of CFB, said once. -/

namespace Sys2Proof.Machine

theorem keyTemp_length (i : Nat) {w : List Byte} (h : w.length = 4) : (keyTemp i w).length = 4 := by
  match w, h with
  | [_, _, _, _], _ => simp only [keyTemp]; split <;> rfl

/-- The words of the schedule before the `n`-th step, in order. -/
def keyWords (key : List Byte) (n : Nat) : List (List Byte) :=
  ((List.range' 4 n).foldl keyStep (blocksOf 4 key).reverse).reverse

theorem aesKeyExpand_eq (key : List Byte) : aesKeyExpand key = (keyWords key 40).flatten := rfl

theorem keyWords_zero (key : List Byte) : keyWords key 0 = blocksOf 4 key := by simp [keyWords]

/-- One step appends one word. -/
theorem keyWords_succ (key : List Byte) (n : Nat) (h : (keyWords key n).length = 4 + n) :
    keyWords key (n + 1) = keyWords key n ++
      [xorBytes ((keyWords key n).getD n []) (keyTemp (4 + n) ((keyWords key n).getD (n + 3) []))] := by
  have e (j : Nat) (hj : j < 4 + n) : ((List.range' 4 n).foldl keyStep (blocksOf 4 key).reverse).getD j []
      = (keyWords key n).getD (3 + n - j) [] := by
    have hl : ((List.range' 4 n).foldl keyStep (blocksOf 4 key).reverse).length = 4 + n := by
      rw [← h, keyWords, List.length_reverse]
    simp only [keyWords, List.getD_eq_getElem?_getD]
    rw [List.getElem?_reverse (by omega), hl]
    congr 2; omega
  have e0 := e 0 (by omega)
  have e3 := e 3 (by omega)
  simp only [Nat.sub_zero, show 3 + n = n + 3 by omega] at e0 e3
  rw [keyWords, List.range'_concat, List.foldl_append]
  simp only [List.foldl_cons, List.foldl_nil, keyStep, List.reverse_cons, Nat.one_mul]
  rw [e0, e3]
  rfl

theorem blocksOf_4_of_16 {key : List Byte} (h : key.length = 16) :
    (blocksOf 4 key).length = 4 ∧ ∀ w ∈ blocksOf 4 key, w.length = 4 := by
  match key, h with
  | [_, _, _, _, _, _, _, _, _, _, _, _, _, _, _, _], _ => simp [blocksOf, blocksOf.go]

/-- There are `4 + n` words, of four bytes each. -/
theorem keyWords_lengths {key : List Byte} (h : key.length = 16) (n : Nat) :
    (keyWords key n).length = 4 + n ∧ ∀ w ∈ keyWords key n, w.length = 4 := by
  induction n with
  | zero => rw [keyWords_zero]; exact blocksOf_4_of_16 h
  | succ n ih =>
    obtain ⟨hl, hw⟩ := ih
    have hg (j : Nat) (hj : j < 4 + n) : ((keyWords key n).getD j []).length = 4 := by
      rw [List.getD_eq_getElem?_getD, List.getElem?_eq_getElem (by omega)]
      exact hw _ (List.getElem_mem _)
    rw [keyWords_succ key n hl]
    refine ⟨by simp [hl]; omega, fun w hmem => ?_⟩
    rcases List.mem_append.mp hmem with hmem | hmem
    · exact hw w hmem
    · rw [List.mem_singleton] at hmem
      rw [hmem, xorBytes_length, hg n (by omega), keyTemp_length _ (hg (n + 3) (by omega))]
      rfl

theorem flatten_length_of_const {k : Nat} : ∀ {l : List (List Byte)}, (∀ w ∈ l, w.length = k) →
    l.flatten.length = k * l.length
  | [], _ => by simp
  | w :: l, h => by
    simp only [List.mem_cons, forall_eq_or_imp] at h
    rw [List.flatten_cons, List.length_append, h.1, flatten_length_of_const h.2, List.length_cons, Nat.mul_succ]
    omega

/-- R124: the schedule has 176 bytes. -/
theorem aesKeyExpand_length {key : List Byte} (h : key.length = 16) : (aesKeyExpand key).length = 176 := by
  obtain ⟨hl, hw⟩ := keyWords_lengths h 40
  rw [aesKeyExpand_eq, flatten_length_of_const hw, hl]

theorem roundKey_length {rk : List Byte} (h : rk.length = 176) {r : Nat} (hr : r ≤ 10) : (roundKey rk r).length = 16 := by
  simp only [roundKey, List.length_take, List.length_drop]; omega

theorem shiftRows_length (st : List Byte) : (shiftRows st).length = 16 := rfl

theorem mixColumns_length : ∀ {st : List Byte} {n : Nat}, st.length = 4 * n → (mixColumns st).length = 4 * n
  | a0 :: a1 :: a2 :: a3 :: rest, n + 1, h => by
    have := mixColumns_length (st := rest) (n := n) (by simp at h; omega)
    simp [mixColumns, this]; omega
  | [], 0, _ => rfl
  | [], n + 1, h => by simp at h
  | [_], n, h => by simp at h; omega
  | [_, _], n, h => by simp at h; omega
  | [_, _, _], n, h => by simp at h; omega
  | _ :: _ :: _ :: _ :: _, 0, h => by simp at h

theorem aesRound_length {rk st : List Byte} (h : rk.length = 176) {r : Nat} (hr : r ≤ 10) :
    (aesRound rk st r).length = 16 := by
  rw [aesRound, xorBytes_length, roundKey_length h hr, mixColumns_length (n := 4) (shiftRows_length _)]
  rfl

/-- The cipher's block has 16 bytes under every schedule. -/
theorem aesEncryptBlock_length {rk : List Byte} (h : rk.length = 176) (block : List Byte) :
    (aesEncryptBlock rk block).length = 16 := by
  simp only [aesEncryptBlock, xorBytes_length, shiftRows_length, roundKey_length h (Nat.le_refl 10), Nat.min_self]

/-! ## CFB -/

theorem cfbEncrypt_nil (rk iv : List Byte) : cfbEncrypt rk [] iv = [] := rfl

/-- The recursion of CFB: one block, then the rest with the block's ciphertext fed back. -/
theorem cfbEncrypt_of_ne_nil (rk iv : List Byte) {data : List Byte} (h : data ≠ []) :
    cfbEncrypt rk data iv = xorBytes (data.take 16) (aesEncryptBlock rk iv)
      ++ cfbEncrypt rk (data.drop 16) (xorBytes (data.take 16) (aesEncryptBlock rk iv)) := by
  rw [cfbEncrypt, blocksOf_of_ne_nil (by omega) h]
  rfl

/-- R140: the output is as long as the input. -/
theorem cfbEncrypt_length {rk : List Byte} (h : rk.length = 176) (data iv : List Byte) :
    (cfbEncrypt rk data iv).length = data.length := by
  induction hl : data.length using Nat.strong_induction_on generalizing data iv with
  | _ l ih =>
    by_cases hd : data = []
    · subst hd; simp at hl; subst hl; rfl
    · have hpos := List.length_pos_iff.mpr hd
      rw [cfbEncrypt_of_ne_nil rk iv hd, List.length_append, xorBytes_length, aesEncryptBlock_length h,
        ih (data.drop 16).length (by rw [List.length_drop]; omega) _ _ rfl, List.length_take, List.length_drop]
      omega

end Sys2Proof.Machine
end

