-- ==== Sys2Proof/Laws/Bytes.lean ====
section
/-! SUPPORT. The byte-order helpers, the field readers against the writers, and the frame codec. -/

namespace Sys2Proof

theorem le16_length (v : Nat) : (le16 v).length = 2 := rfl

theorem le32_length (v : Word) : (le32 v).length = 4 := rfl

theorem fromLe16_le16 {v : Nat} (h : v < 65536) :
    fromLe16 (BitVec.ofNat 8 v) (BitVec.ofNat 8 (v / 256)) = v := by
  simp only [fromLe16, BitVec.toNat_ofNat]; omega

theorem le16_fromLe16 (lo hi : Byte) : le16 (fromLe16 lo hi) = [lo, hi] := by
  have h1 := lo.isLt
  have h2 := hi.isLt
  simp only [le16, fromLe16, List.cons.injEq, and_true]
  constructor <;> apply BitVec.eq_of_toNat_eq <;> simp only [BitVec.toNat_ofNat] <;> omega

theorem fromLe16_lt (lo hi : Byte) : fromLe16 lo hi < 65536 := by
  have h1 := lo.isLt
  have h2 := hi.isLt
  simp only [fromLe16]; omega

theorem readU32_le32 (v : Word) (p : List Byte) : readU32 (le32 v ++ p) = some (v, p) := by
  simp only [le32, List.cons_append, List.nil_append, readU32, Option.some.injEq, Prod.mk.injEq, and_true, fromLe32]
  ext i hi
  simp only [BitVec.getElem_append, BitVec.getElem_extractLsb']
  split
  · simp [BitVec.getLsbD_eq_getElem, hi]
  · split
    · rw [← BitVec.getLsbD_eq_getElem]; congr 1; omega
    · split <;> rw [← BitVec.getLsbD_eq_getElem] <;> congr 1 <;> omega

theorem readFix_append {n : Nat} {b : List Byte} (p : List Byte) (h : b.length = n) :
    readFix n (b ++ p) = some (b, p) := by
  subst h; simp [readFix]

/-- The reader of a `var` field reads back what its writer wrote. -/
theorem readVar_varField {b : List Byte} (p : List Byte) (h : b.length ≤ Config.varMax) :
    readVar (varField b ++ p) = some (b, p) := by
  have h' : b.length < 65536 := by simp only [Config.varMax] at h; omega
  simp [readVar, varField, le16, readU16, fromLe16_le16 h', readFix]

/-- What a `var` field that was read looked like, and that its length fits. -/
theorem readVar_eq_some {p b q : List Byte} (h : readVar p = some (b, q)) :
    p = varField b ++ q ∧ b.length ≤ Config.varMax := by
  match p, h with
  | lo :: hi :: p, h =>
    simp only [readVar, readU16, readFix, Option.bind_eq_bind, Option.bind_some] at h
    split at h
    · rename_i hn
      simp only [Option.some.injEq, Prod.mk.injEq] at h
      obtain ⟨rfl, rfl⟩ := h
      have := fromLe16_lt lo hi
      refine ⟨?_, by simp [Config.varMax]; omega⟩
      simp [varField, List.length_take, Nat.min_eq_left hn, le16_fromLe16]
    · simp at h
  | [_], h => simp [readVar, readU16] at h
  | [], h => simp [readVar, readU16] at h

theorem readFix_eq_some {n : Nat} {p b q : List Byte} (h : readFix n p = some (b, q)) :
    p = b ++ q ∧ b.length = n := by
  simp only [readFix] at h
  split at h
  · rename_i hn
    simp only [Option.some.injEq, Prod.mk.injEq] at h
    obtain ⟨rfl, rfl⟩ := h
    simp [hn]
  · simp at h

theorem i2osp_length (v n : Nat) : (i2osp v n).length = n := by
  induction n generalizing v with
  | zero => rfl
  | succ n ih => simp [i2osp, ih]

theorem os2ip_append_singleton (b : List Byte) (x : Byte) : os2ip (b ++ [x]) = 256 * os2ip b + x.toNat := by
  simp [os2ip]

theorem os2ip_i2osp {v n : Nat} (h : v < 256 ^ n) : os2ip (i2osp v n) = v := by
  induction n generalizing v with
  | zero => simp [i2osp, os2ip]; simp at h; omega
  | succ n ih =>
    rw [i2osp, os2ip_append_singleton, ih (by rw [Nat.pow_succ] at h; omega)]
    simp only [BitVec.toNat_ofNat]; omega

theorem os2ip_lt (b : List Byte) : os2ip b < 256 ^ b.length := by
  induction b using List.reverseRecOn with
  | nil => simp [os2ip]
  | append_singleton b x ih =>
    rw [os2ip_append_singleton, List.length_append, List.length_singleton, Nat.pow_succ]
    have := x.isLt
    omega

/-! ## Frames -/

theorem headerByte_type (t : BitVec 2) (st : BitVec 6) : (headerByte t st).extractLsb' 0 2 = t := by
  revert t st; decide +kernel

theorem headerByte_subtype (t : BitVec 2) (st : BitVec 6) : (headerByte t st).extractLsb' 2 6 = st := by
  revert t st; decide +kernel

theorem headerByte_extract (b : Byte) : headerByte (b.extractLsb' 0 2) (b.extractLsb' 2 6) = b := by
  revert b; decide +kernel

/-- A decoded frame has a payload that R165 admits. -/
theorem frameDecode_payload {b : List Byte} {f : Frame} (h : frameDecode b = some f) :
    f.payload.length ≤ Config.payloadMax := by
  unfold frameDecode at h
  split at h
  · split at h
    · simp only [Option.some.injEq] at h
      subst h
      rename_i len rest _
      have := len.isLt
      simp only [List.length_take, Config.payloadMax]; omega
    · simp at h
  · simp at h

/-- R171 with trailing bytes. -/
theorem frameDecode_frameEncode {f : Frame} (t : List Byte) (h : f.payload.length ≤ Config.payloadMax) :
    frameDecode (frameEncode f ++ t) = some f := by
  have h' : f.payload.length % 256 = f.payload.length := by simp only [Config.payloadMax] at h; omega
  simp [frameEncode, frameDecode, headerByte_type, headerByte_subtype, h']

end Sys2Proof
end

