-- ==== Sys2Proof/Laws/Decode.lean ====
section
/-! SUPPORT. What each row of R73 reads, one lemma per opcode, the inversion of the scalar readers, and what the
decoder of descriptors can answer, said once. -/

namespace Sys2Proof

@[simp] theorem readU8_cons (b : Byte) (p : List Byte) : readU8 (b :: p) = some (b, p) := rfl

theorem readU8_eq_some {p q : List Byte} {b : Byte} (h : readU8 p = some (b, q)) : p = b :: q := by
  cases p with
  | nil => simp [readU8] at h
  | cons x p => simpa [readU8] using h

theorem fromLe32_toNat (b0 b1 b2 b3 : Byte) :
    (fromLe32 b0 b1 b2 b3).toNat = b0.toNat + 256 * b1.toNat + 65536 * b2.toNat + 16777216 * b3.toNat := by
  have h0 := b0.isLt
  have h1 := b1.isLt
  have h2 := b2.isLt
  have e (m : Nat) (b : Byte) : m <<< 8 ||| b.toNat = m * 256 + b.toNat := by
    rw [← Nat.shiftLeft_add_eq_or_of_lt b.isLt, Nat.shiftLeft_eq]
  simp only [fromLe32, BitVec.toNat_append, e]
  omega

theorem le32_fromLe32 (b0 b1 b2 b3 : Byte) : le32 (fromLe32 b0 b1 b2 b3) = [b0, b1, b2, b3] := by
  have h0 := b0.isLt
  have h1 := b1.isLt
  have h2 := b2.isLt
  have h3 := b3.isLt
  simp only [le32, List.cons.injEq, and_true]
  refine ⟨?_, ?_, ?_, ?_⟩ <;> apply BitVec.eq_of_toNat_eq <;>
    simp only [BitVec.extractLsb'_toNat, fromLe32_toNat, Nat.shiftRight_eq_div_pow] <;> omega

theorem readU32_eq_some {p q : List Byte} {v : Word} (h : readU32 p = some (v, q)) : p = le32 v ++ q := by
  unfold readU32 at h
  split at h
  · simp only [Option.some.injEq, Prod.mk.injEq] at h
    obtain ⟨rfl, rfl⟩ := h
    simp [le32_fromLe32]
  · simp at h

/-! ## The rows of R73 -/

section
variable (p : List Byte)

theorem readOperands_md5 : readOperands 0x01#8 p = (readVar p).bind fun r => some (.md5 r.1, r.2) := rfl
theorem readOperands_aesSetkey : readOperands 0x02#8 p = (readFix 16 p).bind fun r => some (.aesSetkey r.1, r.2) := rfl
theorem readOperands_aesEncblk : readOperands 0x03#8 p = (readFix 16 p).bind fun r => some (.aesEncblk r.1, r.2) := rfl
theorem readOperands_cfbEnc : readOperands 0x04#8 p = (readFix 16 p).bind fun r => (readVar r.2).bind fun r₁ =>
    some (.cfbEnc r.1 r₁.1, r₁.2) := rfl
theorem readOperands_modpow : readOperands 0x05#8 p = (readVar p).bind fun r => (readVar r.2).bind fun r₁ =>
    (readVar r₁.2).bind fun r₂ => some (.modpow r.1 r₁.1 r₂.1, r₂.2) := rfl
theorem readOperands_frameEnc : readOperands 0x06#8 p = (readU8 p).bind fun r => (readU8 r.2).bind fun r₁ =>
    (readU8 r₁.2).bind fun r₂ => (readU8 r₂.2).bind fun r₃ => (readVar r₃.2).bind fun r₄ =>
    some (.frameEnc r.1 r₁.1 r₂.1 r₃.1 r₄.1, r₄.2) := rfl
theorem readOperands_frameDec : readOperands 0x07#8 p = (readVar p).bind fun r => some (.frameDec r.1, r.2) := rfl
theorem readOperands_frameTx : readOperands 0x08#8 p = (readU8 p).bind fun r => (readU8 r.2).bind fun r₁ =>
    (readU8 r₁.2).bind fun r₂ => (readVar r₂.2).bind fun r₃ => some (.frameTx r.1 r₁.1 r₂.1 r₃.1, r₃.2) := rfl
theorem readOperands_frameTxEnc : readOperands 0x09#8 p = (readU8 p).bind fun r => (readU8 r.2).bind fun r₁ =>
    (readU8 r₁.2).bind fun r₂ => (readVar r₂.2).bind fun r₃ => some (.frameTxEnc r.1 r₁.1 r₂.1 r₃.1, r₃.2) := rfl
theorem readOperands_frag : readOperands 0x0A#8 p = (readVar p).bind fun r => some (.frag r.1, r.2) := rfl
theorem readOperands_reasmPush : readOperands 0x0B#8 p = (readU8 p).bind fun r => (readVar r.2).bind fun r₁ =>
    some (.reasmPush r.1 r₁.1, r₁.2) := rfl
theorem readOperands_reasmReset : readOperands 0x0C#8 p = some (.reasmReset, p) := rfl
theorem readOperands_reqIssue : readOperands 0x0D#8 p = (readU32 p).bind fun r => some (.reqIssue r.1, r.2) := rfl
theorem readOperands_reqCollect : readOperands 0x0E#8 p = some (.reqCollect, p) := rfl
theorem readOperands_getStatus : readOperands 0x0F#8 p = some (.getStatus, p) := rfl
theorem readOperands_sessionInit : readOperands 0x10#8 p = some (.sessionInit, p) := rfl
theorem readOperands_sessionEnd : readOperands 0x11#8 p = some (.sessionEnd, p) := rfl
theorem readOperands_clrFlags : readOperands 0x12#8 p = (readU8 p).bind fun r => some (.clrFlags r.1, r.2) := rfl

end

/-- A frame row is the row that its own frame belongs to, when the decoder's naming is used (log 8). -/
theorem frameInstr_of_instrFrame {i : Instr} {f : Frame} (h : instrFrame i = some f) (hc : canonical i = true) :
    frameInstr f = i := by
  cases i <;> simp only [instrFrame, Option.some.injEq, reduceCtorEq] at h <;> subst h
  case frameGeneric => simpa [canonical] using hc
  all_goals simp [frameInstr, headerByte]

/-- The row of a frame stands for that frame. -/
theorem instrFrame_frameInstr (f : Frame) : instrFrame (frameInstr f) = some f := by
  have h : ∀ (t : BitVec 2) (st : BitVec 6) (t' : BitVec 2) (st' : BitVec 6),
      (headerByte t st).toNat = (headerByte t' st').toNat → t = t' ∧ st = st' := by
    intro t st t' st' he
    have he := BitVec.eq_of_toNat_eq he
    exact ⟨by rw [← headerByte_type t st, he, headerByte_type], by rw [← headerByte_subtype t st, he, headerByte_subtype]⟩
  obtain ⟨t, st, fc, seq, pl⟩ := f
  unfold frameInstr
  split
  case _ he => obtain ⟨rfl, rfl⟩ := h t st 1 0x00 he; rfl
  case _ he => obtain ⟨rfl, rfl⟩ := h t st 1 0x02 he; rfl
  case _ he => obtain ⟨rfl, rfl⟩ := h t st 1 0x03 he; rfl
  case _ he => obtain ⟨rfl, rfl⟩ := h t st 1 0x0F he; rfl
  case _ he => obtain ⟨rfl, rfl⟩ := h t st 1 0x11 he; rfl
  case _ he => obtain ⟨rfl, rfl⟩ := h t st 0 0x03 he; rfl
  case _ he => obtain ⟨rfl, rfl⟩ := h t st 0 0x09 he; rfl
  case _ => rfl

/-! ## The encoder, row by row (unfolding `encode` is slow: cite these) -/

theorem encode_frame {i : Instr} {f : Frame} (h : instrFrame i = some f) : encode i = .rx (frameEncode f) := by
  cases i <;> simp only [instrFrame, Option.some.injEq, reduceCtorEq] at h <;> subst h <;> rfl

/-- A command and a reserved row travel as their descriptor. -/
theorem encode_command {i : Instr} (h : encodeCmd i ≠ []) : encode i = .cmd (encodeCmd i) := by
  cases i
  all_goals first | rfl | exact absurd rfl h

theorem encode_reserved (d : List Byte) : encode (.reserved d) = .cmd d := rfl

/-- The decoder on a notification that is the frame of a well-formed frame row. -/
theorem decodeRx_frameEncode {f : Frame} (h : f.payload.length ≤ Config.payloadMax) :
    decodeRx (frameEncode f) = frameInstr f := by
  have hd := frameDecode_frameEncode [] h
  rw [List.append_nil] at hd
  rw [decodeRx, hd]

/-- What `decodeCmd` can answer (R72), said once. -/
theorem decodeCmd_cases (d : List Byte) :
    reservedDescriptor d = true ∧ decodeCmd d = .ok (.reserved d) ∨
    reservedDescriptor d = false ∧ ∃ op p, d = op :: p ∧ reservedOpcode op = false ∧
      ((∃ i, readOperands op p = some (i, []) ∧ decodeCmd d = .ok i) ∨
        (∀ i, readOperands op p ≠ some (i, [])) ∧ decodeCmd d = .error .badDescriptor) := by
  match d with
  | [] => exact .inl ⟨rfl, rfl⟩
  | op :: p =>
    by_cases h : reservedOpcode op = true
    · exact .inl ⟨h, by simp only [decodeCmd, if_pos h]⟩
    · refine .inr ⟨by simpa [reservedDescriptor] using h, op, p, rfl, by simpa using h, ?_⟩
      simp only [decodeCmd, if_neg h]
      split
      · rename_i i hi; exact .inl ⟨i, hi, rfl⟩
      · rename_i hn; exact .inr ⟨hn, rfl⟩

end Sys2Proof
end

