-- ==== Sys2Proof/Laws/Exec.lean ====
section
/-! SUPPORT. What a step can do, said once: the command or event behind each instruction, and the inversion of `fetch`
and `step`. -/

namespace Sys2Proof.Machine

/-- The command behind an instruction that is one. -/
def commandOf : Instr → Option (Engine → Engine × List Byte)
  | .md5 msg => some (cmdMd5 msg)
  | .aesSetkey key => some (cmdAesSetkey key)
  | .aesEncblk block => some (cmdAesEncblk block)
  | .cfbEnc iv data => some (cmdCfbEnc iv data)
  | .modpow base exp mod => some (cmdModpow base exp mod)
  | .frameEnc type subtype fc seq payload => some (cmdFrameEnc type subtype fc seq payload)
  | .frameDec buf => some (cmdFrameDec buf)
  | .frameTx type subtype fc payload => some (cmdFrameTx type subtype fc payload)
  | .frameTxEnc type subtype fc payload => some (cmdFrameTxEnc type subtype fc payload)
  | .frag data => some (cmdFrag data)
  | .reasmPush fc payload => some (cmdReasmPush fc payload)
  | .reasmReset => some cmdReasmReset
  | .reqIssue t => some (cmdReqIssue t)
  | .reqCollect => some cmdReqCollect
  | .getStatus => some cmdGetStatus
  | .sessionInit => some cmdSessionInit
  | .sessionEnd => some cmdSessionEnd
  | .clrFlags mask => some (cmdClrFlags mask)
  | .reserved _ => some (raise .errOpcode)
  | .frameEnc4 type subtype seq payload => some (cmdFrameEnc type subtype 0x00 seq payload)
  | .rxNotify _ => none
  | .tick => none
  | .frameDataNeg _ _ _ => none
  | .frameDataSsid _ _ _ => none
  | .frameDataPassword _ _ _ => none
  | .frameDataStatus _ _ _ => none
  | .frameDataWifilist _ _ _ => none
  | .frameCtrlApply _ _ _ => none
  | .frameCtrlScan _ _ _ => none
  | .frameGeneric _ _ _ _ _ => none
  | .send _ => none
  | .wait => none
  | .request _ => none
  | .sleep _ => none

/-- An instruction with a command behind it is that command's step. -/
theorem exec_command {i : Instr} {f : Engine → Engine × List Byte} (h : commandOf i = some f) (s : State) :
    exec i s = .next (s.command f) := by
  cases i
  all_goals first | exact congrArg (fun f => Host.Outcome.next (s.command f)) (Option.some.inj h) | exact nomatch h

/-- What an instruction does to the engine. -/
def engineEffect (i : Instr) (e : Engine) : Engine :=
  match i with
  | .md5 msg => (cmdMd5 msg e).1
  | .aesSetkey key => (cmdAesSetkey key e).1
  | .aesEncblk block => (cmdAesEncblk block e).1
  | .cfbEnc iv data => (cmdCfbEnc iv data e).1
  | .modpow base exp mod => (cmdModpow base exp mod e).1
  | .frameEnc type subtype fc seq payload => (cmdFrameEnc type subtype fc seq payload e).1
  | .frameDec buf => (cmdFrameDec buf e).1
  | .frameTx type subtype fc payload => (cmdFrameTx type subtype fc payload e).1
  | .frameTxEnc type subtype fc payload => (cmdFrameTxEnc type subtype fc payload e).1
  | .frag data => (cmdFrag data e).1
  | .reasmPush fc payload => (cmdReasmPush fc payload e).1
  | .reasmReset => (cmdReasmReset e).1
  | .reqIssue t => (cmdReqIssue t e).1
  | .reqCollect => (cmdReqCollect e).1
  | .getStatus => (cmdGetStatus e).1
  | .sessionInit => (cmdSessionInit e).1
  | .sessionEnd => (cmdSessionEnd e).1
  | .clrFlags mask => (cmdClrFlags mask e).1
  | .reserved _ => e
  | .rxNotify b => receive b e
  | .tick => tickEngine e
  | .frameDataNeg fc seq payload => receive (frameEncode ⟨1, 0x00, fc, seq, payload⟩) e
  | .frameDataSsid fc seq payload => receive (frameEncode ⟨1, 0x02, fc, seq, payload⟩) e
  | .frameDataPassword fc seq payload => receive (frameEncode ⟨1, 0x03, fc, seq, payload⟩) e
  | .frameDataStatus fc seq payload => receive (frameEncode ⟨1, 0x0F, fc, seq, payload⟩) e
  | .frameDataWifilist fc seq payload => receive (frameEncode ⟨1, 0x11, fc, seq, payload⟩) e
  | .frameCtrlApply fc seq payload => receive (frameEncode ⟨0, 0x03, fc, seq, payload⟩) e
  | .frameCtrlScan fc seq payload => receive (frameEncode ⟨0, 0x09, fc, seq, payload⟩) e
  | .frameGeneric type subtype fc seq payload => receive (frameEncode ⟨type, subtype, fc, seq, payload⟩) e
  | .frameEnc4 type subtype seq payload => (cmdFrameEnc type subtype 0x00 seq payload e).1
  | .send _ => e
  | .wait => e
  | .request t => (cmdReqIssue t e).1
  | .sleep _ => e

/-- Every instruction answers a next state, whose engine is `engineEffect`. -/
theorem exec_engine (i : Instr) (s : State) : ∃ s', exec i s = .next s' ∧ s'.engine = engineEffect i s.engine := by
  cases i
  case send f => exact ⟨_, rfl, State.callTransport_engine _ _⟩
  all_goals exact ⟨_, rfl, rfl⟩

theorem exec_next_engine {i : Instr} {s s' : State} (h : exec i s = .next s') :
    s'.engine = engineEffect i s.engine := by
  obtain ⟨t, ht, he⟩ := exec_engine i s
  rw [h] at ht
  cases ht
  exact he

/-! ## The host's computations leave the engine alone -/

theorem State.withResult_engine {α : Type} {parse : List Byte → Option α} {s : State} {k : α → State}
    (h : ∀ x, (k x).engine = s.engine) : (s.withResult parse k).engine = s.engine := by
  unfold State.withResult
  simp only
  split
  · split
    · exact h _
    · rfl
  · rfl

theorem pollStep_engine (goal : PollGoal) (left : Nat) (s : State) : (pollStep goal left s).engine = s.engine := by
  unfold pollStep; split <;> rfl

theorem resume_engine (k : Kont) (s : State) : (resume k s).engine = s.engine := by
  cases k <;> simp only [resume]
  case expectOk => exact State.withResult_engine fun _ => rfl
  case sendFrame => exact State.withResult_engine fun _ => rfl
  case sendFrames => exact State.withResult_engine fun _ => rfl
  case nego => rfl
  case publicKey => exact State.withResult_engine fun _ => rfl
  case peerKey =>
    split
    · rfl
    · exact State.withResult_engine fun _ => by split <;> rfl
  case sharedSecret => exact State.withResult_engine fun _ => rfl
  case sessionKey => exact State.withResult_engine fun _ => rfl
  case discovered => rfl
  case sessionInit =>
    split
    · rfl
    · exact State.withResult_engine fun _ => rfl
  case poll => exact pollStep_engine _ _ _
  case polled =>
    split
    · exact pollStep_engine _ _ _
    · refine State.withResult_engine fun _ => ?_
      split
      · rfl
      · exact pollStep_engine _ _ _
  case report => rfl

theorem startUseCase_engine (u : UseCase) (s : State) : (startUseCase u s).engine = s.engine := by
  cases u <;> rfl

/-! ## Inversion of fetch and step -/

theorem fetchHost_run_engine {s s' : State} {t : Transaction} (h : fetchHost s = .run t s') :
    s'.engine = s.engine := by
  unfold fetchHost at h
  split at h
  · split at h <;> simp only [Fetched.run.injEq, reduceCtorEq] at h <;> rw [← h.2]
  · simp at h

theorem fetchHost_move_engine {s s' : State} (h : fetchHost s = .move s') : s'.engine = s.engine := by
  unfold fetchHost at h
  split at h
  · split at h <;> simp only [Fetched.move.injEq, reduceCtorEq] at h <;> rw [← h]
    · exact State.callTransport_engine _ _
    · exact startUseCase_engine _ _
    · exact resume_engine _ _
  · simp only [Fetched.move.injEq] at h; rw [← h]

/-- A transaction is fetched with the engine as it stands. -/
theorem fetch_run_engine {s s' : State} {t : Transaction} (h : fetch s = .run t s') : s'.engine = s.engine := by
  unfold fetch at h
  split at h <;> try simp only [Fetched.run.injEq, reduceCtorEq] at h
  · exact (fetchHost_run_engine h).trans rfl
  · rw [← h.2]
  · rw [← h.2]

/-- A move that is no instruction leaves the engine alone, but for a reset turn. -/
theorem fetch_move_engine {s s' : State} (h : fetch s = .move s') :
    s'.engine = s.engine ∨ s.turns.head? = some .reset ∧ s'.engine = Engine.reset := by
  unfold fetch at h
  split at h <;> try simp only [Fetched.move.injEq, reduceCtorEq] at h
  · left; rw [← h]
  · left; exact (fetchHost_move_engine h).trans rfl
  · right
    rename_i heq
    rw [← h, heq]
    exact ⟨rfl, rfl⟩
  · left; rw [← h]
  · left; rw [← h]

/-- What a step can do to the engine, said once: nothing, a reset, or the effect of the one instruction it ran. -/
theorem step_engine {s s' : State} (h : step s = .next s') :
    s'.engine = s.engine ∨ (s.turns.head? = some .reset ∧ s'.engine = Engine.reset) ∨
    ∃ t s₁ i, fetch s = .run t s₁ ∧ decode t = .ok i ∧ s₁.engine = s.engine ∧ exec i s₁ = .next s' ∧
      s'.engine = engineEffect i s.engine := by
  unfold step at h
  split at h
  · rename_i s₁ hf
    cases h
    exact (fetch_move_engine hf).imp_right .inl
  · rename_i t s₁ hf
    have he := fetch_run_engine hf
    split at h
    · rename_i i hd
      exact .inr (.inr ⟨t, s₁, i, hf, hd, he, h, he ▸ exec_next_engine h⟩)
    · cases h
      exact .inl he

end Sys2Proof.Machine
end

