-- ==== Sys2Proof/Laws/Effects.lean ====
section
/-! SUPPORT. Which instructions can change a piece of the engine's persistent state, said once per piece. -/

namespace Sys2Proof.Machine

/-- R25: what writes SEQ. -/
theorem engineEffect_seq {i : Instr} {e : Engine} (h : (engineEffect i e).seq ≠ e.seq) :
    takesSeq i = true ∨ i = .sessionInit := by
  cases i
  case frameTx => exact .inl rfl
  case frameTxEnc => exact .inl rfl
  case frag => exact .inl rfl
  case sessionInit => exact .inr rfl
  all_goals (exfalso; apply h; simp only [engineEffect])
  case aesSetkey => unfold cmdAesSetkey; split <;> rfl
  case aesEncblk => unfold cmdAesEncblk; split <;> rfl
  case cfbEnc => unfold cmdCfbEnc; split <;> rfl
  case modpow =>
    unfold cmdModpow; split
    · rfl
    · split <;> rfl
  case frameEnc => unfold cmdFrameEnc; split <;> rfl
  case frameEnc4 => unfold cmdFrameEnc; split <;> rfl
  case frameDec => unfold cmdFrameDec; split <;> rfl
  case reasmPush =>
    unfold cmdReasmPush; split
    · rfl
    · split <;> rfl
  case reqIssue => unfold cmdReqIssue; split <;> rfl
  case request => unfold cmdReqIssue; split <;> rfl
  case reqCollect => unfold cmdReqCollect; split <;> rfl
  case tick => unfold tickEngine; split <;> rfl
  case md5 => rfl
  case reasmReset => rfl
  case getStatus => rfl
  case sessionEnd => rfl
  case clrFlags => rfl
  all_goals
    unfold receive receiveFrame; split
    · rfl
    · split <;> rfl

/-- R27: what writes RA_ACTIVE, RA_TOTAL, RA_BUF. -/
theorem engineEffect_ra {i : Instr} {e : Engine} (h : (engineEffect i e).ra ≠ e.ra) :
    i = .reasmReset ∨ i = .sessionInit ∨ ∃ fc pl, i = .reasmPush fc pl := by
  cases i
  case reasmPush => simp
  case reasmReset => simp
  case sessionInit => simp
  all_goals (exfalso; apply h; simp only [engineEffect])
  case aesSetkey => unfold cmdAesSetkey; split <;> rfl
  case aesEncblk => unfold cmdAesEncblk; split <;> rfl
  case cfbEnc => unfold cmdCfbEnc; split <;> rfl
  case modpow =>
    unfold cmdModpow; split
    · rfl
    · split <;> rfl
  case frameEnc => unfold cmdFrameEnc; split <;> rfl
  case frameEnc4 => unfold cmdFrameEnc; split <;> rfl
  case frameDec => unfold cmdFrameDec; split <;> rfl
  case frameTx => unfold cmdFrameTx; split <;> rfl
  case frameTxEnc =>
    unfold cmdFrameTxEnc; split
    · rfl
    · split <;> rfl
  case reqIssue => unfold cmdReqIssue; split <;> rfl
  case request => unfold cmdReqIssue; split <;> rfl
  case reqCollect => unfold cmdReqCollect; split <;> rfl
  case tick => unfold tickEngine; split <;> rfl
  case md5 => rfl
  case frag => rfl
  case getStatus => rfl
  case sessionEnd => rfl
  case clrFlags => rfl
  all_goals
    unfold receive receiveFrame; split
    · rfl
    · split <;> rfl

/-- R206: what writes CORR_STATE, CORR_REMAIN, CORR_FRAME. -/
theorem engineEffect_corr {i : Instr} {e : Engine} (h : (engineEffect i e).corr ≠ e.corr) :
    (∃ t, i = .reqIssue t) ∨ (∃ t, i = .request t) ∨ i = .reqCollect ∨ i = .tick ∨ notifies i = true := by
  cases i
  case reqIssue => simp
  case request => simp
  case reqCollect => simp
  case tick => simp
  case rxNotify => simp [notifies]
  case frameDataNeg => simp [notifies]
  case frameDataSsid => simp [notifies]
  case frameDataPassword => simp [notifies]
  case frameDataStatus => simp [notifies]
  case frameDataWifilist => simp [notifies]
  case frameCtrlApply => simp [notifies]
  case frameCtrlScan => simp [notifies]
  case frameGeneric => simp [notifies]
  all_goals (exfalso; apply h; simp only [engineEffect])
  case aesSetkey => unfold cmdAesSetkey; split <;> rfl
  case aesEncblk => unfold cmdAesEncblk; split <;> rfl
  case cfbEnc => unfold cmdCfbEnc; split <;> rfl
  case modpow =>
    unfold cmdModpow; split
    · rfl
    · split <;> rfl
  case frameEnc => unfold cmdFrameEnc; split <;> rfl
  case frameEnc4 => unfold cmdFrameEnc; split <;> rfl
  case frameDec => unfold cmdFrameDec; split <;> rfl
  case frameTx => unfold cmdFrameTx; split <;> rfl
  case frameTxEnc =>
    unfold cmdFrameTxEnc; split
    · rfl
    · split <;> rfl
  case reasmPush =>
    unfold cmdReasmPush; split
    · rfl
    · split <;> rfl
  case sessionInit => unfold cmdSessionInit; split <;> rfl
  case md5 => rfl
  case frag => rfl
  case reasmReset => rfl
  case getStatus => rfl
  case sessionEnd => rfl
  case clrFlags => rfl

/-- R26: what writes AES_RK and KEYVALID. -/
theorem engineEffect_aesRk {i : Instr} {e : Engine} (h : (engineEffect i e).aesRk ≠ e.aesRk) :
    (∃ key, i = .aesSetkey key ∧ e.aesRk = none) ∨ i = .sessionEnd ∨ i = .sessionInit := by
  cases i
  case aesSetkey =>
    rcases hk : e.aesRk with _ | rk
    · exact .inl ⟨_, rfl, rfl⟩
    · exfalso; apply h; simp [engineEffect, cmdAesSetkey, Engine.keyValid, hk, raise]
  case sessionEnd => simp
  case sessionInit => simp
  all_goals (exfalso; apply h; simp only [engineEffect])
  case aesEncblk => unfold cmdAesEncblk; split <;> rfl
  case cfbEnc => unfold cmdCfbEnc; split <;> rfl
  case modpow =>
    unfold cmdModpow; split
    · rfl
    · split <;> rfl
  case frameEnc => unfold cmdFrameEnc; split <;> rfl
  case frameEnc4 => unfold cmdFrameEnc; split <;> rfl
  case frameDec => unfold cmdFrameDec; split <;> rfl
  case frameTx => unfold cmdFrameTx; split <;> rfl
  case frameTxEnc =>
    unfold cmdFrameTxEnc; split
    · rfl
    · split <;> rfl
  case reasmPush =>
    unfold cmdReasmPush; split
    · rfl
    · split <;> rfl
  case reqIssue => unfold cmdReqIssue; split <;> rfl
  case request => unfold cmdReqIssue; split <;> rfl
  case reqCollect => unfold cmdReqCollect; split <;> rfl
  case tick => unfold tickEngine; split <;> rfl
  case md5 => rfl
  case frag => rfl
  case reasmReset => rfl
  case getStatus => rfl
  case clrFlags => rfl
  all_goals
    unfold receive receiveFrame; split
    · rfl
    · split <;> rfl

/-- The step in terms of `Runs` and `Resets`: nothing, a reset, or the effect of the instruction it ran. -/
theorem step_engine_runs {s s' : State} (h : step s = .next s') :
    s'.engine = s.engine ∨ (s.Resets ∧ s'.engine = Engine.reset) ∨
    ∃ i, s.Runs i ∧ s'.engine = engineEffect i s.engine := by
  rcases step_engine h with h | h | ⟨t, s₁, i, h1, h2, _, _, h5⟩
  · exact .inl h
  · exact .inr (.inl h)
  · exact .inr (.inr ⟨i, ⟨t, s₁, h1, h2⟩, h5⟩)

end Sys2Proof.Machine
end

