-- ==== Sys2Proof/Laws/PerInstr.lean ====
section
/-! SUPPORT. A law of the encoding, one lemma per instruction: the first byte that R73 or R82 gives its row. -/

namespace Sys2Proof.Laws.OpcodeByte

/-- The opcode of R73 or the catalog byte of R82; none for the rows that have neither. -/
def firstByte : Instr → Option Byte
  | .md5 _ => some 0x01
  | .aesSetkey _ => some 0x02
  | .aesEncblk _ => some 0x03
  | .cfbEnc _ _ => some 0x04
  | .modpow _ _ _ => some 0x05
  | .frameEnc _ _ _ _ _ => some 0x06
  | .frameDec _ => some 0x07
  | .frameTx _ _ _ _ => some 0x08
  | .frameTxEnc _ _ _ _ => some 0x09
  | .frag _ => some 0x0A
  | .reasmPush _ _ => some 0x0B
  | .reasmReset => some 0x0C
  | .reqIssue _ => some 0x0D
  | .reqCollect => some 0x0E
  | .getStatus => some 0x0F
  | .sessionInit => some 0x10
  | .sessionEnd => some 0x11
  | .clrFlags _ => some 0x12
  | .reserved _ => none
  | .rxNotify _ => none
  | .tick => none
  | .frameDataNeg _ _ _ => some 0x01
  | .frameDataSsid _ _ _ => some 0x09
  | .frameDataPassword _ _ _ => some 0x0D
  | .frameDataStatus _ _ _ => some 0x3D
  | .frameDataWifilist _ _ _ => some 0x45
  | .frameCtrlApply _ _ _ => some 0x0C
  | .frameCtrlScan _ _ _ => some 0x24
  | .frameGeneric _ _ _ _ _ => none
  | .frameEnc4 _ _ _ _ => none
  | .send _ => none
  | .wait => none
  | .request _ => none
  | .sleep _ => none

/-- The encoding begins with the row's byte. -/
def Statement (i : Instr) : Prop :=
  ∀ b, firstByte i = some b → ∃ rest, encode i = .cmd (b :: rest) ∨ encode i = .rx (b :: rest)

theorem md5 (msg : List Byte) : Statement (.md5 msg) := by
  intro b hb; cases hb; exact ⟨_, .inl rfl⟩

theorem aesSetkey (key : List Byte) : Statement (.aesSetkey key) := by
  intro b hb; cases hb; exact ⟨_, .inl rfl⟩

theorem aesEncblk (block : List Byte) : Statement (.aesEncblk block) := by
  intro b hb; cases hb; exact ⟨_, .inl rfl⟩

theorem cfbEnc (iv data : List Byte) : Statement (.cfbEnc iv data) := by
  intro b hb; cases hb; exact ⟨_, .inl rfl⟩

theorem modpow (base exp mod : List Byte) : Statement (.modpow base exp mod) := by
  intro b hb; cases hb; exact ⟨_, .inl rfl⟩

theorem frameEnc (type subtype fc seq : Byte) (payload : List Byte) : Statement (.frameEnc type subtype fc seq payload) := by
  intro b hb; cases hb; exact ⟨_, .inl rfl⟩

theorem frameDec (buf : List Byte) : Statement (.frameDec buf) := by
  intro b hb; cases hb; exact ⟨_, .inl rfl⟩

theorem frameTx (type subtype fc : Byte) (payload : List Byte) : Statement (.frameTx type subtype fc payload) := by
  intro b hb; cases hb; exact ⟨_, .inl rfl⟩

theorem frameTxEnc (type subtype fc : Byte) (payload : List Byte) : Statement (.frameTxEnc type subtype fc payload) := by
  intro b hb; cases hb; exact ⟨_, .inl rfl⟩

theorem frag (data : List Byte) : Statement (.frag data) := by
  intro b hb; cases hb; exact ⟨_, .inl rfl⟩

theorem reasmPush (fc : Byte) (payload : List Byte) : Statement (.reasmPush fc payload) := by
  intro b hb; cases hb; exact ⟨_, .inl rfl⟩

theorem reasmReset : Statement .reasmReset := by
  intro b hb; cases hb; exact ⟨_, .inl rfl⟩

theorem reqIssue (t : Word) : Statement (.reqIssue t) := by
  intro b hb; cases hb; exact ⟨_, .inl rfl⟩

theorem reqCollect : Statement .reqCollect := by
  intro b hb; cases hb; exact ⟨_, .inl rfl⟩

theorem getStatus : Statement .getStatus := by
  intro b hb; cases hb; exact ⟨_, .inl rfl⟩

theorem sessionInit : Statement .sessionInit := by
  intro b hb; cases hb; exact ⟨_, .inl rfl⟩

theorem sessionEnd : Statement .sessionEnd := by
  intro b hb; cases hb; exact ⟨_, .inl rfl⟩

theorem clrFlags (mask : Byte) : Statement (.clrFlags mask) := by
  intro b hb; cases hb; exact ⟨_, .inl rfl⟩

theorem reserved (d : List Byte) : Statement (.reserved d) := by
  intro b hb; cases hb

theorem rxNotify (b : List Byte) : Statement (.rxNotify b) := by
  intro b hb; cases hb

theorem tick : Statement .tick := by
  intro b hb; cases hb

theorem frameDataNeg (fc seq : Byte) (payload : List Byte) : Statement (.frameDataNeg fc seq payload) := by
  intro b hb; cases hb
  exact ⟨fc :: seq :: BitVec.ofNat 8 payload.length :: payload, .inr (by simp [encode, frameEncode, headerByte])⟩

theorem frameDataSsid (fc seq : Byte) (payload : List Byte) : Statement (.frameDataSsid fc seq payload) := by
  intro b hb; cases hb
  exact ⟨fc :: seq :: BitVec.ofNat 8 payload.length :: payload, .inr (by simp [encode, frameEncode, headerByte])⟩

theorem frameDataPassword (fc seq : Byte) (payload : List Byte) : Statement (.frameDataPassword fc seq payload) := by
  intro b hb; cases hb
  exact ⟨fc :: seq :: BitVec.ofNat 8 payload.length :: payload, .inr (by simp [encode, frameEncode, headerByte])⟩

theorem frameDataStatus (fc seq : Byte) (payload : List Byte) : Statement (.frameDataStatus fc seq payload) := by
  intro b hb; cases hb
  exact ⟨fc :: seq :: BitVec.ofNat 8 payload.length :: payload, .inr (by simp [encode, frameEncode, headerByte])⟩

theorem frameDataWifilist (fc seq : Byte) (payload : List Byte) : Statement (.frameDataWifilist fc seq payload) := by
  intro b hb; cases hb
  exact ⟨fc :: seq :: BitVec.ofNat 8 payload.length :: payload, .inr (by simp [encode, frameEncode, headerByte])⟩

theorem frameCtrlApply (fc seq : Byte) (payload : List Byte) : Statement (.frameCtrlApply fc seq payload) := by
  intro b hb; cases hb
  exact ⟨fc :: seq :: BitVec.ofNat 8 payload.length :: payload, .inr (by simp [encode, frameEncode, headerByte])⟩

theorem frameCtrlScan (fc seq : Byte) (payload : List Byte) : Statement (.frameCtrlScan fc seq payload) := by
  intro b hb; cases hb
  exact ⟨fc :: seq :: BitVec.ofNat 8 payload.length :: payload, .inr (by simp [encode, frameEncode, headerByte])⟩

theorem frameGeneric (type : BitVec 2) (subtype : BitVec 6) (fc seq : Byte) (payload : List Byte) : Statement (.frameGeneric type subtype fc seq payload) := by
  intro b hb; cases hb

theorem frameEnc4 (type subtype seq : Byte) (payload : List Byte) : Statement (.frameEnc4 type subtype seq payload) := by
  intro b hb; cases hb

theorem send (f : List Byte) : Statement (.send f) := by
  intro b hb; cases hb

theorem wait : Statement .wait := by
  intro b hb; cases hb

theorem request (t : Word) : Statement (.request t) := by
  intro b hb; cases hb

theorem sleep (n : Nat) : Statement (.sleep n) := by
  intro b hb; cases hb

end Sys2Proof.Laws.OpcodeByte
end

