-- ==== Sys2Proof/Laws/Units.lean ====
section
/-! SUPPORT. What each unit's operation can do, said once: modular exponentiation, fragmenter, reassembler, received
frames, host operations. -/

namespace Sys2Proof.Machine

/-! ## Modular exponentiation -/

theorem modpowLoop_spec {m : Nat} (hm : 1 ≤ m) (fuel acc sq e : Nat) (h : e < 2 ^ fuel) (ha : acc < m) :
    modpowLoop m fuel acc sq e < m ∧ modpowLoop m fuel acc sq e % m = acc * sq ^ e % m := by
  induction fuel generalizing acc sq e with
  | zero => simp at h; subst h; simp [modpowLoop, ha]
  | succ f ih =>
    unfold modpowLoop
    split
    · rename_i h0; subst h0; simp [ha]
    · have := ih (if e % 2 = 1 then acc * sq % m else acc) (sq * sq % m) (e / 2)
        (by rw [Nat.pow_succ] at h; omega) (by split; exacts [Nat.mod_lt _ hm, ha])
      refine ⟨this.1, this.2.trans ?_⟩
      have hs : sq ^ e = (sq * sq) ^ (e / 2) * sq ^ (e % 2) := by
        rw [← Nat.pow_two, ← Nat.pow_mul, ← Nat.pow_add]; congr 1; omega
      rw [hs]
      rcases Nat.mod_two_eq_zero_or_one e with h2 | h2 <;> simp only [h2]
      · simp [Nat.mul_mod, Nat.pow_mod]
      · simp only [if_true, Nat.pow_one]
        rw [show acc * ((sq * sq) ^ (e / 2) * sq) = acc * sq * (sq * sq) ^ (e / 2) by ring]
        simp [Nat.mul_mod, Nat.pow_mod]

/-- R150 from R152's loop. -/
theorem modpow_eq (b e : Nat) {m : Nat} (hm : 1 ≤ m) : modpow b e m = b ^ e % m := by
  by_cases h1 : m = 1
  · subst h1
    have := (modpowLoop_spec hm (Nat.log2 e + 1) 0 (b % 1) e Nat.lt_log2_self (by omega)).1
    unfold modpow; simp only [Nat.mod_self]; omega
  · have hlt : 1 % m = 1 := Nat.mod_eq_of_lt (by omega)
    have := modpowLoop_spec hm (Nat.log2 e + 1) (1 % m) (b % m) e Nat.lt_log2_self (by omega)
    unfold modpow
    rw [Nat.mod_eq_of_lt this.1, hlt] at this
    rw [hlt, this.2, Nat.one_mul, ← Nat.pow_mod]

/-! ## MD5 -/

theorem md5Pad_length (msg : List Byte) : (md5Pad msg).length = 64 * ((msg.length + 8) / 64 + 1) := by
  simp [md5Pad, le64, i2osp_length]; omega

/-! ## The fragmenter -/

theorem laterChunks_length : ∀ bs : List (List Byte), (laterChunks bs).length = bs.length
  | [] => rfl
  | [_] => rfl
  | _ :: b :: rest => by simp [laterChunks, laterChunks_length (b :: rest)]

theorem laterChunks_getElem? : ∀ (bs : List (List Byte)) (i : Nat),
    (laterChunks bs)[i]? = bs[i]?.map fun b => (decide (i + 1 < bs.length), b)
  | [], i => by simp [laterChunks]
  | [a], 0 => by simp [laterChunks]
  | [a], i + 1 => by simp [laterChunks]
  | a :: b :: rest, 0 => by simp [laterChunks]
  | a :: b :: rest, i + 1 => by simp [laterChunks, laterChunks_getElem? (b :: rest) i]

theorem laterChunks_mem : ∀ (bs : List (List Byte)) (c : Bool × List Byte), c ∈ laterChunks bs → c.2 ∈ bs
  | [], c, h => by simp [laterChunks] at h
  | [a], c, h => by simp [laterChunks] at h; simp [h]
  | a :: b :: rest, c, h => by
    simp only [laterChunks, List.mem_cons] at h
    rcases h with rfl | h
    · simp
    · exact List.mem_cons_of_mem _ (laterChunks_mem (b :: rest) c h)

/-- The `i`-th block. -/
theorem blocksOf_getElem? {n : Nat} (hn : 0 < n) (b : List Byte) (i : Nat) (hi : i < (b.length + n - 1) / n) :
    (blocksOf n b)[i]? = some ((b.drop (n * i)).take n) := by
  induction i generalizing b with
  | zero =>
    have : b ≠ [] := by rintro rfl; simp at hi; omega
    rw [blocksOf_of_ne_nil hn this]; simp
  | succ i ih =>
    have : b ≠ [] := by rintro rfl; simp at hi; rw [Nat.div_eq_of_lt (by omega)] at hi; omega
    rw [blocksOf_of_ne_nil hn this, List.getElem?_cons_succ, ih]
    · simp [Nat.mul_succ, Nat.add_comm]
    · rw [List.length_drop]
      have hpos := List.length_pos_iff.mpr this
      by_cases hle : n ≤ b.length
      · have e : b.length + n - 1 = (b.length - n + n - 1) + n := by omega
        rw [e, Nat.add_div_right _ hn] at hi; omega
      · have : (b.length + n - 1) / n = 1 := Nat.div_eq_of_lt_le (by omega) (by omega)
        omega

/-- Every chunk has at most 16 payload bytes. -/
theorem fragmentChunks_mem_length {data : List Byte} {c : Bool × List Byte} (h : c ∈ fragmentChunks data) :
    c.2.length ≤ 16 := by
  unfold fragmentChunks at h
  simp only [Config.firstChunk, Config.laterChunk] at h
  split at h
  · simp at h; subst h; simp; omega
  · simp only [List.mem_cons] at h
    rcases h with rfl | h
    · simp [le16]; omega
    · exact (blocksOf_mem (by omega) (laterChunks_mem _ _ h)).2

theorem fragmentFrames_length (seq : Byte) : ∀ cs, (fragmentFrames seq cs).length = cs.length
  | [] => rfl
  | (_, _) :: cs => congrArg (· + 1) (fragmentFrames_length (seq + 1) cs)

/-- R188: the `i`-th frame. -/
theorem fragmentFrames_getElem? : ∀ (seq : Byte) (cs : List (Bool × List Byte)) (i : Nat),
    (fragmentFrames seq cs)[i]? = cs[i]?.map fun c =>
      frameEncode { type := 1, subtype := 0, fc := if c.1 then fcFrag else 0, seq := seq + BitVec.ofNat 8 i, payload := c.2 }
  | _, [], i => by simp [fragmentFrames]
  | seq, (m, p) :: cs, 0 => by simp [fragmentFrames]
  | seq, (m, p) :: cs, i + 1 => by
    simp only [fragmentFrames, List.getElem?_cons_succ, fragmentFrames_getElem? (seq + 1) cs i]
    congr 1; funext c
    congr 2
    apply BitVec.eq_of_toNat_eq; simp; omega

/-- FRAG's results are read back as the frames. -/
theorem readVars_varFields : ∀ (fs : List (List Byte)) (t : List Byte), (∀ f ∈ fs, f.length ≤ Config.varMax) →
    readVars fs.length ((fs.map varField).flatten ++ t) = some fs
  | [], _, _ => rfl
  | f :: fs, t, h => by
    simp only [List.length_cons, readVars, List.map_cons, List.flatten_cons, List.append_assoc]
    rw [readVar_varField _ (h f (by simp))]
    simp [readVars_varFields fs t (fun f hf => h f (by simp [hf]))]

/-! ## Received frames -/

/-- What a notification can do to the engine (R212), said once. -/
theorem receive_cases (b : List Byte) (e : Engine) :
    (frameDecode b = none ∧ receive b e = { e with parseErr := true }) ∨
    ∃ f, frameDecode b = some f ∧
      ((∃ r, e.corr = .awaiting r ∧ receive b e = { e with corr := .resolved r f }) ∨
        ((∀ r, e.corr ≠ .awaiting r) ∧ receive b e = { e with unsolicited := true })) := by
  unfold receive receiveFrame
  split
  · rename_i h; exact .inl ⟨h, rfl⟩
  · rename_i f h
    refine .inr ⟨f, h, ?_⟩
    split
    · rename_i r hr; exact .inl ⟨r, hr, rfl⟩
    · rename_i hn; exact .inr ⟨fun r hr => hn r hr, rfl⟩

/-- A frame of R165, received as its own bytes. -/
theorem receive_frameEncode {f : Frame} (h : f.payload.length ≤ Config.payloadMax) (e : Engine) :
    receive (frameEncode f) e = receiveFrame f e := by
  have hd := frameDecode_frameEncode [] h
  rw [List.append_nil] at hd
  rw [receive, hd]

/-- What a tick can do to the engine (R214), said once. -/
theorem tickEngine_cases (e : Engine) :
    (e.corr = .awaiting 1 ∧ tickEngine e = { e with corr := .timedOut }) ∨
    (∃ r, e.corr = .awaiting r ∧ r ≠ 1 ∧ tickEngine e = { e with corr := .awaiting (r - 1) }) ∨
    ((∀ r, e.corr ≠ .awaiting r) ∧ tickEngine e = e) := by
  unfold tickEngine
  split
  · rename_i r hr
    by_cases h1 : r = 1
    · subst h1; exact .inl ⟨hr, by simp⟩
    · have : r - 1 ≠ 0 := fun hc => h1 (BitVec.sub_eq_iff_eq_add.mp hc)
      exact .inr (.inl ⟨r, hr, h1, by simp only [this, if_false]⟩)
  · rename_i hn; exact .inr (.inr ⟨fun r hr => hn r hr, rfl⟩)

/-! ## The host -/

/-- What a Transport call yields to the host (R289): `discover` its final list, every other call nothing. -/
theorem afterCall_cases (c : TransportCall) (h : HostSide) (inRange : List Device) :
    ((∃ filter durationMs, c = .discover filter durationMs) ∧ h.afterCall inRange c = { h with devices := inRange }) ∨
    ((∀ filter durationMs, c ≠ .discover filter durationMs) ∧ h.afterCall inRange c = h) := by
  cases c
  case discover f d => exact .inl ⟨⟨f, d, rfl⟩, rfl⟩
  all_goals exact .inr ⟨fun _ _ => by simp, rfl⟩

/-- A Transport call is made, or ends the sequence with a TransportError, which only a call that can fail does while the
link is down (R266, R289). -/
theorem callTransport_cases (c : TransportCall) (s : State) :
    ((c.canFail = false ∨ s.linkUp = true) ∧
      s.callTransport c = { s with calls := c :: s.calls, host := s.host.afterCall s.inRange c }) ∨
    (c.canFail = true ∧ s.linkUp = false ∧ s.callTransport c = s.abort .transportError) := by
  unfold State.callTransport
  rcases hc : c.canFail <;> rcases hl : s.linkUp <;> simp

/-- A scan reports the list that `discover` yields (R267, R289). -/
theorem discovered_reports_inRange (filter : List Byte) (durationMs : Nat) (s : State) :
    (resume .discovered (s.callTransport (.discover filter durationMs))).host.reports
      = .scanned s.inRange :: s.host.reports := rfl

/-- The host goes on with parsed results, or the sequence ends with the status it found (R241). -/
theorem withResult_cases {α : Type} (parse : List Byte → Option α) (s : State) (k : α → State) :
    (∃ x, s.lastResponse.1 = 0x00 ∧ parse s.lastResponse.2 = some x ∧ s.withResult parse k = k x) ∨
    s.withResult parse k = s.abort (.commandError s.lastResponse.1) := by
  unfold State.withResult
  simp only []
  by_cases h : s.lastResponse.1 = Status.ok.code
  · simp only [if_pos h]
    rcases hp : parse s.lastResponse.2 with _ | x
    · exact .inr rfl
    · exact .inl ⟨x, h, rfl, rfl⟩
  · exact .inr (if_neg h)

/-- Results are accepted at the one length they have, and refused at every other. -/
theorem parseFixed_cases (n : Nat) (p : List Byte) :
    (∃ b : Bytes n, b.val = p ∧ parseFixed n p = some b) ∨ (p.length ≠ n ∧ parseFixed n p = none) := by
  unfold parseFixed
  split
  · exact .inl ⟨⟨p, ‹_›⟩, rfl, rfl⟩
  · exact .inr ⟨‹_›, rfl⟩

@[simp] theorem parseFixed_val {n : Nat} (b : Bytes n) : parseFixed n b.val = some b := dif_pos b.property

/-- With an OK response whose results parse, the host goes on with them (R241). -/
theorem withResult_ok {α : Type} {parse : List Byte → Option α} {s : State} {k : α → State} {results : List Byte} {x : α}
    (h : s.lastResponse = (0x00, results)) (hp : parse results = some x) : s.withResult parse k = k x := by
  rcases withResult_cases parse s k with ⟨y, _, hy, e⟩ | e
  · rw [h, hp] at hy
    cases hy
    exact e
  · unfold State.withResult
    simp only [h, hp]
    exact if_pos rfl

/-- R246: a collected peer key of 128 bytes is held, and the shared secret is asked for. -/
theorem resume_peerKey_ok {dhP peer : Bytes Config.dhBytes} {s : State} {results : List Byte} {remain : Nat}
    {type subtype : Byte} (h : s.lastResponse = (0x00, results))
    (hc : parseCollect results = some (remain, type, subtype, peer.val)) :
    resume (.peerKey dhP) s = (s.hold { s.host.keys with peerPublicKey := some peer }).push
      [issue (.modpow peer.val ((s.host.keys.privateKey.map (·.val)).getD []) dhP.val), .resume .sharedSecret] := by
  unfold resume
  rw [h]
  refine (if_neg (show ¬(0x00 : Byte) = Status.errTimeout.code by decide)).trans ?_
  rw [withResult_ok h hc]
  simp only [parseFixed_val]

/-- R247: a collected peer key of another length ends the handshake. -/
theorem resume_peerKey_bad {dhP : Bytes Config.dhBytes} {s : State} {results peer : List Byte} {remain : Nat}
    {type subtype : Byte} (h : s.lastResponse = (0x00, results))
    (hc : parseCollect results = some (remain, type, subtype, peer)) (hn : peer.length ≠ Config.dhBytes) :
    resume (.peerKey dhP) s = s.abort .handshakeError := by
  unfold resume
  rw [h]
  refine (if_neg (show ¬(0x00 : Byte) = Status.errTimeout.code by decide)).trans ?_
  rw [withResult_ok h hc]
  rcases parseFixed_cases Config.dhBytes peer with ⟨b, rfl, _⟩ | ⟨_, e⟩
  · exact absurd b.property hn
  · simp only [e]

/-- R244: the parameter block has 264 bytes, whatever its two numbers are. -/
theorem paramBlock_length (dhP pub : Bytes Config.dhBytes) : (paramBlock dhP pub).length = 264 := by
  simp [paramBlock, dhP.property, pub.property, Config.dhBytes]

/-- R255: the head of the polling loop. -/
theorem pollStep_cases (goal : PollGoal) (left : Nat) (s : State) :
    (left = 0 ∧ pollStep goal left s = s.report goal.elapsed) ∨
    (0 < left ∧ pollStep goal left s = s.push [.pseudo (.request (BitVec.ofNat 32 (min 2000 left))),
      .resume (.polled goal left (min 2000 left))]) := by
  unfold pollStep
  split
  · exact .inl ⟨‹_›, rfl⟩
  · exact .inr ⟨by omega, rfl⟩

/-- A frame row is the event of its frame. -/
theorem exec_frame {i : Instr} {f : Frame} (h : instrFrame i = some f) (s : State) :
    exec i s = .next (s.event (receive (frameEncode f))) := by
  cases i <;> simp only [instrFrame, Option.some.injEq, reduceCtorEq] at h <;> subst h <;> rfl

end Sys2Proof.Machine
end

