-- ==== Sys2Proof/Machine/Asm.lean ====
section
/-! DEFINITION. The spec's way to write a command, an event and a response as text (30_encoding.md R89; log 24). No
meaning uses it: it is the notation of the rules' examples. -/

namespace Sys2Proof.Machine

/-- Two hexadecimal digits. -/
def asmByte (b : Byte) : String := String.ofList [Nat.digitChar (b.toNat / 16), Nat.digitChar (b.toNat % 16)]

/-- A byte string: hexadecimal digits, two per byte, `""` for the empty one. -/
def asmBytes : List Byte → String
  | [] => "\"\""
  | b => String.join (b.map asmByte)

/-- A scalar in decimal. -/
def asmNat (n : Nat) : String := toString n

/-- A scalar in hexadecimal. -/
def asmHex (b : Byte) : String := "0x" ++ asmByte b

/-- `field=value` pairs after a mnemonic. -/
def asmLine (mnemonic : String) (fields : List (String × String)) : String :=
  match fields with
  | [] => mnemonic
  | fields => mnemonic ++ " " ++ String.intercalate ", " (fields.map fun p => p.1 ++ "=" ++ p.2)

/-- A frame row as the event that delivers it. -/
def asmNotify (f : Frame) : String := "RX_NOTIFY " ++ asmBytes (frameEncode f)

/-- An instruction as the spec writes it. -/
def asm : Instr → String
  | .md5 msg => asmLine "MD5" [("msg", asmBytes msg)]
  | .aesSetkey key => asmLine "AES_SETKEY" [("key", asmBytes key)]
  | .aesEncblk block => asmLine "AES_ENCBLK" [("block", asmBytes block)]
  | .cfbEnc iv data => asmLine "CFB_ENC" [("iv", asmBytes iv), ("data", asmBytes data)]
  | .modpow base exp mod => asmLine "MODPOW" [("base", asmBytes base), ("exp", asmBytes exp), ("mod", asmBytes mod)]
  | .frameEnc type subtype fc seq payload =>
    asmLine "FRAME_ENC" [("type", asmNat type.toNat), ("subtype", asmHex subtype), ("fc", asmHex fc),
      ("seq", asmHex seq), ("payload", asmBytes payload)]
  | .frameDec buf => asmLine "FRAME_DEC" [("buf", asmBytes buf)]
  | .frameTx type subtype fc payload =>
    asmLine "FRAME_TX" [("type", asmNat type.toNat), ("subtype", asmNat subtype.toNat), ("fc", asmHex fc),
      ("payload", asmBytes payload)]
  | .frameTxEnc type subtype fc payload =>
    asmLine "FRAME_TX_ENC" [("type", asmNat type.toNat), ("subtype", asmNat subtype.toNat), ("fc", asmHex fc),
      ("payload", asmBytes payload)]
  | .frag data => asmLine "FRAG" [("data", asmBytes data)]
  | .reasmPush fc payload => asmLine "REASM_PUSH" [("fc", asmHex fc), ("payload", asmBytes payload)]
  | .reasmReset => "REASM_RESET"
  | .reqIssue t => asmLine "REQ_ISSUE" [("timeout_ms", asmNat t.toNat)]
  | .reqCollect => "REQ_COLLECT"
  | .getStatus => "GET_STATUS"
  | .sessionInit => "SESSION_INIT"
  | .sessionEnd => "SESSION_END"
  | .clrFlags mask => asmLine "CLR_FLAGS" [("mask", asmHex mask)]
  | .reserved d => "(reserved) " ++ asmBytes d
  | .rxNotify b => "RX_NOTIFY " ++ asmBytes b
  | .tick => "TICK"
  | .frameDataNeg fc seq payload => asmNotify { type := 1, subtype := 0x00, fc, seq, payload }
  | .frameDataSsid fc seq payload => asmNotify { type := 1, subtype := 0x02, fc, seq, payload }
  | .frameDataPassword fc seq payload => asmNotify { type := 1, subtype := 0x03, fc, seq, payload }
  | .frameDataStatus fc seq payload => asmNotify { type := 1, subtype := 0x0F, fc, seq, payload }
  | .frameDataWifilist fc seq payload => asmNotify { type := 1, subtype := 0x11, fc, seq, payload }
  | .frameCtrlApply fc seq payload => asmNotify { type := 0, subtype := 0x03, fc, seq, payload }
  | .frameCtrlScan fc seq payload => asmNotify { type := 0, subtype := 0x09, fc, seq, payload }
  | .frameGeneric type subtype fc seq payload => asmNotify { type, subtype, fc, seq, payload }
  | .frameEnc4 type subtype seq payload =>
    asmLine "FRAME_ENC4" [("type", asmNat type.toNat), ("subtype", asmNat subtype.toNat), ("seq", asmHex seq),
      ("payload", asmBytes payload)]
  | .send f => "SEND " ++ asmBytes f
  | .wait => "WAIT"
  | .request t => "REQUEST " ++ asmNat t.toNat
  | .sleep n => "SLEEP " ++ asmNat n

/-- The name of a status (R271). -/
def Status.name : Status → String
  | .ok => "OK"
  | .errOpcode => "ERR_OPCODE"
  | .errDesc => "ERR_DESC"
  | .errLen => "ERR_LEN"
  | .errParse => "ERR_PARSE"
  | .errBusy => "ERR_BUSY"
  | .errTimeout => "ERR_TIMEOUT"
  | .errPending => "ERR_PENDING"
  | .errNoreq => "ERR_NOREQ"
  | .errNokey => "ERR_NOKEY"
  | .errKeyset => "ERR_KEYSET"
  | .errOperand => "ERR_OPERAND"
  | .errFrag => "ERR_FRAG"

/-- The kinds of result fields (R70); `vars` is a `var` repeated to the end. -/
inductive ResultKind where
  | u8 | u16 | u32 | fix | var | vars
  deriving DecidableEq, Repr

/-- The result fields of a command (R73). -/
def resultFields : Instr → List (String × ResultKind)
  | .md5 _ => [("digest", .fix)]
  | .aesEncblk _ => [("out", .fix)]
  | .cfbEnc _ _ => [("out", .var)]
  | .modpow _ _ _ => [("result", .fix)]
  | .frameEnc _ _ _ _ _ => [("frame", .var)]
  | .frameEnc4 _ _ _ _ => [("frame", .var)]
  | .frameDec _ => [("type", .u8), ("subtype", .u8), ("fc", .u8), ("seq", .u8), ("payload", .var)]
  | .frameTx _ _ _ _ => [("frame", .var)]
  | .frameTxEnc _ _ _ _ => [("frame", .var)]
  | .frag _ => [("count", .u16), ("frame", .vars)]
  | .reasmPush _ _ => [("done", .u8), ("message", .vars)]
  | .reqCollect =>
    [("remain", .u32), ("type", .u8), ("subtype", .u8), ("fc", .u8), ("seq", .u8), ("payload", .var)]
  | .getStatus => [("status", .u8), ("seq", .u8), ("corr_state", .u8), ("corr_remain", .u32)]
  | _ => []

/-- At most `fuel` repeated `var` fields. -/
def asmVars (name : String) : Nat → List Byte → List (String × String)
  | 0, _ => []
  | fuel + 1, p =>
    match readVar p with
    | some (b, p) => (name, asmBytes b) :: asmVars name fuel p
    | none => []

/-- The result fields of a response as `field=value` pairs. -/
def asmResults : List (String × ResultKind) → List Byte → List (String × String)
  | [], _ => []
  | (name, kind) :: rest, p =>
    match kind with
    | .u8 => ((readU8 p).map fun r => (name, asmNat r.1.toNat) :: asmResults rest r.2).getD []
    | .u16 => ((readU16 p).map fun r => (name, asmNat r.1) :: asmResults rest r.2).getD []
    | .u32 => ((readU32 p).map fun r => (name, asmNat r.1.toNat) :: asmResults rest r.2).getD []
    | .fix => [(name, asmBytes p)]
    | .var => ((readVar p).map fun r => (name, asmBytes r.1) :: asmResults rest r.2).getD []
    | .vars => asmVars name p.length p

/-- Every status. -/
def Status.all : List Status :=
  [.ok, .errOpcode, .errDesc, .errLen, .errParse, .errBusy, .errTimeout, .errPending, .errNoreq, .errNokey,
   .errKeyset, .errOperand, .errFrag]

/-- A response to a command as the spec writes it. -/
def asmResponse (i : Instr) (rsp : List Byte) : String :=
  match rsp with
  | [] => ""
  | code :: results =>
    match Status.all.find? fun st => st.code == code with
    | some .ok => asmLine "-> OK" (asmResults (resultFields i) results)
    | some st => "-> " ++ st.name
    | none => ""

end Sys2Proof.Machine
end

