-- ==== Sys2Proof/Tests/Slice0.lean ====
section
/-! SUPPORT. Tests. Expected values come from spec/95_test_vectors.md (the vector's name stands in the comment) or are
written out by hand from the rule named there. -/

open Sys2Proof Sys2Proof.Machine

namespace Sys2Proof.Tests

set_option Elab.async false

/-! ## Helpers -/

/-- The key of vectors A12 to A15, C1 and T3. -/
def key : List Byte :=
  [0x2b, 0x7e, 0x15, 0x16, 0x28, 0xae, 0xd2, 0xa6, 0xab, 0xf7, 0x15, 0x88, 0x09, 0xcf, 0x4f, 0x3c]

/-- Consecutive byte values. -/
def bytesFrom (b n : Nat) : List Byte := (List.range n).map fun k => BitVec.ofNat 8 (b + k)

def zeros (n : Nat) : List Byte := List.replicate n 0

/-- The engine after reset with the test key loaded. -/
def keyed : Engine := { Engine.reset with aesRk := some (aesKeyExpand key) }

/-- The status frame of vector Q9. -/
def statusFrame : Frame := ⟨1, 0x0F, 0x00, 0x07, [0x00, 0x00]⟩

/-- The reset state with another engine. -/
def st (e : Engine) : State := { State.reset with engine := e }

/-- The reset state with another engine, one turn of the host to come, and the host inside a sequence. -/
def hostSt (e : Engine) (running : List HostAction) : State :=
  { State.reset with engine := e, turns := [.host], host := { State.reset.host with running := running } }

/-- One step on a descriptor that the host issues: the engine after it and the response. -/
def stepCmd (d : List Byte) (e : Engine) : Option (Engine × List Byte) :=
  match step (hostSt e [.cmd d]) with
  | .next s => some (s.engine, s.rsp.headD [])
  | .fault _ => none
  | .refused _ => none

/-- One step on an event: the engine after it. -/
def stepTurn (t : Turn) (e : Engine) : Option Engine :=
  match step { State.reset with engine := e, turns := [t] } with
  | .next s => some s.engine
  | .fault _ => none
  | .refused _ => none

/-- One step of the host, in a sequence whose last response is `rsp`. -/
def stepHost (running : List HostAction) (rsp : List Byte) (e : Engine) : Option HostSide :=
  match step { hostSt e running with rsp := [rsp] } with
  | .next s => some s.host
  | .fault _ => none
  | .refused _ => none

/-! ## Well-formedness: one ill-formed term for each check, refused -/

theorem test_wf_fixed_width : wellFormed (.aesSetkey (zeros 15)) = false ∧ wellFormed (.aesEncblk (zeros 17)) = false ∧
    wellFormed (.cfbEnc (zeros 15) []) = false := by decide

theorem test_wf_reserved : wellFormed (.reserved [0x01]) = false ∧ wellFormed (.reserved [0x12, 0x00]) = false ∧
    wellFormed (.reserved [0x13]) = true ∧ wellFormed (.reserved []) = true := by decide

theorem test_wf_frame_payload : wellFormed (.frameDataNeg 0 0 (zeros 256)) = false ∧
    wellFormed (.frameDataSsid 0 0 (zeros 256)) = false ∧ wellFormed (.frameDataPassword 0 0 (zeros 256)) = false ∧
    wellFormed (.frameDataStatus 0 0 (zeros 256)) = false ∧ wellFormed (.frameDataWifilist 0 0 (zeros 256)) = false ∧
    wellFormed (.frameCtrlApply 0 0 (zeros 256)) = false ∧ wellFormed (.frameCtrlScan 0 0 (zeros 256)) = false ∧
    wellFormed (.frameGeneric 2 0 0 0 (zeros 256)) = false ∧ wellFormed (.frameGeneric 2 0 0 0 (zeros 255)) = true := by
  decide +kernel

theorem test_wf_var_length : ∀ b : List Byte, b.length = 65536 →
    wellFormed (.md5 b) = false ∧ wellFormed (.cfbEnc (zeros 16) b) = false ∧ wellFormed (.modpow b [] []) = false ∧
    wellFormed (.modpow [] b []) = false ∧ wellFormed (.modpow [] [] b) = false ∧
    wellFormed (.frameEnc 0 0 0 0 b) = false ∧ wellFormed (.frameDec b) = false ∧ wellFormed (.frameTx 0 0 0 b) = false ∧
    wellFormed (.frameTxEnc 0 0 0 b) = false ∧ wellFormed (.frag b) = false ∧ wellFormed (.reasmPush 0 b) = false ∧
    wellFormed (.frameEnc4 0 0 0 b) = false ∧ wellFormed (.rxNotify b) = false := by
  intro b h
  simp [wellFormed, h]

theorem test_wf_md5_concrete : wellFormed (.md5 (List.replicate 65536 0)) = false :=
  (test_wf_var_length _ List.length_replicate).1

/-! ## Decoding: every row's word, written out byte by byte from R73, R75, R82 and R90 -/

theorem test_decode_md5 : decodeCmd [0x01, 0x03, 0x00, 0x61, 0x62, 0x63] = .ok (.md5 [0x61, 0x62, 0x63]) := by decide

theorem test_decode_aes_setkey : decodeCmd (0x02 :: key) = .ok (.aesSetkey key) := by decide

theorem test_decode_aes_encblk : decodeCmd (0x03 :: bytesFrom 0x32 16) = .ok (.aesEncblk (bytesFrom 0x32 16)) := by decide

theorem test_decode_cfb_enc :
    decodeCmd (0x04 :: (bytesFrom 0 16 ++ [0x01, 0x00, 0x6b])) = .ok (.cfbEnc (bytesFrom 0 16) [0x6b]) := by decide

theorem test_decode_modpow : decodeCmd [0x05, 0x01, 0x00, 0x04, 0x01, 0x00, 0x0d, 0x02, 0x00, 0x01, 0xf1]
    = .ok (.modpow [0x04] [0x0d] [0x01, 0xf1]) := by decide

theorem test_decode_frame_enc : decodeCmd [0x06, 0x01, 0x11, 0x10, 0xff, 0x03, 0x00, 0x01, 0x02, 0x03]
    = .ok (.frameEnc 0x01 0x11 0x10 0xff [0x01, 0x02, 0x03]) := by decide

theorem test_decode_frame_dec : decodeCmd [0x07, 0x04, 0x00, 0x0c, 0x00, 0x07, 0x00]
    = .ok (.frameDec [0x0c, 0x00, 0x07, 0x00]) := by decide

theorem test_decode_frame_tx : decodeCmd [0x08, 0x01, 0x02, 0x04, 0x01, 0x00, 0x07]
    = .ok (.frameTx 0x01 0x02 0x04 [0x07]) := by decide

theorem test_decode_frame_tx_enc : decodeCmd [0x09, 0x01, 0x02, 0x10, 0x01, 0x00, 0x41]
    = .ok (.frameTxEnc 0x01 0x02 0x10 [0x41]) := by decide

theorem test_decode_frag : decodeCmd [0x0a, 0x05, 0x00, 0x68, 0x65, 0x6c, 0x6c, 0x6f]
    = .ok (.frag [0x68, 0x65, 0x6c, 0x6c, 0x6f]) := by decide

theorem test_decode_reasm_push : decodeCmd [0x0b, 0x10, 0x02, 0x00, 0x03, 0x00]
    = .ok (.reasmPush 0x10 [0x03, 0x00]) := by decide

theorem test_decode_req_issue : decodeCmd [0x0d, 0x10, 0x27, 0x00, 0x00] = .ok (.reqIssue 10000) := by decide

theorem test_decode_one_byte : decodeCmd [0x0c] = .ok .reasmReset ∧ decodeCmd [0x0e] = .ok .reqCollect ∧
    decodeCmd [0x0f] = .ok .getStatus ∧ decodeCmd [0x10] = .ok .sessionInit ∧ decodeCmd [0x11] = .ok .sessionEnd := by
  decide

theorem test_decode_clr_flags : decodeCmd [0x12, 0x04] = .ok (.clrFlags 0x04) := by decide

/-- R75. -/
theorem test_decode_reserved : decodeCmd [] = .ok (.reserved []) ∧ decodeCmd [0x00] = .ok (.reserved [0x00]) ∧
    decodeCmd [0x13] = .ok (.reserved [0x13]) ∧ decodeCmd [0xff, 0x01, 0x02] = .ok (.reserved [0xff, 0x01, 0x02]) := by
  decide

/-- R72: a field cut short, a byte left over, a missing field (H22, H23, H24, A11, C14, M27, F14, Q4, E7, E8, X10). -/
theorem test_decode_bad_descriptors :
    ∀ d ∈ ([[0x01, 0x04, 0x00, 0x61, 0x62, 0x63], [0x01, 0x03, 0x00, 0x61, 0x62, 0x63, 0x64], [0x01],
      0x02 :: zeros 15, 0x04 :: (bytesFrom 0 15 ++ [0x01, 0x00, 0x6b]), [0x05, 0x01, 0x00, 0x05, 0x01, 0x00, 0x03],
      [0x07, 0x04, 0x00, 0x0c, 0x00, 0x07], [0x0d, 0x01, 0x02, 0x03], [0x10, 0x00], [0x12], [0x0f, 0x00]]
      : List (List Byte)), decodeCmd d = .error .badDescriptor := by decide

theorem test_decode_frame_data :
    decodeRx [0x01, 0x00, 0x02, 0x01, 0xaa] = .frameDataNeg 0x00 0x02 [0xaa] ∧
    decodeRx [0x09, 0x01, 0x05, 0x02, 0x9d, 0x53] = .frameDataSsid 0x01 0x05 [0x9d, 0x53] ∧
    decodeRx [0x0d, 0x01, 0x06, 0x00] = .frameDataPassword 0x01 0x06 [] ∧
    decodeRx [0x3d, 0x00, 0x07, 0x02, 0x00, 0x00] = .frameDataStatus 0x00 0x07 [0x00, 0x00] ∧
    decodeRx [0x45, 0x00, 0x03, 0x01, 0x00] = .frameDataWifilist 0x00 0x03 [0x00] := by decide

theorem test_decode_frame_ctrl :
    decodeRx [0x0c, 0x00, 0x07, 0x00] = .frameCtrlApply 0x00 0x07 [] ∧
    decodeRx [0x24, 0x00, 0x00, 0x00] = .frameCtrlScan 0x00 0x00 [] := by decide

/-- F13's frame: `type = 3`, `subtype = 0x3f`. -/
theorem test_decode_frame_generic :
    decodeRx [0xff, 0xff, 0xff, 0x01, 0xaa] = .frameGeneric 3 0x3f 0xff 0xff [0xaa] ∧
    decodeRx [0x00, 0x00, 0x00, 0x00] = .frameGeneric 0 0x00 0x00 0x00 [] := by decide

/-- R168: fewer than four bytes, or fewer than the length says; bytes after the payload are ignored. -/
theorem test_decode_rx_notify : decodeRx [] = .rxNotify [] ∧ decodeRx [0x3d, 0x00] = .rxNotify [0x3d, 0x00] ∧
    decodeRx [0x45, 0x00, 0x01, 0x05, 0x02, 0x4e, 0x41] = .rxNotify [0x45, 0x00, 0x01, 0x05, 0x02, 0x4e, 0x41] ∧
    decodeRx [0x0c, 0x00, 0x07, 0x00, 0x99] = .frameCtrlApply 0x00 0x07 [] := by decide

theorem test_decode_tick_and_pseudo : decode .tick = .ok .tick ∧
    decode (.pseudo (.frameEnc4 1 2 3 [4])) = .ok (.frameEnc4 1 2 3 [4]) ∧ decode (.pseudo (.send [5])) = .ok (.send [5]) ∧
    decode (.pseudo .wait) = .ok .wait ∧ decode (.pseudo (.request 2000)) = .ok (.request 2000) ∧
    decode (.pseudo (.sleep 7)) = .ok (.sleep 7) := by decide

/-- Words of the opcode table, padded (log 9). -/
theorem test_decode_table_words : decodeTableWord 8 0x01 = some (.md5 []) ∧ decodeTableWord 8 0x02 = some (.aesSetkey (zeros 16)) ∧
    decodeTableWord 8 0x0d = some (.reqIssue 0) ∧ decodeTableWord 8 0x12 = some (.clrFlags 0) ∧
    decodeTableWord 8 0x00 = some (.reserved [0x00]) ∧ decodeTableWord 8 0x3d = some (.frameDataStatus 0 0 []) ∧
    decodeTableWord 8 0x45 = some (.frameDataWifilist 0 0 []) ∧ decodeTableWord 8 0x24 = some (.frameCtrlScan 0 0 []) ∧
    decodeTableWord 48 0x636261000301 = some (.md5 [0x61, 0x62, 0x63]) := by decide +kernel

/-- A word placed as the next move is the instruction that the next step runs. -/
theorem test_fetch_word_runs : fetch (State.reset.withFetchWord 8 0x0f) = .run (.cmd [0x0f]) State.reset ∧
    (match step (State.reset.withFetchWord 8 0x0f) with
      | .next s => s.rsp == [zeros 8] && s.turns == [] && s.host == State.reset.host
      | .fault _ => false
      | .refused _ => false) = true := by decide +kernel

/-! ## MD5, AES, CFB, MODPOW -/

/-- H20. -/
theorem test_md5_abc : stepCmd [0x01, 0x03, 0x00, 0x61, 0x62, 0x63] .reset
    = some (.reset, [0x00, 0x90, 0x01, 0x50, 0x98, 0x3c, 0xd2, 0x4f, 0xb0, 0xd6, 0x96, 0x3f, 0x7d, 0x28, 0xe1, 0x7f, 0x72]) := by
  decide +kernel

/-- H6: the padding spills into a second block. -/
theorem test_md5_two_blocks : md5 (List.replicate 56 0x61)
    = [0x3b, 0x0c, 0x8a, 0xc7, 0x03, 0xf8, 0x28, 0xb0, 0x4c, 0x6c, 0x19, 0x70, 0x06, 0xd1, 0x72, 0x18] := by
  decide +kernel

/-- R122: every S-box entry is the affine map of the entry's inverse in GF(2^8); here without computing inverses: the
affine map undone and multiplied by the index is 1. -/
theorem test_sbox_is_affine_of_inverse : ∀ x : Byte,
    let y := sbox x
    let inv := (y.rotateLeft 1 ^^^ y.rotateLeft 3 ^^^ y.rotateLeft 6) ^^^ 0x05
    let mul := (List.range 8).foldl
      (fun (acc : Byte × Byte) k => (if inv.getLsbD k then acc.1 ^^^ acc.2 else acc.1, xtime acc.2)) (0, x)
    mul.1 = if x = 0 then 0 else 1 := by decide +kernel

/-- The round keys of K18 in 95_test_vectors.md section 2.2. -/
theorem test_key_schedule_ends : (aesKeyExpand key).drop 160
    = [0xd0, 0x14, 0xf9, 0xa8, 0xc9, 0xee, 0x25, 0x89, 0xe1, 0x3f, 0x0c, 0xc8, 0xb6, 0x63, 0x0c, 0xa6] := by
  decide +kernel

/-- A12. -/
theorem test_aes_setkey_loads : stepCmd (0x02 :: key) .reset = some (keyed, [0x00]) ∧ keyed.statusByte = 0x01 := by
  decide +kernel

/-- A13. -/
theorem test_aes_setkey_once : stepCmd (0x02 :: zeros 16) keyed = some (keyed, [0x0a]) := by decide +kernel

/-- A15. -/
theorem test_aes_encblk : stepCmd [0x03, 0x32, 0x43, 0xf6, 0xa8, 0x88, 0x5a, 0x30, 0x8d, 0x31, 0x31, 0x98, 0xa2, 0xe0, 0x37,
      0x07, 0x34] keyed
    = some (keyed, [0x00, 0x39, 0x25, 0x84, 0x1d, 0x02, 0xdc, 0x09, 0xfb, 0xdc, 0x11, 0x85, 0x97, 0x19, 0x6a, 0x0b, 0x32]) := by
  decide +kernel

/-- A10. -/
theorem test_aes_encblk_nokey : stepCmd (0x03 :: zeros 16) .reset = some (.reset, [0x09]) := by decide +kernel

/-- C10: 20 bytes, the last block of them partial. -/
theorem test_cfb_enc : stepCmd (0x04 :: (bytesFrom 0 16 ++ [0x14, 0x00, 0x6b, 0xc1, 0xbe, 0xe2, 0x2e, 0x40, 0x9f, 0x96, 0xe9,
      0x3d, 0x7e, 0x11, 0x73, 0x93, 0x17, 0x2a, 0xae, 0x2d, 0x8a, 0x57])) keyed
    = some (keyed, [0x00, 0x14, 0x00, 0x3b, 0x3f, 0xd9, 0x2e, 0xb7, 0x2d, 0xad, 0x20, 0x33, 0x34, 0x49, 0xf8, 0xe8, 0x3c,
      0xfb, 0x4a, 0xc8, 0xa6, 0x45, 0x37]) := by decide +kernel

/-- C13. -/
theorem test_cfb_enc_nokey : stepCmd (0x04 :: (zeros 16 ++ [0x01, 0x00, 0x78])) .reset = some (.reset, [0x09]) := by
  decide +kernel

/-- M20. -/
theorem test_modpow : stepCmd [0x05, 0x01, 0x00, 0x04, 0x01, 0x00, 0x0d, 0x02, 0x00, 0x01, 0xf1] .reset
    = some (.reset, 0x00 :: (zeros 126 ++ [0x01, 0xbd])) := by decide +kernel

/-- M26: the length is checked, not the value. -/
theorem test_modpow_long_base : stepCmd ([0x05, 0x81, 0x00] ++ zeros 129 ++ [0x01, 0x00, 0x03, 0x01, 0x00, 0x07]) .reset
    = some (.reset, [0x0b]) := by decide +kernel

/-! ## Frames -/

/-- F1. -/
theorem test_frame_enc : stepCmd [0x06, 0x01, 0x11, 0x10, 0xff, 0x03, 0x00, 0x01, 0x02, 0x03] .reset
    = some (.reset, [0x00, 0x07, 0x00, 0x45, 0x10, 0xff, 0x03, 0x01, 0x02, 0x03]) := by decide +kernel

/-- F7a: `type = 2` and 256 bytes. -/
theorem test_frame_enc_operand_first : stepCmd ([0x06, 0x02, 0x00, 0x00, 0x00, 0x00, 0x01] ++ zeros 256) .reset
    = some (.reset, [0x0b]) := by decide +kernel

/-- F8: trailing bytes are ignored. -/
theorem test_frame_dec : stepCmd [0x07, 0x08, 0x00, 0x3d, 0x00, 0x07, 0x02, 0x00, 0x00, 0x99, 0x99] .reset
    = some (.reset, [0x00, 0x01, 0x0f, 0x00, 0x07, 0x02, 0x00, 0x00, 0x00]) := by decide +kernel

/-- F12. -/
theorem test_frame_dec_short : stepCmd [0x07, 0x06, 0x00, 0x3d, 0x00, 0x07, 0x03, 0xaa, 0xbb] .reset
    = some (.reset, [0x04]) := by decide +kernel

/-- T1: the counter wraps. -/
theorem test_frame_tx_wraps : stepCmd [0x08, 0x01, 0x00, 0x00, 0x03, 0x00, 0x00, 0x01, 0x07] { Engine.reset with seq := 0xff }
    = some (.reset, [0x00, 0x07, 0x00, 0x01, 0x00, 0xff, 0x03, 0x00, 0x01, 0x07]) := by decide +kernel

/-- T2a: a refused frame takes no number. -/
theorem test_frame_tx_refused : stepCmd [0x08, 0x02, 0x09, 0x00, 0x00, 0x00] { Engine.reset with seq := 1 }
    = some ({ Engine.reset with seq := 1 }, [0x0b]) := by decide +kernel

/-- T3. -/
theorem test_frame_tx_enc : stepCmd [0x09, 0x01, 0x02, 0x00, 0x07, 0x00, 0x54, 0x65, 0x73, 0x74, 0x4e, 0x65, 0x74]
      { keyed with seq := 5 }
    = some ({ keyed with seq := 6 }, [0x00, 0x0b, 0x00, 0x09, 0x01, 0x05, 0x07, 0x9d, 0x53, 0xc0, 0x41, 0x54, 0xa5, 0x75]) := by
  decide +kernel

/-- X6: ERR_LEN before ERR_NOKEY. -/
theorem test_frame_tx_enc_priority : stepCmd ([0x09, 0x01, 0x02, 0x00, 0x2c, 0x01] ++ zeros 300) .reset
    = some (.reset, [0x03]) := by decide +kernel

/-! ## Fragments -/

/-- G1. -/
theorem test_frag : stepCmd ([0x0a, 0x14, 0x00] ++ bytesFrom 0x41 20) { Engine.reset with seq := 3 }
    = some ({ Engine.reset with seq := 5 }, [0x00, 0x02, 0x00, 0x14, 0x00, 0x01, 0x10, 0x03, 0x10, 0x14, 0x00]
      ++ bytesFrom 0x41 14 ++ [0x0a, 0x00, 0x01, 0x00, 0x04, 0x06] ++ bytesFrom 0x4f 6) := by decide +kernel

/-- G3: the empty message is one empty frame. -/
theorem test_frag_empty : stepCmd [0x0a, 0x00, 0x00] { Engine.reset with seq := 1 }
    = some ({ Engine.reset with seq := 2 }, [0x00, 0x01, 0x00, 0x04, 0x00, 0x01, 0x00, 0x01, 0x00]) := by decide +kernel

/-- B6. -/
theorem test_reasm_first : stepCmd [0x0b, 0x10, 0x02, 0x00, 0x03, 0x00] .reset
    = some ({ Engine.reset with ra := some ⟨3, []⟩ }, [0x00, 0x00]) := by decide +kernel

/-- B10: more data than announced idles the reassembler. -/
theorem test_reasm_overrun : stepCmd [0x0b, 0x10, 0x02, 0x00, 0xcc, 0xdd] { Engine.reset with ra := some ⟨3, [0xaa, 0xbb]⟩ }
    = some (.reset, [0x0c]) := by decide +kernel

/-- B12. -/
theorem test_reasm_reset : stepCmd [0x0c] { keyed with ra := some ⟨3, [0xaa, 0xbb]⟩ } = some (keyed, [0x00]) := by
  decide +kernel

/-! ## The correlator -/

/-- Q2. -/
theorem test_req_issue : stepCmd [0x0d, 0xd0, 0x07, 0x00, 0x00] .reset
    = some ({ Engine.reset with corr := .awaiting 2000 }, [0x00]) := by decide +kernel

/-- Q15: a deadline of 0 has passed at once. -/
theorem test_req_issue_zero : stepCmd [0x0d, 0x00, 0x00, 0x00, 0x00] .reset
    = some ({ Engine.reset with corr := .timedOut }, [0x00]) := by decide +kernel

/-- Q12. -/
theorem test_req_collect : stepCmd [0x0e] { Engine.reset with corr := .resolved 1700 statusFrame }
    = some (.reset, [0x00, 0xa4, 0x06, 0x00, 0x00, 0x01, 0x0f, 0x00, 0x07, 0x02, 0x00, 0x00, 0x00]) := by decide +kernel

/-- P2 step 5: the timeout is delivered once and frees the slot. -/
theorem test_req_collect_timeout : stepCmd [0x0e] { Engine.reset with corr := .timedOut } = some (.reset, [0x06]) := by
  decide +kernel

/-- Q8. -/
theorem test_rx_notify_malformed : stepTurn (.rx [0x3d, 0x00]) { Engine.reset with corr := .awaiting 1700 }
    = some { Engine.reset with corr := .awaiting 1700, parseErr := true } := by decide +kernel

/-- Q9 and Q10. -/
theorem test_frame_status : stepTurn (.rx [0x3d, 0x00, 0x07, 0x02, 0x00, 0x00]) { Engine.reset with corr := .awaiting 1700 }
      = some { Engine.reset with corr := .resolved 1700 statusFrame } ∧
    stepTurn (.rx [0x45, 0x00, 0x08, 0x02, 0x00, 0x00]) { Engine.reset with corr := .resolved 1700 statusFrame }
      = some { Engine.reset with corr := .resolved 1700 statusFrame, unsolicited := true } := by decide +kernel

/-- R209, for the other frame rows: each resolves an awaiting request with its own frame. -/
theorem test_frame_rows : ∀ p ∈ ([([0x01, 0x00, 0x02, 0x01, 0xaa], ⟨1, 0x00, 0x00, 0x02, [0xaa]⟩),
      ([0x09, 0x01, 0x05, 0x00], ⟨1, 0x02, 0x01, 0x05, []⟩), ([0x0d, 0x01, 0x06, 0x00], ⟨1, 0x03, 0x01, 0x06, []⟩),
      ([0x45, 0x00, 0x03, 0x01, 0x00], ⟨1, 0x11, 0x00, 0x03, [0x00]⟩), ([0x0c, 0x00, 0x00, 0x00], ⟨0, 0x03, 0x00, 0x00, []⟩),
      ([0x24, 0x00, 0x00, 0x00], ⟨0, 0x09, 0x00, 0x00, []⟩), ([0xff, 0xff, 0xff, 0x01, 0xaa], ⟨3, 0x3f, 0xff, 0xff, [0xaa]⟩)]
      : List (List Byte × Frame)),
    stepTurn (.rx p.1) { Engine.reset with corr := .awaiting 2 } = some { Engine.reset with corr := .resolved 2 p.2 } := by
  decide +kernel

/-- Q16: expiry at the last tick exactly. -/
theorem test_tick : stepTurn .tick { Engine.reset with corr := .awaiting 2 } = some { Engine.reset with corr := .awaiting 1 } ∧
    stepTurn .tick { Engine.reset with corr := .awaiting 1 } = some { Engine.reset with corr := .timedOut } ∧
    stepTurn .tick { Engine.reset with corr := .resolved 1700 statusFrame }
      = some { Engine.reset with corr := .resolved 1700 statusFrame } := by decide +kernel

/-! ## Session control -/

/-- The engine of vector E2. -/
def busyEngine : Engine := { keyed with seq := 0x2a, ra := some ⟨3, []⟩, parseErr := true, unsolicited := true }

/-- E2. -/
theorem test_get_status : stepCmd [0x0f] busyEngine
    = some (busyEngine, [0x00, 0x0f, 0x2a, 0x00, 0x00, 0x00, 0x00, 0x00]) := by decide +kernel

/-- P1 step 9: `SEQ = 18`, Resolved, 9750. -/
theorem test_get_status_corr : stepCmd [0x0f] { Engine.reset with seq := 18, corr := .resolved 9750 statusFrame }
    = some ({ Engine.reset with seq := 18, corr := .resolved 9750 statusFrame },
      [0x00, 0x00, 0x12, 0x02, 0x16, 0x26, 0x00, 0x00]) := by decide +kernel

/-- E3. -/
theorem test_session_init : stepCmd [0x10] busyEngine = some (.reset, [0x00]) := by decide +kernel

/-- E9. -/
theorem test_session_init_busy : stepCmd [0x10] { keyed with corr := .awaiting 7 }
    = some ({ keyed with corr := .awaiting 7 }, [0x05]) := by decide +kernel

/-- E10. -/
theorem test_session_end : stepCmd [0x11] { keyed with corr := .awaiting 7 }
    = some ({ Engine.reset with corr := .awaiting 7 }, [0x00]) := by decide +kernel

/-- E5. -/
theorem test_clr_flags : stepCmd [0x12, 0x04] { Engine.reset with parseErr := true, unsolicited := true }
    = some ({ Engine.reset with unsolicited := true }, [0x00]) := by decide +kernel

/-- E6: bits 0 and 1 cannot be cleared this way. -/
theorem test_clr_flags_all : stepCmd [0x12, 0xff] { keyed with parseErr := true, unsolicited := true }
    = some (keyed, [0x00]) := by decide +kernel

/-- X1 to X4, and ERR_DESC in the state of A14, X8 and X9. -/
theorem test_reserved_and_bad : stepCmd [] keyed = some (keyed, [0x01]) ∧ stepCmd [0x00] keyed = some (keyed, [0x01]) ∧
    stepCmd [0x13] keyed = some (keyed, [0x01]) ∧ stepCmd [0xff, 0x01, 0x02] keyed = some (keyed, [0x01]) ∧
    stepCmd (0x02 :: zeros 15) keyed = some (keyed, [0x02]) ∧
    stepCmd [0x0d, 0x01, 0x02, 0x03] { keyed with corr := .awaiting 9 } = some ({ keyed with corr := .awaiting 9 }, [0x02]) := by
  decide +kernel

/-! ## The host -/

/-- R90: `FRAME_ENC4 type, subtype, seq, payload` is `FRAME_ENC` with `fc = 0x00` (F2). -/
theorem test_frame_enc4 : (match step (hostSt keyed [.pseudo (.frameEnc4 0 3 7 [])]) with
    | .next s => s.engine == keyed && s.rsp == [[0x00, 0x04, 0x00, 0x0c, 0x00, 0x07, 0x00]]
    | .fault _ => false
    | .refused _ => false) = true := by decide +kernel

/-- A peer for the tests: device, service and characteristic. -/
def testPeer : Peer := ⟨[0xd1], ⟨[0xff, 0xff], [0xff, 0x01]⟩⟩

/-- R90, R289: the call names the device, the service, the characteristic and the frame. -/
theorem test_send :
    (match step { hostSt .reset [] with
        host := { State.reset.host with running := [.pseudo (.send [0x0c, 0x00, 0x14, 0x00])], peer := testPeer } } with
    | .next s => s.calls == [.writeCharacteristic [0xd1] [0xff, 0xff] [0xff, 0x01] [0x0c, 0x00, 0x14, 0x00]]
    | .fault _ => false
    | .refused _ => false) = true := by decide +kernel

/-- R250: after SESSION_INIT the subscription names the device and the notifying characteristic. -/
theorem test_connect_subscribes :
    stepHost [.resume (.sessionInit [0xd1] ⟨[0xff, 0xff], [0xff, 0x02]⟩ 5)] [0x00] .reset
      = some { State.reset.host with running :=
          [.transport (.subscribeNotifications [0xd1] [0xff, 0xff] [0xff, 0x02]), .pseudo (.sleep 5),
           .resume (.report .connected)] } ∧
    stepHost [.start (.connect [0xd1] 9 ⟨[0xff, 0xff], [0xff, 0x02]⟩ testPeer.write 5)] [] .reset
      = some { State.reset.host with peer := testPeer, running :=
          [.transport (.connect [0xd1] 9), .cmd [0x10], .resume (.sessionInit [0xd1] ⟨[0xff, 0xff], [0xff, 0x02]⟩ 5)] } := by
  decide +kernel

/-- The 128-byte big-endian form of a small number. -/
def pad128 (b : Byte) : Bytes 128 := ⟨zeros 127 ++ [b], rfl⟩

/-- R240, R242: the private key is held from the beginning of the handshake, the public key from its answer on. -/
theorem test_handshake_holds_keys :
    (stepHost [.start (.negotiate (pad128 0x07) (pad128 0x03))] [] .reset).map (·.keys)
      = some ⟨some (pad128 0x03), none, none, none, none⟩ ∧
    (stepHost [.resume (.publicKey (pad128 0x07))] (0x00 :: (pad128 0x01).val) .reset).map (·.keys)
      = some ⟨none, some (pad128 0x01), none, none, none⟩ := by
  decide +kernel

/-- R266: a failed write ends the sequence. -/
theorem test_send_link_down :
    (match step { hostSt .reset [.pseudo (.send [0x0c]), .cmd [0x0f]] with linkUp := false } with
    | .next s => s.calls == [] && s.host.running == [] && s.host.reports == [.transportError]
    | .fault _ => false
    | .refused _ => false) = true := by decide +kernel

/-- R267, R289: a scan reports the final list that `discover` yields, as the Transport gives it. -/
theorem test_scan_reports_devices :
    (match Sys2Proof.core.run 4
        { hostSt .reset [.start (.scan [0x01] 500)] with
          linkUp := false, turns := [.inRange [⟨[0xd1], [0x42], -60⟩, ⟨[0xd2], [], 4⟩], .host, .host, .host] } with
    | .next s => s.host.devices == [⟨[0xd1], [0x42], -60⟩, ⟨[0xd2], [], 4⟩] && s.calls == [.discover [0x01] 500] &&
        s.host.reports == [.scanned [⟨[0xd1], [0x42], -60⟩, ⟨[0xd2], [], 4⟩]]
    | .fault _ => false
    | .refused _ => false) = true := by decide +kernel

theorem test_wait : stepHost [.pseudo .wait, .cmd [0x0e]] [] .reset
    = some { State.reset.host with running := [.cmd [0x0e]], block := .untilIrq } := by decide +kernel

theorem test_sleep : stepHost [.pseudo (.sleep 3)] [] .reset = some { State.reset.host with block := .ticks 3 } := by
  decide +kernel

theorem test_request : (match step (hostSt .reset [.pseudo (.request 2000)]) with
    | .next s => s.engine.corr == .awaiting 2000 && s.rsp == [[0x00]] && s.host.running == [.pseudo .wait, .cmd [0x0e]]
    | .fault _ => false
    | .refused _ => false) = true := by decide +kernel

/-- P2 step 8: not qualifying, 600 ticks of the window used. -/
theorem test_poll_not_qualifying : stepHost [.resume (.polled .status 13000 2000)]
      [0x00, 0x78, 0x05, 0x00, 0x00, 0x01, 0x0f, 0x00, 0x01, 0x02, 0x00, 0x00, 0x01] .reset
    = some { State.reset.host with
        running := [.pseudo (.request 2000), .resume (.polled .status 12400 2000)] } := by decide +kernel

/-- P3 steps 5 and 6. -/
theorem test_poll_wifi_list : stepHost [.resume (.polled .scan 2000 2000)]
      [0x00, 0x20, 0x03, 0x00, 0x00, 0x01, 0x11, 0x00, 0x03, 0x0c, 0x00, 0x06, 0xce, 0x41, 0x42, 0x43, 0x44, 0x45, 0x04, 0xf6,
       0x58, 0x59, 0x5a] .reset
    = some { State.reset.host with
        reports := [.wifiList [⟨[0x58, 0x59, 0x5a], -10⟩, ⟨[0x41, 0x42, 0x43, 0x44, 0x45], -50⟩]] } := by decide +kernel

/-- W2: the first entry of an SSID is kept. -/
theorem test_wifi_duplicate : wifiList [0x06, 0xce, 0x41, 0x42, 0x43, 0x44, 0x45, 0x04, 0xf6, 0x58, 0x59, 0x5a, 0x06, 0xd8, 0x41,
      0x42, 0x43, 0x44, 0x45]
    = [⟨[0x58, 0x59, 0x5a], -10⟩, ⟨[0x41, 0x42, 0x43, 0x44, 0x45], -50⟩] := by decide +kernel

/-- W5: the extremes of the signal; equal signals keep payload order. -/
theorem test_wifi_signals : wifiList [0x02, 0x7f, 0x41, 0x02, 0x80, 0x42, 0x02, 0x00, 0x43, 0x02, 0x7f, 0x44]
    = [⟨[0x41], 127⟩, ⟨[0x44], 127⟩, ⟨[0x43], 0⟩, ⟨[0x42], -128⟩] := by decide +kernel

/-- P1 steps 3 to 5: the announcement, and the request armed before the block is fragmented. -/
theorem test_handshake_order : (handshake (pad128 0) (pad128 0)).take 5
    = [.cmd [0x08, 0x01, 0x00, 0x00, 0x03, 0x00, 0x00, 0x01, 0x07], .resume .sendFrame, .resume (.nego .lengthSent),
       .cmd [0x0d, 0x10, 0x27, 0x00, 0x00], .resume .expectOk] := by decide +kernel

/-! ## Witnesses: states and operands that meet the hypotheses of the obligations, clause by clause -/

/-- The state of an outcome that has one. -/
def after (o : Host.Outcome State Fault Refusal) : Option State :=
  match o with
  | .next s => some s
  | .fault _ => none
  | .refused _ => none

/-- A next state with a decidable property, from its evaluation. -/
theorem next_of {o : Host.Outcome State Fault Refusal} {p : State → Bool} (h : (after o).any p = true) :
    ∃ s', o = .next s' ∧ p s' = true := by
  cases o with
  | next s => exact ⟨s, rfl, by simpa [after] using h⟩
  | fault f => cases h
  | refused r => cases h

theorem witness_StepRunsDecodedInstruction :
    (let s := hostSt .reset [.cmd [0x0f]];
      s.turns = .host :: [] ∧ s.hostReady = true ∧ s.host.running = .cmd [0x0f] :: [] ∧ decodeCmd [0x0f] = .ok .getStatus) ∧
    (let s := { hostSt .reset [] with host := { State.reset.host with program := [.cmd [0x0f]] } };
      s.turns = .host :: [] ∧ s.hostReady = true ∧ s.host.running = [] ∧ s.host.program = .cmd [0x0f] :: [] ∧
      decodeCmd [0x0f] = .ok .getStatus) ∧
    (let s := hostSt .reset [.pseudo .wait];
      s.turns = .host :: [] ∧ s.hostReady = true ∧ s.host.running = .pseudo .wait :: []) ∧
    (let s := { hostSt .reset [] with host := { State.reset.host with program := [.pseudo .wait] } };
      s.turns = .host :: [] ∧ s.hostReady = true ∧ s.host.running = [] ∧ s.host.program = .pseudo .wait :: []) ∧
    { State.reset with turns := [.rx []] }.turns = .rx [] :: [] ∧ { State.reset with turns := [.tick] }.turns = .tick :: [] := by
  decide +kernel

theorem witness_DecodeInvertsEncode : ∀ i ∈ [Instr.md5 [], .reserved [], .rxNotify [0x3d, 0x00],
    .frameGeneric 3 0x3f 0xff 0xff (zeros 255), .frameDataNeg 0 0 (zeros 255), .clrFlags 0xff, .sleep 5],
    wellFormed i = true ∧ canonical i = true := by decide +kernel

theorem witness_DescriptorHasOneReading : decodeCmd [0x12, 0xff] = .ok (.clrFlags 0xff) ∧
    decodeCmd [] = .ok (.reserved []) := by decide +kernel

/-- Both boundary opcodes, one descriptor that is an encoding and one that is none. -/
theorem witness_DescriptorIsDecodedOrRefused :
    (∀ d ∈ ([[], [0x00], [0x13], [0x01, 0x00, 0x00], [0x12, 0xff], [0x12]] : List (List Byte)),
      let s := hostSt .reset [.cmd d];
      s.turns = .host :: [] ∧ s.hostReady = true ∧ s.host.running = .cmd d :: []) ∧
    (∀ d ∈ ([[], [0x00], [0x13], [0x01, 0x00, 0x00], [0x12, 0xff], [0x12]] : List (List Byte)),
      let s := { hostSt .reset [] with host := { State.reset.host with program := [.cmd d] } };
      s.turns = .host :: [] ∧ s.hostReady = true ∧ s.host.running = [] ∧ s.host.program = .cmd d :: []) ∧
    (wellFormed (.md5 []) = true ∧ encodeCmd (.md5 []) = [0x01, 0x00, 0x00]) ∧
    (wellFormed (.clrFlags 0xff) = true ∧ encodeCmd (.clrFlags 0xff) = [0x12, 0xff]) ∧
    (∀ i, wellFormed i = true → encodeCmd i ≠ [0x12]) := by
  refine ⟨by decide +kernel, by decide +kernel, by decide +kernel, by decide +kernel, fun i hw he => ?_⟩
  cases i <;> simp [encodeCmd, varField, le16, le32] at he
  subst he
  revert hw
  decide

theorem witness_ReservedOpcodesAreRefused : ∀ p ∈ ([([0x00], 0x00, []), ([0x13], 0x13, []), ([0xff, 0x01], 0xff, [0x01])]
    : List (List Byte × Byte × List Byte)), p.1 = p.2.1 :: p.2.2 ∧ (p.2.1.toNat = 0 ∨ 0x13 ≤ p.2.1.toNat) := by
  decide +kernel

theorem witness_Md5AnswersDigest : (zeros 64).length = 64 ∧ 15 < 16 ∧ 0 < 64 ∧ 63 < 64 := by decide +kernel

theorem witness_AesSetkeyLoadsOnce : (st .reset).engine.aesRk = none ∧ (st keyed).engine.aesRk = some (aesKeyExpand key) := by
  decide +kernel

theorem witness_KeyScheduleFollowsRecurrence : key.length = 16 ∧ (4 ≤ 4 ∧ 4 ≤ 43 ∧ 4 % 4 = 0) ∧
    (4 ≤ 43 ∧ 43 ≤ 43 ∧ 43 % 4 ≠ 0) := by decide +kernel

theorem witness_AesEncblkAnswers : (st keyed).engine.aesRk = some (aesKeyExpand key) ∧ (st .reset).engine.aesRk = none ∧
    (bytesFrom 0 16).length = 16 ∧ key.length = 16 ∧ 3 < 4 ∧ (0 : Byte) = 0 ∧ (0x53 : Byte) ≠ 0 := by decide +kernel

theorem witness_CipherIsAPermutation : (aesKeyExpand key).length = 176 ∧ (zeros 16).length = 16 ∧
    aesEncryptBlock (aesKeyExpand key) (zeros 16) = aesEncryptBlock (aesKeyExpand key) (zeros 16) := by decide +kernel

theorem witness_CfbEncAnswers : (st .reset).engine.aesRk = none ∧ (st keyed).engine.aesRk = some (aesKeyExpand key) ∧
    (aesKeyExpand key).length = 176 ∧ (bytesFrom 0 16).length = 16 ∧ 16 * 0 + 15 < (zeros 20).length ∧
    16 * 1 + 3 < (zeros 20).length := by decide +kernel

theorem witness_CfbPartialBlockIsAPrefix : (aesKeyExpand key).length = 176 ∧ (bytesFrom 0 16).length = 16 := by
  decide +kernel

theorem witness_CfbContinuesAtBlockBoundary : (aesKeyExpand key).length = 176 ∧ (bytesFrom 0 16).length = 16 ∧
    zeros 16 ≠ [] ∧ (zeros 16).length % 16 = 0 := by decide +kernel

theorem witness_ModpowAnswers :
    ((zeros 128).length ≤ 128 ∧ (bytesFrom 1 128).length ≤ 128 ∧ os2ip (bytesFrom 1 128) ≠ 0) ∧
    128 < (zeros 129).length ∧ os2ip [] = 0 := by decide +kernel

theorem witness_DhSharedSecretIsSymmetric : ([0x02] : List Byte).length ≤ 128 ∧ (bytesFrom 1 128).length ≤ 128 ∧
    os2ip (bytesFrom 1 128) ≠ 0 := by decide +kernel

theorem witness_FrameEncAnswers :
    ((1 : Byte).toNat < 2 ∧ (63 : Byte).toNat ≤ 63 ∧ (zeros 255).length ≤ 255) ∧ 2 ≤ (2 : Byte).toNat ∧
    63 < (64 : Byte).toNat ∧ 255 < (zeros 256).length := by decide +kernel

theorem witness_FrameDecAnswers :
    (0xff : Byte).toNat ≤ (zeros 255).length ∧ (0x00 : Byte).toNat ≤ ([] : List Byte).length ∧ (zeros 3).length < 4 ∧
    ([0x3d, 0x00, 0x07, 0x03, 0xaa, 0xbb] : List Byte).length
      < 4 + (([0x3d, 0x00, 0x07, 0x03, 0xaa, 0xbb] : List Byte).getD 3 0).toNat := by decide +kernel

theorem witness_FrameRoundTrip : ((1 : Byte).toNat ≤ 1 ∧ (63 : Byte).toNat ≤ 63 ∧ (zeros 255).length ≤ 255) ∧
    frameDecode [0x3d, 0x00, 0x07, 0x02, 0x00, 0x00, 0x99] = some statusFrame ∧ statusFrame.type.toNat ≤ 1 := by
  decide +kernel

theorem witness_FrameTxAnswers :
    ((1 : Byte).toNat < 2 ∧ (63 : Byte).toNat ≤ 63 ∧ (zeros 255).length ≤ 255) ∧ 2 ≤ (2 : Byte).toNat ∧
    63 < (64 : Byte).toNat ∧ 255 < (zeros 256).length := by decide +kernel

theorem witness_FrameTxEncAnswers :
    ((st keyed).engine.aesRk = some (aesKeyExpand key) ∧ (aesKeyExpand key).length = 176) ∧ (st .reset).engine.aesRk = none ∧
    ((1 : Byte).toNat < 2 ∧ (63 : Byte).toNat ≤ 63 ∧ (zeros 255).length ≤ 255) ∧ 2 ≤ (2 : Byte).toNat ∧
    63 < (64 : Byte).toNat ∧ 255 < (zeros 256).length := by decide +kernel

theorem keyed_sound : (st keyed).Sound where
  schedule rk h := by
    have e : some (aesKeyExpand key) = some rk := h
    cases e
    decide +kernel
  reasm r h := by cases h
  corr := trivial

/-- Three frames of one run, the second of them refused a number. -/
def txRun : List Instr := [.frameTx 1 0 0 [0x07], .frameTx 2 0 0 [], .frag (zeros 15)]

theorem witness_SequenceNumbersFollowIssuance : (st keyed).Sound ∧ (∀ i ∈ txRun, takesSeq i = true ∧ wellFormed i = true) ∧
    ∃ s', runAll txRun (st keyed) = some s' ∧ 2 < (framesBuilt txRun (st keyed)).length := by
  refine ⟨keyed_sound, by decide +kernel, _, Option.eq_some_of_isSome (o := runAll txRun (st keyed)) (by decide +kernel), ?_⟩
  decide +kernel

theorem witness_OnlyListedStepsWriteSeq :
    ∃ s', step (hostSt .reset [.cmd [0x08, 0x00, 0x09, 0x00, 0x00, 0x00]]) = .next s' ∧ decide (s'.engine.seq ≠ 0) = true :=
  next_of (by decide +kernel)

theorem witness_FragAnswersFramesOfTable : ∀ n ∈ [0, 14, 15, 65535], (zeros n).length ≤ 65535 := by
  intro n h
  rw [zeros, List.length_replicate]
  revert n
  decide +kernel

theorem witness_FragmentCountAndSizes : (zeros 14).length ≤ 14 ∧ 14 < (zeros 15).length ∧
    ∀ p ∈ [(0, 1), (13, 1), (14, 1), (15, 2), (29, 2), (30, 2), (31, 3), (264, 17), (300, 19), (1000, 63), (65535, 4097)],
      (zeros p.1).length = p.1 := by
  refine ⟨by decide, by decide, fun p _ => ?_⟩
  rw [zeros, List.length_replicate]

/-- The boundaries of every clause: a payload of 256 bytes, of 0, 1 and 2 bytes; one byte of data for a total of 1 and of 0;
a message of total 3 with two bytes, pushed 2, 1 and 0 more. -/
theorem witness_ReasmPushAnswers : let ra := { Engine.reset with ra := some ⟨3, [0xaa, 0xbb]⟩ }
    255 < (zeros 256).length ∧ (zeros 255).length ≤ 255 ∧ (st .reset).engine.ra = none ∧ (0xef : Byte).getLsbD 4 = false ∧
    (0x10 : Byte).getLsbD 4 = true ∧ ([0x05] : List Byte).length < 2 ∧
    ([0xaa] : List Byte).length ≤ (0x01 : Byte).toNat + 256 * (0x00 : Byte).toNat ∧
    (0x00 : Byte).toNat + 256 * (0x00 : Byte).toNat < ([0xaa] : List Byte).length ∧
    (st ra).engine.ra = some ⟨3, [0xaa, 0xbb]⟩ ∧ (3 : BitVec 16).toNat < 2 + (zeros 2).length ∧
    2 + (zeros 1).length ≤ (3 : BitVec 16).toNat ∧ 2 + (zeros 1).length = (3 : BitVec 16).toNat ∧
    2 + (zeros 0).length < (3 : BitVec 16).toNat := by decide +kernel

theorem witness_ReassembleFragmentsRoundTrip : (zeros 31).length ≤ 65535 ∧ (st keyed).engine.ra = none := by decide +kernel

theorem witness_PartialMessageStays :
    (∃ s', exec (.reasmPush 0x00 [0xcc, 0xdd]) (st { Engine.reset with ra := some ⟨3, [0xaa, 0xbb]⟩ }) = .next s' ∧
      decide (s'.rsp = [[0x0c]]) = true) ∧
    (∃ s', step (hostSt busyEngine [.cmd [0x0c]]) = .next s' ∧
      decide (busyEngine.ra ≠ none ∧ s'.engine.ra ≠ busyEngine.ra) = true) :=
  ⟨next_of (by decide +kernel), next_of (by decide +kernel)⟩

/-- An engine for each state of the slot. -/
def corrSt (c : Corr) : State := st { Engine.reset with corr := c }

theorem witness_CorrelatorTransitionTable :
    (corrSt .idle).engine.corr = .idle ∧ (1 : Word) ≠ 0 ∧ (corrSt .timedOut).engine.corr ≠ .idle ∧
    (corrSt (.awaiting 2)).engine.corr = .awaiting 2 ∧ frameDecode [0x0c, 0x00, 0x00, 0x00] = some ⟨0, 3, 0, 0, []⟩ ∧
    frameDecode [0x3d, 0x00] = none ∧ (∀ r, (corrSt .idle).engine.corr ≠ .awaiting r) ∧
    (∃ s', exec .tick (corrSt (.awaiting 1)) = .next s' ∧ true = true) ∧ 1 < (2 : Word).toNat ∧
    (corrSt (.resolved 0 statusFrame)).engine.corr = .resolved 0 statusFrame ∧
    (corrSt .timedOut).engine.corr = .timedOut ∧
    (∃ s', exec .sessionEnd (corrSt (.awaiting 1)) = .next s' ∧ true = true) ∧ notifies .sessionEnd = false :=
  ⟨rfl, by decide, by decide, rfl, by decide, by decide, fun _ h => (by cases h), next_of (p := fun _ => true) rfl, by decide,
    rfl, rfl, next_of (p := fun _ => true) rfl, rfl⟩

theorem witness_EveryFrameRowReachesTheSlot :
    instrFrame (.frameDataStatus 0x00 0x07 [0x00, 0x00]) = some statusFrame ∧ statusFrame.payload.length ≤ 255 ∧
    instrFrame (.frameGeneric 3 0x3f 0xff 0xff (zeros 255)) = some ⟨3, 0x3f, 0xff, 0xff, zeros 255⟩ ∧
    (corrSt (.awaiting 1)).engine.corr = .awaiting 1 ∧ ∀ r, (corrSt .timedOut).engine.corr ≠ .awaiting r :=
  ⟨rfl, by decide, rfl, rfl, fun _ h => by cases h⟩

theorem witness_TimeoutAtExactlyTheDeadline : (corrSt (.awaiting 3)).engine.corr = .awaiting 3 ∧ (3 : Word) ≠ 0 ∧
    2 < (3 : Word).toNat := ⟨rfl, by decide, by decide⟩

/-- The state of vectors Q17 and Q18: one tick left, a frame and a tick to come, in either order. -/
theorem witness_RaceResolvesExactlyOnce :
    (∃ s', exec .tick (corrSt .timedOut) = .next s' ∧ true = true) ∧ (corrSt .timedOut).engine.irqCorr = true ∧
    (corrSt (.awaiting 1)).engine.corr = .awaiting 1 ∧ frameDecode [0x0c, 0x00, 0x00, 0x00] = some ⟨0, 3, 0, 0, []⟩ ∧
    { corrSt (.awaiting 1) with turns := [.rx [0x0c, 0x00, 0x00, 0x00], .tick] }.turns
      = .rx [0x0c, 0x00, 0x00, 0x00] :: .tick :: [] ∧
    { corrSt (.awaiting 1) with turns := [.tick, .rx [0x0c, 0x00, 0x00, 0x00]] }.turns
      = .tick :: .rx [0x0c, 0x00, 0x00, 0x00] :: [] :=
  ⟨next_of (p := fun _ => true) rfl, by decide, rfl, by decide, rfl, rfl⟩

theorem witness_OnlyResetCancelsAWait :
    (∃ s', step { corrSt (.awaiting 7) with turns := [.reset] } = .next s' ∧ decide (s'.engine.corr = .idle) = true) ∧
    (∃ s', exec .sessionEnd (corrSt (.awaiting 7)) = .next s' ∧ true = true) ∧ (corrSt (.awaiting 7)).engine.corr ≠ .idle :=
  ⟨next_of (by decide +kernel), next_of (p := fun _ => true) rfl, by decide⟩

theorem witness_IrqRisesAndFallsWithTheOutcome :
    (∃ s', step { corrSt (.awaiting 1) with turns := [.tick] } = .next s' ∧
      decide ((corrSt (.awaiting 1)).engine.irqCorr = false ∧ s'.engine.irqCorr = true) = true) ∧
    (∃ s', step (hostSt { Engine.reset with corr := .timedOut } [.cmd [0x0e]]) = .next s' ∧
      decide ((corrSt .timedOut).engine.irqCorr = true ∧ s'.engine.irqCorr = false) = true) :=
  ⟨next_of (by decide +kernel), next_of (by decide +kernel)⟩

theorem witness_EventsNeverFailOrRespond : { State.reset with turns := [.rx []] }.turns = .rx [] :: [] ∧
    { State.reset with turns := [.tick] }.turns = .tick :: [] := ⟨rfl, rfl⟩

theorem witness_SessionInitLeavesResetState : (st busyEngine).engine.corr = .idle ∧ (corrSt .timedOut).engine.corr ≠ .idle ∧
    { corrSt (.awaiting 7) with turns := [.reset] }.turns = .reset :: [] := ⟨rfl, by decide, rfl⟩

theorem witness_KeyIsImmutableOnceEstablished :
    (∃ s', step (hostSt .reset [.cmd (0x02 :: key)]) = .next s' ∧
      decide (Engine.reset.keyValid = false ∧ s'.engine.keyValid = true) = true) ∧
    (∃ s', step (hostSt keyed [.cmd [0x11]]) = .next s' ∧
      decide (keyed.keyValid = true ∧ s'.engine.keyValid = false) = true) ∧
    (∃ s', step (hostSt keyed [.cmd (0x02 :: zeros 16)]) = .next s' ∧
      decide (keyed.keyValid = true ∧ s'.engine.keyValid = true) = true) :=
  ⟨next_of (by decide +kernel), next_of (by decide +kernel), next_of (by decide +kernel)⟩

theorem witness_GetStatusAnswersRegisters : (corrSt .idle).engine.corr = .idle ∧
    (corrSt (.awaiting 7)).engine.corr = .awaiting 7 ∧
    (corrSt (.resolved 7 statusFrame)).engine.corr = .resolved 7 statusFrame ∧ (corrSt .timedOut).engine.corr = .timedOut ∧
    (corrSt .timedOut).engine.corrCode ≠ 0x02 := by decide

theorem witness_ClrFlagsClearsNamedFlags : (0x04 : Byte).getLsbD 2 = true ∧ (0x04 : Byte).getLsbD 3 = false ∧
    (0x08 : Byte).getLsbD 2 = false ∧ (0x08 : Byte).getLsbD 3 = true := by decide

theorem witness_ErrorResponseIsOneByte :
    (∃ s', exec .reqCollect State.reset = .next s' ∧ decide (s'.rsp = [[0x08]]) = true) ∧
    (∃ s', step (hostSt .reset [.cmd [0x01]]) = .next s' ∧ decide (s'.rsp = [[0x02]]) = true) :=
  ⟨next_of (by decide +kernel), next_of (by decide +kernel)⟩

theorem witness_StatusesStayInTheMatrix :
    ∃ s', exec (.aesEncblk (zeros 16)) State.reset = .next s' ∧ decide (s'.rsp = [[0x09]]) = true :=
  next_of (by decide +kernel)

/-- An ordinary error and the two exceptions. -/
theorem witness_ErrorsArePrecise :
    (∃ s', exec .sessionInit (corrSt .timedOut) = .next s' ∧ decide (s'.rsp = [[0x05]]) = true) ∧
    (∃ s', exec .reqCollect (corrSt .timedOut) = .next s' ∧ decide (s'.rsp = [[0x06]]) = true) ∧
    (∃ s', exec (.reasmPush 0x00 []) (st busyEngine) = .next s' ∧ decide (s'.rsp = [[0x0c]]) = true) :=
  ⟨next_of (by decide +kernel), next_of (by decide +kernel), next_of (by decide +kernel)⟩

theorem witness_PureCommandsRepeat :
    (∃ s₁, exec .getStatus (st busyEngine) = .next s₁ ∧ decide (after (exec .getStatus s₁) ≠ none) = true) ∧
    (∃ s₁, exec .reqCollect (corrSt .timedOut) = .next s₁ ∧
      decide (after (exec .reqCollect s₁) ≠ none ∧ (corrSt .timedOut).engine.irqCorr = true) = true) :=
  ⟨next_of (by decide +kernel), next_of (by decide +kernel)⟩

theorem witness_ResetPutsEveryPieceOfState : { st busyEngine with turns := [.reset] }.turns = .reset :: [] := rfl

theorem witness_NothingMovesAfterReset : State.reset.engine = Engine.reset ∧
    (frameDecode [0x3d, 0x00, 0x07, 0x02, 0x00, 0x00]).isSome = true ∧ frameDecode [0x3d, 0x00] = none := by decide +kernel

theorem witness_StepKeepsSoundness : (st keyed).Sound ∧
    ∃ s', step { st keyed with turns := [.tick] } = .next s' ∧ true = true :=
  ⟨keyed_sound, next_of (p := fun _ => true) rfl⟩

theorem witness_SendWritesOrStops : State.reset.linkUp = true ∧ { State.reset with linkUp := false }.linkUp = false ∧
    State.reset.host.nego = none ∧ (State.reset.setNego (some .established)).host.nego = some .established ∧
    (State.reset.setNego (some .lengthSent)).host.nego = some .lengthSent ∧ NegoState.lengthSent ≠ .established := by decide

/-- R241: a failed write of an unfinished handshake fails the negotiator. -/
theorem test_send_fails_negotiator : ∀ p ∈ [(NegoState.lengthSent, NegoState.failed), (.established, .established)],
    (match step { (hostSt .reset [.pseudo (.send [0x0c])]).setNego (some p.1) with linkUp := false } with
    | .next s => s.host.nego == some p.2
    | .fault _ => false
    | .refused _ => false) = true := by decide +kernel

theorem witness_WaitHoldsUntilIrq :
    (let s := { hostSt { Engine.reset with corr := .timedOut } [.cmd [0x0e]] with
        host := { State.reset.host with running := [.cmd [0x0e]], block := .untilIrq } };
      s.turns = .host :: [] ∧ s.host.block = .untilIrq ∧ s.engine.irqCorr = true ∧ s.host.running = .cmd [0x0e] :: [] ∧
      decodeCmd [0x0e] = .ok .reqCollect) ∧ (corrSt (.awaiting 1)).engine.irqCorr = false := by decide +kernel

/-- No tick too few, the exact number, and a sleep of no ticks. -/
theorem witness_SleepLetsTicksPass :
    (runAll (.sleep 2 :: List.replicate 1 .tick) State.reset).map State.hostReady = some false ∧
    (runAll (.sleep 2 :: List.replicate 2 .tick) State.reset).map State.hostReady = some true ∧
    (runAll [.sleep 0] State.reset).map State.hostReady = some true := by decide +kernel

theorem witness_RequestIssuesThenWaits : State.reset.engine.corr = .idle ∧ (1 : Word) ≠ 0 ∧
    (corrSt (.awaiting 1)).engine.corr ≠ .idle := by decide +kernel

/-- A peer's public key for the tests. -/
def peerKey : Bytes 128 := ⟨bytesFrom 1 128, rfl⟩

/-- A modulus for the tests: 497. -/
def testP : Bytes 128 := ⟨zeros 126 ++ [0x01, 0xf1], rfl⟩

/-- The response of REQ_COLLECT with the peer's key. -/
def collected (peer : List Byte) : List Byte := 0x00 :: ([0x16, 0x26, 0x00, 0x00] ++ [0x01, 0x00, 0x00, 0x00] ++ varField peer)

/-- The host between the collected peer key and the rest of the handshake. -/
def peerKeySt : State :=
  { hostSt .reset [] with
    turns := List.replicate 9 .host
    rsp := [collected peerKey.val]
    host :=
      { State.reset.host with
        running := [.resume (.peerKey testP)], nego := some .awaitingPeerKey
        keys := ⟨some (pad128 0x0d), some (pad128 0), none, none, none⟩ } }

theorem witness_HandshakeLoadsTheDerivedKey :
    peerKeySt.turns = List.replicate 9 .host ++ [] ∧ peerKeySt.host.block = .ready ∧
    peerKeySt.host.running = [.resume (.peerKey testP)] ∧ peerKeySt.host.keys.privateKey = some (pad128 0x0d) ∧
    ([0x16, 0x26, 0x00, 0x00] : List Byte).length = 4 ∧
    peerKeySt.rsp = (0x00 :: ([0x16, 0x26, 0x00, 0x00] ++ [0x01, 0x00, 0x00, 0x00] ++ varField peerKey.val)) :: [] ∧
    os2ip testP.val ≠ 0 ∧ peerKeySt.engine.aesRk = none := by decide +kernel

/-- The nine turns at the end of the handshake, on those operands. -/
theorem test_handshake_ends : ∃ s', Sys2Proof.core.run 9 peerKeySt = .next s' ∧
    decide (s'.engine.aesRk = some (aesKeyExpand (md5 (i2osp (os2ip peerKey.val ^ 13 % 497) 128))) ∧
      s'.host.nego = some .established ∧ s'.host.reports = [.established] ∧ s'.host.running = [] ∧
      s'.host.keys = HandshakeKeys.dropped) = true :=
  next_of (by decide +kernel)

theorem witness_HandshakeFailureLoadsNoKey :
    (let s := { peerKeySt with turns := [.host], rsp := [[0x06]] };
      s.turns = .host :: [] ∧ s.host.block = .ready ∧ s.host.running = .resume (.peerKey testP) :: [] ∧
      s.host.nego = some .awaitingPeerKey ∧ s.rsp = [0x06] :: []) ∧
    (zeros 127).length ≤ 255 ∧ (zeros 127).length ≠ 128 ∧ (zeros 255).length ≤ 255 ∧ (zeros 255).length ≠ 128 ∧
    { peerKeySt with rsp := [collected (zeros 127)] }.rsp
      = (0x00 :: ([0x16, 0x26, 0x00, 0x00] ++ [0x01, 0x00, 0x00, 0x00] ++ varField (zeros 127))) :: [] := by decide +kernel

theorem witness_PollingLoopRounds :
    (∀ k ∈ [Kont.poll .status 0, .poll .scan 1, .polled .status 2001 2000, .polled .scan 2000 2000],
      let s := hostSt .reset [.resume k];
      s.turns = .host :: [] ∧ s.host.block = .ready ∧ s.host.running = .resume k :: []) ∧
    2000 ≤ 2001 ∧ 2000 ≤ 2000 ∧ { hostSt .reset [] with rsp := [[0x06]] }.rsp = [0x06] :: [] ∧
    (let payload : List Byte := [0x00, 0x00];
      payload.length ≤ 255 ∧ (1900 : Word).toNat ≤ 2000 ∧ payload[1]? = some 0x00 ∧
      ([0x00, 0x6c, 0x07, 0x00, 0x00, 0x01, 0x0f, 0x00, 0x02, 0x02, 0x00, 0x00, 0x00] : List Byte)
        = 0x00 :: (le32 1900 ++ [0x01, 0x0f, 0x00, 0x02] ++ varField payload)) := by decide +kernel

/-- The shortest and the longest SSID, and each kind of tail. -/
theorem witness_WifiParseReadsEntries :
    (∀ e ∈ ([(0x80, [0x41]), (0x7f, zeros 254)] : List (Byte × List Byte)), 1 ≤ e.2.length ∧ e.2.length ≤ 254) ∧
    (0x01 : Byte).toNat ≤ 1 ∧ ([0xce] : List Byte).length < (0x02 : Byte).toNat := by decide +kernel

end Sys2Proof.Tests
end

/-! PROOFS. What SEQ is written by (10_state.md R25), and the invariant of the persistent state (R26, R28, R37): it holds
at reset and every step keeps it. -/

namespace Sys2Proof.Machine

/-! ## The key schedule (R26): a step loads only keys of 16 bytes -/

theorem readFix_of_readOperands_aesSetkey {op : Byte} {p q key : List Byte}
    (h : readOperands op p = some (.aesSetkey key, q)) : readFix 16 p = some (key, q) := by
  unfold readOperands at h
  split at h
  case h_2 =>
    obtain ⟨⟨b, r⟩, hb, hr⟩ := Option.bind_eq_some_iff.mp h
    cases hr
    exact hb
  all_goals simp [Option.bind_eq_some_iff] at h

/-- R72, R73: the key of AES_SETKEY is a field of 16 bytes, and no other channel carries that command. -/
theorem aesSetkey_key_length_of_decode {t : Transaction} {key : List Byte} (h : decode t = .ok (.aesSetkey key)) :
    key.length = 16 := by
  cases t with
  | cmd d =>
    change decodeCmd d = _ at h
    rcases decodeCmd_cases d with ⟨_, hd⟩ | ⟨_, op, p, _, _, ⟨i, hi, hd⟩ | ⟨_, hd⟩⟩
    · rw [hd] at h; cases h
    · rw [hd] at h; cases h
      exact (readFix_eq_some (readFix_of_readOperands_aesSetkey hi)).2
    · rw [hd] at h; cases h
  | rx b =>
    have hrx : decodeRx b = .aesSetkey key := Except.ok.inj h
    unfold decodeRx at hrx
    split at hrx
    · rename_i f _
      have hf := instrFrame_frameInstr f
      rw [hrx] at hf
      cases hf
    · cases hrx
  | tick => cases h
  | pseudo p => cases p <;> cases h

/-- A schedule that stands after AES_SETKEY with a 16-byte key has R26's length. -/
theorem engineEffect_aesRk_length {i : Instr} {e : Engine} {rk : List Byte}
    (hkey : ∀ key, i = .aesSetkey key → key.length = 16) (he : ∀ rk, e.aesRk = some rk → rk.length = 176)
    (h : (engineEffect i e).aesRk = some rk) : rk.length = 176 := by
  by_cases hc : (engineEffect i e).aesRk = e.aesRk
  · exact he rk (hc ▸ h)
  · rcases engineEffect_aesRk hc with ⟨key, rfl, hnone⟩ | rfl | rfl
    · simp only [engineEffect, cmdAesSetkey, Engine.keyValid, hnone, Option.isSome_none, Bool.false_eq_true, if_false,
        complete_engine, Option.some.injEq] at h
      rw [← h]
      exact aesKeyExpand_length (hkey key rfl)
    · cases h
    · simp only [engineEffect, cmdSessionInit] at h
      split at h
      · cases h
      · exact he rk h

/-! ## The reassembler (I4 of R37) -/

/-- A message that goes on was checked against its total in this very step (R192). -/
theorem reasmStep_sound {more : Bool} {pl : List Byte} {ra : Option Reasm} {r : Reasm}
    (h : (reasmStep more pl ra).1 = some r) : r.Sound := by
  cases ra with
  | none =>
    simp only [reasmStep] at h
    split at h
    · split at h
      · split at h
        · cases h
        · rename_i lo hi data hle
          cases h
          have := fromLe16_lt lo hi
          simp only [Reasm.Sound, BitVec.toNat_ofNat]
          omega
      · cases h
    · cases h
  | some r₀ =>
    simp only [reasmStep] at h
    split at h
    · cases h
    · rename_i hle
      split at h
      · cases h
        exact Nat.le_of_not_lt hle
      · split at h <;> cases h

theorem cmdReasmPush_ra (fc : Byte) (pl : List Byte) (e : Engine) :
    (cmdReasmPush fc pl e).1.ra = e.ra ∨ (cmdReasmPush fc pl e).1.ra = (reasmStep (fc.getLsbD 4) pl e.ra).1 := by
  unfold cmdReasmPush
  split
  · exact .inl rfl
  · right
    split <;> rename_i hs <;> rw [hs] <;> rfl

theorem engineEffect_ra_sound {i : Instr} {e : Engine} {r : Reasm} (he : ∀ r, e.ra = some r → r.Sound)
    (h : (engineEffect i e).ra = some r) : r.Sound := by
  by_cases hc : (engineEffect i e).ra = e.ra
  · exact he r (hc ▸ h)
  · rcases engineEffect_ra hc with rfl | rfl | ⟨fc, pl, rfl⟩
    · cases h
    · simp only [engineEffect, cmdSessionInit] at h
      split at h
      · cases h
      · exact he r h
    · rcases cmdReasmPush_ra fc pl e with hs | hs
      · exact absurd hs hc
      · exact reasmStep_sound (hs ▸ h)

/-! ## The pending slot (I2 of R37, R28) -/

/-- Every notification is one received byte string (R212). -/
theorem engineEffect_of_notifies {i : Instr} (h : notifies i = true) (e : Engine) :
    ∃ b, engineEffect i e = receive b e := by
  cases i <;> simp only [notifies, Bool.false_eq_true] at h
  all_goals exact ⟨_, rfl⟩

theorem cmdReqIssue_corr_sound (t : Word) {e : Engine} (h : e.corr.Sound) : (cmdReqIssue t e).1.corr.Sound := by
  unfold cmdReqIssue
  split
  · rw [complete_engine]
    dsimp only
    split
    · trivial
    · assumption
  · exact h

theorem cmdReqCollect_corr_sound {e : Engine} (h : e.corr.Sound) : (cmdReqCollect e).1.corr.Sound := by
  unfold cmdReqCollect
  split
  · exact h
  · exact h
  · trivial
  · trivial

theorem tickEngine_corr_sound {e : Engine} (h : e.corr.Sound) : (tickEngine e).corr.Sound := by
  rcases tickEngine_cases e with ⟨_, ht⟩ | ⟨r, _, hne, ht⟩ | ⟨_, ht⟩
  · rw [ht]
    trivial
  · rw [ht]
    exact fun hz : r - 1 = 0 => hne (BitVec.sub_eq_iff_eq_add.mp hz)
  · rwa [ht]

theorem receive_corr_sound (b : List Byte) {e : Engine} (h : e.corr.Sound) : (receive b e).corr.Sound := by
  rcases receive_cases b e with ⟨_, hr⟩ | ⟨f, hf, ⟨r, _, hr⟩ | ⟨_, hr⟩⟩
  · rwa [hr]
  · rw [hr]
    exact frameDecode_payload hf
  · rwa [hr]

theorem engineEffect_corr_sound (i : Instr) {e : Engine} (h : e.corr.Sound) : (engineEffect i e).corr.Sound := by
  by_cases hc : (engineEffect i e).corr = e.corr
  · rwa [hc]
  · rcases engineEffect_corr hc with ⟨t, rfl⟩ | ⟨t, rfl⟩ | rfl | rfl | hn
    · exact cmdReqIssue_corr_sound t h
    · exact cmdReqIssue_corr_sound t h
    · exact cmdReqCollect_corr_sound h
    · exact tickEngine_corr_sound h
    · obtain ⟨b, hb⟩ := engineEffect_of_notifies hn e
      rw [hb]
      exact receive_corr_sound b h

/-! ## The invariant (R37) -/

theorem Engine.reset_sound : Engine.reset.Sound where
  schedule _ h := nomatch h
  reasm _ h := nomatch h
  corr := trivial

/-- Every instruction keeps the invariant. The key's length is asked for because an instruction that no descriptor
encodes has a meaning too (log 19). -/
theorem engineEffect_sound {i : Instr} {e : Engine} (hkey : ∀ key, i = .aesSetkey key → key.length = 16)
    (h : e.Sound) : (engineEffect i e).Sound where
  schedule _ hrk := engineEffect_aesRk_length hkey h.schedule hrk
  reasm _ hr := engineEffect_ra_sound h.reasm hr
  corr := engineEffect_corr_sound i h.corr

/-- A step runs only instructions that were decoded, so that its keys have 16 bytes. -/
theorem State.Runs.aesSetkey_key_length {s : State} {i : Instr} (h : s.Runs i) :
    ∀ key, i = .aesSetkey key → key.length = 16 := by
  rintro key rfl
  obtain ⟨t, _, _, hd⟩ := h
  exact aesSetkey_key_length_of_decode hd

/-! ## The obligations -/

/-- Settles O49: a step leaves the engine alone, resets it, or has the effect of one decoded instruction, and each of
these keeps the invariant. -/
theorem stepKeepsSoundness : Obligations.StepKeepsSoundness := by
  intro s s' hs hstep
  change s'.engine.Sound
  rcases step_engine_runs hstep with he | ⟨_, he⟩ | ⟨i, hi, he⟩
  · rw [he]
    exact hs
  · rw [he]
    exact Engine.reset_sound
  · rw [he]
    exact engineEffect_sound hi.aesSetkey_key_length hs

/-- Settles O25: a step that neither resets nor runs an instruction leaves the engine alone, and `engineEffect_seq` names
the instructions that write SEQ. -/
theorem onlyListedStepsWriteSeq : Obligations.OnlyListedStepsWriteSeq := by
  intro s s' hstep hseq
  rcases step_engine_runs hstep with he | ⟨hr, _⟩ | ⟨i, hi, he⟩
  · exact absurd (congrArg Engine.seq he) hseq
  · exact .inl hr
  · rw [he] at hseq
    exact .inr ⟨i, hi, engineEffect_seq hseq⟩

/-- Settles O50: after reset there is no schedule, no message being collected and no request. -/
theorem resetIsSound : Obligations.ResetIsSound := Engine.reset_sound

end Sys2Proof.Machine

/-! PROOFS. How a step runs what was fetched (20_memory.md R58), and which commands can be given twice (R57). -/

namespace Sys2Proof.Machine

/-! ## A fetched instruction runs (R58) -/

/-- The transaction that the host issues by an action; none for the actions that are no instruction. -/
def HostAction.transaction? : HostAction → Option Transaction
  | .cmd d => some (.cmd d)
  | .pseudo p => some (.pseudo p)
  | .transport _ => none
  | .start _ => none
  | .resume _ => none

theorem HostSide.next_of_running {h : HostSide} {a : HostAction} {more : List HostAction} (hr : h.running = a :: more) :
    h.next = some (a, { h with running := more, block := .ready }) := by
  rw [HostSide.next, hr]

theorem HostSide.next_of_program {h : HostSide} {a : HostAction} {more : List HostAction} (hr : h.running = [])
    (hp : h.program = a :: more) : h.next = some (a, { h with program := more, block := .ready }) := by
  rw [HostSide.next, hr, hp]

theorem step_of_fetch_run {s s' : State} {t : Transaction} {i : Instr} (hf : fetch s = .run t s')
    (hd : decode t = .ok i) : step s = exec i s' := by
  rw [step, hf]
  simp only [hd]

theorem fetchHost_of_next {s : State} {a : HostAction} {h : HostSide} {t : Transaction} (hready : s.hostReady = true)
    (hnext : s.host.next = some (a, h)) (ha : a.transaction? = some t) :
    fetchHost s = .run t { s with host := h } := by
  rw [fetchHost, if_pos hready, hnext]
  cases a with
  | cmd d => cases ha; rfl
  | pseudo p => cases ha; rfl
  | transport c => cases ha
  | start u => cases ha
  | resume k => cases ha

/-- On its turn a ready host's next action, when it is an instruction, is run without the turn and the action. -/
theorem step_of_host_next {s : State} {rest : List Turn} {a : HostAction} {h : HostSide} {t : Transaction} {i : Instr}
    (hturn : s.turns = .host :: rest) (hready : s.hostReady = true) (hnext : s.host.next = some (a, h))
    (ha : a.transaction? = some t) (hd : decode t = .ok i) :
    step s = exec i { s with turns := rest, host := h } := by
  have hf : fetch s = fetchHost { s with turns := rest } := by rw [fetch, hturn]
  have hrun : fetchHost { s with turns := rest } = .run t { s with turns := rest, host := h } :=
    fetchHost_of_next hready hnext ha
  exact step_of_fetch_run (hf.trans hrun) hd

theorem fetch_of_rx_turn {s : State} {b : List Byte} {rest : List Turn} (hturn : s.turns = .rx b :: rest) :
    fetch s = .run (.rx b) { s with turns := rest } := by
  rw [fetch, hturn]

theorem fetch_of_tick_turn {s : State} {rest : List Turn} (hturn : s.turns = .tick :: rest) :
    fetch s = .run .tick { s with turns := rest } := by
  rw [fetch, hturn]

/-! ## Commands that leave the engine alone (R57) -/

theorem cmdMd5_engine (msg : List Byte) (e : Engine) : (cmdMd5 msg e).1 = e := rfl

theorem cmdGetStatus_engine (e : Engine) : (cmdGetStatus e).1 = e := rfl

theorem cmdAesEncblk_engine (block : List Byte) (e : Engine) : (cmdAesEncblk block e).1 = e := by
  unfold cmdAesEncblk
  split <;> rfl

theorem cmdCfbEnc_engine (iv data : List Byte) (e : Engine) : (cmdCfbEnc iv data e).1 = e := by
  unfold cmdCfbEnc
  split <;> rfl

theorem cmdModpow_engine (base exp mod : List Byte) (e : Engine) : (cmdModpow base exp mod e).1 = e := by
  unfold cmdModpow
  split
  · rfl
  · split <;> rfl

theorem cmdFrameEnc_engine (type subtype fc seq : Byte) (payload : List Byte) (e : Engine) :
    (cmdFrameEnc type subtype fc seq payload e).1 = e := by
  unfold cmdFrameEnc
  split <;> rfl

theorem cmdFrameDec_engine (buf : List Byte) (e : Engine) : (cmdFrameDec buf e).1 = e := by
  unfold cmdFrameDec
  split <;> rfl

/-- The answer depends on the engine alone, so a command that leaves the engine as it is gives the same one again. -/
theorem exec_twice_of_engine_kept {i : Instr} {f : Engine → Engine × List Byte} {s s₁ s₂ : State}
    (hi : commandOf i = some f) (hkeep : ∀ e, (f e).1 = e) (h₁ : exec i s = .next s₁) (h₂ : exec i s₁ = .next s₂) :
    s₁.engine = s.engine ∧ ∃ r, s₁.rsp = r :: s.rsp ∧ s₂.rsp = r :: r :: s.rsp := by
  rw [exec_command hi] at h₁ h₂
  cases h₁
  cases h₂
  refine ⟨hkeep s.engine, (f s.engine).2, rfl, ?_⟩
  simp only [State.command_rsp, State.command_engine, hkeep]

/-! ## REQ_COLLECT (R210) -/

theorem cmdReqCollect_of_idle {e : Engine} (h : e.corr = .idle) : cmdReqCollect e = raise .errNoreq e := by
  rw [cmdReqCollect, h]

/-- A delivered outcome is gone: REQ_COLLECT empties a slot that is Resolved or TimedOut. -/
theorem cmdReqCollect_corr_of_irq {e : Engine} (h : e.irqCorr = true) : (cmdReqCollect e).1.corr = .idle := by
  rw [Engine.irqCorr] at h
  unfold cmdReqCollect
  cases hc : e.corr with
  | idle => rw [hc] at h; cases h
  | awaiting remain => rw [hc] at h; cases h
  | resolved remain f => rfl
  | timedOut => rfl

/-! ## The obligations -/

/-- Settles O46: each of the seven commands leaves the engine as it is, and REQ_COLLECT empties the slot that it reads. -/
theorem pureCommandsRepeat : Obligations.PureCommandsRepeat := by
  refine ⟨fun i s s₁ s₂ hi h₁ h₂ => ?_, fun s s₁ s₂ h₁ h₂ hirq => ?_⟩
  · rcases hi with ⟨m, rfl⟩ | ⟨b, rfl⟩ | ⟨v, d, rfl⟩ | ⟨b, e, m, rfl⟩ | ⟨t, st, fc, q, p, rfl⟩ | ⟨b, rfl⟩ | rfl
    · exact exec_twice_of_engine_kept rfl (cmdMd5_engine m) h₁ h₂
    · exact exec_twice_of_engine_kept rfl (cmdAesEncblk_engine b) h₁ h₂
    · exact exec_twice_of_engine_kept rfl (cmdCfbEnc_engine v d) h₁ h₂
    · exact exec_twice_of_engine_kept rfl (cmdModpow_engine b e m) h₁ h₂
    · exact exec_twice_of_engine_kept rfl (cmdFrameEnc_engine t st fc q p) h₁ h₂
    · exact exec_twice_of_engine_kept rfl (cmdFrameDec_engine b) h₁ h₂
    · exact exec_twice_of_engine_kept rfl cmdGetStatus_engine h₁ h₂
  · have hidle : s₁.engine.corr = .idle := by
      rw [exec_next_engine h₁]
      exact cmdReqCollect_corr_of_irq hirq
    rw [exec_command (f := cmdReqCollect) rfl] at h₂
    cases h₂
    rw [State.command_rsp, cmdReqCollect_of_idle hidle, raise_response]
    rfl

/-- Settles O1: the host's two sources of actions are the two cases of `HostSide.next`, and a notification or a tick is
fetched from its turn. -/
theorem stepRunsDecodedInstruction : Obligations.StepRunsDecodedInstruction := by
  intro s rest more d p b i
  refine ⟨fun ht hready hr hd => ?_, fun ht hready hr hp hd => ?_, fun ht hready hr => ?_,
    fun ht hready hr hp => ?_, fun ht => ?_, fun ht => ?_⟩
  · exact step_of_host_next ht hready (HostSide.next_of_running hr) rfl hd
  · exact step_of_host_next ht hready (HostSide.next_of_program hr hp) rfl hd
  · exact step_of_host_next ht hready (HostSide.next_of_running hr) rfl rfl
  · exact step_of_host_next ht hready (HostSide.next_of_program hr hp) rfl rfl
  · exact step_of_fetch_run (fetch_of_rx_turn ht) rfl
  · exact step_of_fetch_run (fetch_of_tick_turn ht) rfl

end Sys2Proof.Machine

/-! PROOFS. Decode and encode agree on every row of R73, R82 and R90 (30_encoding.md R70 to R83), and what the engine does
with a descriptor (R72, R75). -/

namespace Sys2Proof

/-! ## The field readers are the writers' inverses (R53) -/

theorem readVar_varField_end {b : List Byte} (h : b.length ≤ Config.varMax) : readVar (varField b) = some (b, []) := by
  simpa using readVar_varField [] h

theorem readFix_end {n : Nat} {b : List Byte} (h : b.length = n) : readFix n b = some (b, []) := by
  simpa using readFix_append [] h

theorem readU32_le32_end (v : Word) : readU32 (le32 v) = some (v, []) := readU32_le32 v []

theorem readU8_eq_some_iff {p q : List Byte} {b : Byte} : readU8 p = some (b, q) ↔ p = b :: q :=
  ⟨readU8_eq_some, fun h => h ▸ readU8_cons b q⟩

theorem readVar_eq_some_iff {p b q : List Byte} :
    readVar p = some (b, q) ↔ p = varField b ++ q ∧ b.length ≤ Config.varMax :=
  ⟨readVar_eq_some, fun ⟨hp, hb⟩ => hp ▸ readVar_varField q hb⟩

theorem readFix_eq_some_iff {n : Nat} {p b q : List Byte} : readFix n p = some (b, q) ↔ p = b ++ q ∧ b.length = n :=
  ⟨readFix_eq_some, fun ⟨hp, hb⟩ => hp ▸ readFix_append q hb⟩

theorem readU32_eq_some_iff {p q : List Byte} {v : Word} : readU32 p = some (v, q) ↔ p = le32 v ++ q :=
  ⟨readU32_eq_some, fun h => h ▸ readU32_le32 v q⟩

/-! ## The rows of R73, in both directions -/

/-- The operand reader reads a well-formed command back from its descriptor, to the last byte. -/
theorem readOperands_encodeCmd {i : Instr} {op : Byte} {p : List Byte} (hw : wellFormed i = true)
    (he : encodeCmd i = op :: p) (hop : reservedOpcode op = false) : readOperands op p = some (i, []) := by
  cases i <;> simp only [wellFormed, Bool.and_eq_true, decide_eq_true_eq, beq_iff_eq] at hw <;> cases he
  case md5 => simp [readOperands_md5, readVar_varField_end hw]
  case aesSetkey => simp [readOperands_aesSetkey, readFix_end hw]
  case aesEncblk => simp [readOperands_aesEncblk, readFix_end hw]
  case cfbEnc => simp [readOperands_cfbEnc, readFix_append _ hw.left, readVar_varField_end hw.right]
  case modpow =>
    obtain ⟨⟨hbase, hexp⟩, hmod⟩ := hw
    simp [readOperands_modpow, readVar_varField _ hbase, readVar_varField _ hexp, readVar_varField_end hmod]
  case frameEnc => simp [readOperands_frameEnc, readVar_varField_end hw]
  case frameDec => simp [readOperands_frameDec, readVar_varField_end hw]
  case frameTx => simp [readOperands_frameTx, readVar_varField_end hw]
  case frameTxEnc => simp [readOperands_frameTxEnc, readVar_varField_end hw]
  case frag => simp [readOperands_frag, readVar_varField_end hw]
  case reasmPush => simp [readOperands_reasmPush, readVar_varField_end hw]
  case reqIssue => simp [readOperands_reqIssue, readU32_le32_end]
  case reserved => rw [reservedDescriptor, hop] at hw; cases hw
  case reasmReset | reqCollect | getStatus | sessionInit | sessionEnd | clrFlags => rfl

/-- What the operand reader reads is well formed, and its encoding is the opcode with the bytes that were consumed. -/
theorem readOperands_eq_some {op : Byte} {p q : List Byte} {i : Instr} (h : readOperands op p = some (i, q)) :
    op :: p = encodeCmd i ++ q ∧ wellFormed i = true := by
  have opcode {n : Nat} (hn : op.toNat = n) : op = BitVec.ofNat 8 n := by rw [← hn, BitVec.ofNat_toNat, BitVec.setWidth_eq]
  unfold readOperands at h
  split at h <;> simp only [Option.bind_eq_bind, Option.pure_def, Option.bind_eq_some_iff, Prod.exists, readU8_eq_some_iff,
    readVar_eq_some_iff, readFix_eq_some_iff, readU32_eq_some_iff, Option.some.injEq, Prod.mk.injEq, reduceCtorEq] at h
  case h_1 hop | h_7 hop | h_10 hop =>
    obtain ⟨b, _, ⟨rfl, hb⟩, rfl, rfl⟩ := h
    simp [encodeCmd, wellFormed, opcode hop, hb]
  case h_2 hop | h_3 hop =>
    obtain ⟨b, _, ⟨rfl, hb⟩, rfl, rfl⟩ := h
    simp [encodeCmd, wellFormed, opcode hop, hb]
  case h_4 hop =>
    obtain ⟨iv, _, ⟨rfl, hiv⟩, data, _, ⟨rfl, hdata⟩, rfl, rfl⟩ := h
    simp [encodeCmd, wellFormed, opcode hop, hiv, hdata]
  case h_5 hop =>
    obtain ⟨base, _, ⟨rfl, hbase⟩, exp, _, ⟨rfl, hexp⟩, mod, _, ⟨rfl, hmod⟩, rfl, rfl⟩ := h
    simp [encodeCmd, wellFormed, opcode hop, hbase, hexp, hmod]
  case h_6 hop =>
    obtain ⟨type, _, rfl, subtype, _, rfl, fc, _, rfl, seq, _, rfl, payload, _, ⟨rfl, hpayload⟩, rfl, rfl⟩ := h
    simp [encodeCmd, wellFormed, opcode hop, hpayload]
  case h_8 hop | h_9 hop =>
    obtain ⟨type, _, rfl, subtype, _, rfl, fc, _, rfl, payload, _, ⟨rfl, hpayload⟩, rfl, rfl⟩ := h
    simp [encodeCmd, wellFormed, opcode hop, hpayload]
  case h_11 hop =>
    obtain ⟨fc, _, rfl, payload, _, ⟨rfl, hpayload⟩, rfl, rfl⟩ := h
    simp [encodeCmd, wellFormed, opcode hop, hpayload]
  case h_12 hop | h_14 hop | h_15 hop | h_16 hop | h_17 hop =>
    obtain ⟨rfl, rfl⟩ := h
    simp [encodeCmd, wellFormed, opcode hop]
  case h_13 hop =>
    obtain ⟨t, _, rfl, rfl, rfl⟩ := h
    simp [encodeCmd, wellFormed, opcode hop]
  case h_18 hop =>
    obtain ⟨mask, _, rfl, rfl, rfl⟩ := h
    simp [encodeCmd, wellFormed, opcode hop]

/-! ## The decoder is the encoder's inverse -/

/-- No command has a reserved opcode: what encodes to a reserved descriptor is the row of R75. -/
theorem eq_reserved_of_encodeCmd {i : Instr} (hres : reservedDescriptor (encodeCmd i) = true) (he : encodeCmd i ≠ []) :
    i = .reserved (encodeCmd i) := by
  cases i <;> simp [encodeCmd, reservedDescriptor] at hres he ⊢

/-- A descriptor on `cmd`, of a command or of a reserved row, is read back. -/
theorem decodeCmd_encodeCmd {i : Instr} (hw : wellFormed i = true) (he : encodeCmd i ≠ []) :
    decodeCmd (encodeCmd i) = .ok i := by
  rcases decodeCmd_cases (encodeCmd i) with ⟨hres, hd⟩ | ⟨_, op, p, hp, hop, ⟨j, hj, hd⟩ | ⟨hnone, _⟩⟩
  · rw [hd, ← eq_reserved_of_encodeCmd hres he]
  · rw [readOperands_encodeCmd hw hp hop] at hj
    cases hj
    exact hd
  · exact absurd (readOperands_encodeCmd hw hp hop) (hnone i)

/-- What a descriptor decodes to encodes to that descriptor, and its operands fit. -/
theorem encodeCmd_of_decodeCmd {d : List Byte} {i : Instr} (h : decodeCmd d = .ok i) :
    encodeCmd i = d ∧ wellFormed i = true := by
  rcases decodeCmd_cases d with ⟨hres, hd⟩ | ⟨_, op, p, rfl, _, ⟨j, hj, hd⟩ | ⟨_, hd⟩⟩ <;> rw [hd] at h <;> cases h
  · exact ⟨rfl, hres⟩
  · obtain ⟨hp, hw⟩ := readOperands_eq_some hj
    exact ⟨by rw [hp, List.append_nil], hw⟩

/-- A frame row is well formed when its frame is one that R165 admits. -/
theorem instrFrame_payload_length {i : Instr} {f : Frame} (hf : instrFrame i = some f) (hw : wellFormed i = true) :
    f.payload.length ≤ Config.payloadMax := by
  cases i <;> simp only [instrFrame, Option.some.injEq, reduceCtorEq] at hf <;> subst hf <;> exact of_decide_eq_true hw

/-- A notification on `rx` is read back as the frame row that it is the encoding of. -/
theorem decode_encode_frame {i : Instr} {f : Frame} (hf : instrFrame i = some f) (hw : wellFormed i = true)
    (hc : canonical i = true) : decode (encode i) = .ok i := by
  rw [encode_frame hf, decode, decodeRx_frameEncode (instrFrame_payload_length hf hw), frameInstr_of_instrFrame hf hc]

/-- Bytes that are no frame are read back as the bare notification. -/
theorem decode_encode_rxNotify {b : List Byte} (hc : canonical (.rxNotify b) = true) :
    decode (encode (.rxNotify b)) = .ok (.rxNotify b) := by
  have hnone : frameDecode b = none := eq_of_beq hc
  rw [encode, decode, decodeRx, hnone]

/-! ## The obligations -/

/-- Settles O3: a descriptor is read back field by field (`readOperands_encodeCmd`), a frame row by the frame codec, and the
other rows stand in their transaction as they are. -/
theorem decodeInvertsEncode : Obligations.DecodeInvertsEncode := by
  intro i hw hc
  by_cases he : encodeCmd i = []
  · cases hf : instrFrame i with
    | some f => exact decode_encode_frame hf hw hc
    | none =>
      cases i
      case reserved d => obtain rfl : d = [] := he; rfl
      case rxNotify b => exact decode_encode_rxNotify hc
      case tick | frameEnc4 | send | wait | request | sleep => rfl
      case frameDataNeg | frameDataSsid | frameDataPassword | frameDataStatus | frameDataWifilist | frameCtrlApply
        | frameCtrlScan | frameGeneric => cases hf
      all_goals cases he
  · rw [encode_command he]
    exact decodeCmd_encodeCmd hw he

/-- Settles O4: the operand reader consumes exactly the bytes that the encoder writes. -/
theorem descriptorHasOneReading : Obligations.DescriptorHasOneReading := fun _ _ h => encodeCmd_of_decodeCmd h

/-- Settles O2: each written descriptor is the encoding of its command, so the decoder reads it back. -/
theorem wordsDecodeAsWritten : Obligations.WordsDecodeAsWritten := by
  refine ⟨?_, ?_, ?_, ?_, ?_, ?_, ?_, ?_⟩
  · exact decodeCmd_encodeCmd (i := .md5 [0x61, 0x62, 0x63]) rfl (List.cons_ne_nil _ _)
  · exact decodeCmd_encodeCmd (i := .modpow [0x04] [0x0d] [0x01, 0xf1]) rfl (List.cons_ne_nil _ _)
  · exact decodeCmd_encodeCmd (i := .frameEnc 1 0x11 0x10 0xff [0x01, 0x02, 0x03]) rfl (List.cons_ne_nil _ _)
  · exact decodeCmd_encodeCmd (i := .reqIssue 10000) rfl (List.cons_ne_nil _ _)
  · exact decodeCmd_encodeCmd (i := .clrFlags 0x04) rfl (List.cons_ne_nil _ _)
  · exact decodeCmd_encodeCmd (i := .reserved [0x13]) rfl (List.cons_ne_nil _ _)
  · rfl
  · rfl

end Sys2Proof

namespace Sys2Proof.Machine

/-- A descriptor whose fields do not fit is refused with ERR_DESC on the host's turn (R72 step (2)). -/
theorem step_of_host_next_bad {s : State} {rest : List Turn} {h : HostSide} {d : List Byte}
    (hturn : s.turns = .host :: rest) (hready : s.hostReady = true) (hnext : s.host.next = some (.cmd d, h))
    (hd : decodeCmd d = .error .badDescriptor) :
    step s = .next { s with turns := rest, host := h, rsp := [0x02] :: s.rsp } := by
  have hf : fetch s = fetchHost { s with turns := rest } := by rw [fetch, hturn]
  have hrun : fetchHost { s with turns := rest } = .run (.cmd d) { s with turns := rest, host := h } :=
    fetchHost_of_next hready hnext rfl
  rw [step, hf, hrun]
  simp only [decode, hd]
  rfl

theorem exec_reserved (d : List Byte) (s : State) : exec (.reserved d) s = .next { s with rsp := [0x01] :: s.rsp } := rfl

/-- R72 step (1): the descriptors that are refused for their opcode. -/
theorem decodeCmd_of_reserved {d : List Byte} (h : d = [] ∨ ∃ op p, d = op :: p ∧ (op.toNat = 0 ∨ 0x12 < op.toNat)) :
    decodeCmd d = .ok (.reserved d) := by
  rcases h with rfl | ⟨op, p, rfl, hop⟩
  · rfl
  · exact if_pos (by simpa using hop)

/-- A descriptor that no well-formed command encodes to does not decode (R72 step (2)). -/
theorem decodeCmd_of_no_encoding {d : List Byte} (h : ∀ i, wellFormed i = true → encodeCmd i ≠ d) :
    decodeCmd d = .error .badDescriptor := by
  cases hd : decodeCmd d with
  | ok i =>
    obtain ⟨he, hw⟩ := encodeCmd_of_decodeCmd hd
    exact absurd he (h i hw)
  | error e => cases e; rfl

/-- R72, for the host with its next action taken: `h` is the host without it. -/
theorem step_of_host_descriptor {s : State} {rest : List Turn} {h : HostSide} {d : List Byte}
    (hturn : s.turns = .host :: rest) (hready : s.hostReady = true) (hnext : s.host.next = some (.cmd d, h)) :
    (d = [] ∨ (∃ op p, d = op :: p ∧ (op.toNat = 0 ∨ 0x12 < op.toNat)) →
      step s = .next { s with turns := rest, host := h, rsp := [0x01] :: s.rsp }) ∧
    (d ≠ [] → (∀ i, wellFormed i = true → encodeCmd i = d → step s = exec i { s with turns := rest, host := h }) ∧
      ((∀ i, wellFormed i = true → encodeCmd i ≠ d) →
        step s = .next { s with turns := rest, host := h, rsp := [0x02] :: s.rsp })) := by
  refine ⟨fun hres => ?_, fun hne => ⟨fun i hw he => ?_, fun hno => ?_⟩⟩
  · exact step_of_host_next hturn hready hnext rfl (decodeCmd_of_reserved hres)
  · subst he
    exact step_of_host_next hturn hready hnext rfl (decodeCmd_encodeCmd hw hne)
  · exact step_of_host_next_bad hturn hready hnext (decodeCmd_of_no_encoding hno)

/-! ## The obligations -/

/-- Settles O5: the host's two sources of actions are the two cases of `HostSide.next`, and a descriptor decodes exactly
when it is the encoding of a well-formed instruction. -/
theorem descriptorIsDecodedOrRefused : Obligations.DescriptorIsDecodedOrRefused := by
  intro s s₁ rest more d hturn hready hsource
  have key : ∃ h, s.host.next = some (.cmd d, h) ∧ s₁ = { s with turns := rest, host := h } := by
    rcases hsource with ⟨hr, hs₁⟩ | ⟨hr, hp, hs₁⟩
    · exact ⟨_, HostSide.next_of_running hr, hs₁⟩
    · exact ⟨_, HostSide.next_of_program hr hp, hs₁⟩
  obtain ⟨h, hnext, rfl⟩ := key
  obtain ⟨hres, hcmd⟩ := step_of_host_descriptor hturn hready hnext
  exact ⟨hres, fun op p hd _ _ => hcmd (hd ▸ List.cons_ne_nil op p)⟩

/-- Settles O6: the empty descriptor and every reserved opcode decode to the reserved row, which answers ERR_OPCODE. -/
theorem reservedOpcodesAreRefused : Obligations.ReservedOpcodesAreRefused := by
  intro d s h
  exact ⟨decodeCmd_of_reserved h, exec_reserved d s⟩

end Sys2Proof.Machine

/-! PROOFS. What stands on `rsp` (30_encoding.md R74): every command ends by `complete` or `raise`, and nothing else of a
step answers but the refusal of a descriptor. -/

namespace Sys2Proof.Machine

/-! ## How a command ends (R13, R276) -/

/-- The outcome of a command: it completes with results, or it raises a status. -/
inductive CommandEnd : Engine × List Byte → Prop where
  | completed (results : List Byte) (e : Engine) : CommandEnd (complete results e)
  | raised (status : Status) (e : Engine) : CommandEnd (raise status e)

theorem CommandEnd.response {out : Engine × List Byte} (h : CommandEnd out) :
    ∃ status results, out.2 = status :: results ∧ (status ≠ 0x00 → results = []) := by
  cases h with
  | completed results e => exact ⟨0x00, results, rfl, fun hne => absurd rfl hne⟩
  | raised status e => exact ⟨status.code, [], rfl, fun _ => rfl⟩

theorem cmdFrameEnc_end (type subtype fc seq : Byte) (payload : List Byte) (e : Engine) :
    CommandEnd (cmdFrameEnc type subtype fc seq payload e) := by
  unfold cmdFrameEnc
  split
  · exact .raised _ e
  · exact .completed _ e

theorem cmdReqIssue_end (t : Word) (e : Engine) : CommandEnd (cmdReqIssue t e) := by
  unfold cmdReqIssue
  split
  · exact .completed _ _
  · exact .raised _ e

theorem commandOf_end {i : Instr} {f : Engine → Engine × List Byte} (h : commandOf i = some f) (e : Engine) :
    CommandEnd (f e) := by
  cases i <;> cases h
  case frameEnc | frameEnc4 => exact cmdFrameEnc_end _ _ _ _ _ e
  case reqIssue => exact cmdReqIssue_end _ e
  case aesSetkey =>
    unfold cmdAesSetkey
    split
    · exact .raised _ e
    · exact .completed _ _
  case aesEncblk =>
    unfold cmdAesEncblk
    split
    · exact .raised _ e
    · exact .completed _ e
  case cfbEnc =>
    unfold cmdCfbEnc
    split
    · exact .raised _ e
    · exact .completed _ e
  case modpow =>
    unfold cmdModpow
    split
    · exact .raised _ e
    · split
      · exact .raised _ e
      · exact .completed _ e
  case frameDec =>
    unfold cmdFrameDec
    split
    · exact .raised _ e
    · exact .completed _ e
  case frameTx =>
    unfold cmdFrameTx
    split
    · exact .raised _ e
    · exact .completed _ _
  case frameTxEnc =>
    unfold cmdFrameTxEnc
    split
    · exact .raised _ e
    · split
      · exact .raised _ e
      · exact .completed _ _
  case reasmPush =>
    unfold cmdReasmPush
    split
    · exact .raised _ e
    · split
      · exact .completed _ _
      · exact .completed _ _
      · exact .raised _ _
  case reqCollect =>
    unfold cmdReqCollect
    split
    · exact .raised _ e
    · exact .raised _ e
    · exact .raised _ _
    · exact .completed _ _
  case sessionInit =>
    unfold cmdSessionInit
    split
    · exact .completed _ _
    · exact .raised _ e
  case md5 | frag | reasmReset | getStatus | sessionEnd | clrFlags => exact .completed _ _
  case reserved => exact .raised _ e

/-- What an instruction can put on `rsp`, said once: nothing, or the one response of a command. -/
theorem exec_rsp {i : Instr} {s s' : State} (h : exec i s = .next s') :
    s'.rsp = s.rsp ∨ ∃ out, CommandEnd out ∧ s'.rsp = out.2 :: s.rsp := by
  cases hc : commandOf i with
  | some f =>
    rw [exec_command hc] at h
    cases h
    exact .inr ⟨f s.engine, commandOf_end hc s.engine, rfl⟩
  | none =>
    cases i
    case request t =>
      cases h
      exact .inr ⟨cmdReqIssue t s.engine, cmdReqIssue_end t s.engine, rfl⟩
    case send f =>
      cases h
      exact .inl (State.callTransport_rsp _ s)
    case rxNotify | tick | frameDataNeg | frameDataSsid | frameDataPassword | frameDataStatus | frameDataWifilist
      | frameCtrlApply | frameCtrlScan | frameGeneric | wait | sleep =>
      cases h
      exact .inl rfl
    all_goals cases hc

/-! ## The host's computations put nothing on `rsp` -/

theorem State.withResult_rsp {α : Type} {parse : List Byte → Option α} {s : State} {k : α → State}
    (h : ∀ x, (k x).rsp = s.rsp) : (s.withResult parse k).rsp = s.rsp := by
  rcases withResult_cases parse s k with ⟨x, _, _, hk⟩ | hk
  · rw [hk, h x]
  · rw [hk, State.abort_rsp]

theorem pollStep_rsp (goal : PollGoal) (left : Nat) (s : State) : (pollStep goal left s).rsp = s.rsp := by
  rcases pollStep_cases goal left s with ⟨_, h⟩ | ⟨_, h⟩ <;> rw [h] <;> rfl

theorem resume_rsp (k : Kont) (s : State) : (resume k s).rsp = s.rsp := by
  cases k <;> simp only [resume]
  case expectOk | sendFrame | sendFrames | publicKey | sharedSecret | sessionKey =>
    exact State.withResult_rsp fun _ => rfl
  case nego | discovered | report => rfl
  case peerKey =>
    split
    · rfl
    · exact State.withResult_rsp fun _ => by split <;> rfl
  case sessionInit =>
    split
    · rfl
    · exact State.withResult_rsp fun _ => rfl
  case poll => exact pollStep_rsp _ _ _
  case polled =>
    split
    · exact pollStep_rsp _ _ _
    · refine State.withResult_rsp fun _ => ?_
      split
      · rfl
      · exact pollStep_rsp _ _ _

theorem startUseCase_rsp (u : UseCase) (s : State) : (startUseCase u s).rsp = s.rsp := by
  cases u <;> rfl

/-- The state in which a fetched transaction runs, or which a move that is no instruction leaves. -/
def Fetched.state : Fetched → State
  | .run _ s => s
  | .move s => s

theorem fetchHost_rsp (s : State) : (fetchHost s).state.rsp = s.rsp := by
  unfold fetchHost
  split
  · split
    · rfl
    · rfl
    · rfl
    · exact State.callTransport_rsp _ _
    · exact startUseCase_rsp _ _
    · exact resume_rsp _ _
  · rfl

/-- Fetching puts nothing on `rsp`. -/
theorem fetch_rsp (s : State) : (fetch s).state.rsp = s.rsp := by
  unfold fetch
  split
  case h_2 => exact fetchHost_rsp _
  all_goals rfl

/-- What a step can put on `rsp`, said once: nothing, or the one response of a command or of a refused descriptor. -/
theorem step_rsp {s s' : State} (h : step s = .next s') :
    s'.rsp = s.rsp ∨ ∃ out, CommandEnd out ∧ s'.rsp = out.2 :: s.rsp := by
  have hrsp := fetch_rsp s
  unfold step at h
  cases hf : fetch s with
  | move s₁ =>
    rw [hf] at h hrsp
    cases h
    exact .inl hrsp
  | run t s₁ =>
    rw [hf] at h hrsp
    rw [← show s₁.rsp = s.rsp from hrsp]
    cases hd : decode t with
    | ok i => exact exec_rsp (by simpa only [hd] using h)
    | error err =>
      cases err
      simp only [hd] at h
      cases h
      exact .inr ⟨_, .raised .errDesc s₁.engine, rfl⟩

/-! ## The obligation -/

/-- Settles O43: an instruction and a step put on `rsp` at most the response of one command, which ends by `complete` or
`raise`. -/
theorem errorResponseIsOneByte : Obligations.ErrorResponseIsOneByte := by
  have key {s s' : State} (h : s'.rsp = s.rsp ∨ ∃ out, CommandEnd out ∧ s'.rsp = out.2 :: s.rsp) (hne : s'.rsp ≠ s.rsp) :
      ∃ status results, s'.rsp = (status :: results) :: s.rsp ∧ (status ≠ 0x00 → results = []) := by
    obtain ⟨out, hend, hr⟩ := h.resolve_left hne
    obtain ⟨status, results, hout, hone⟩ := hend.response
    exact ⟨status, results, by rw [hr, hout], hone⟩
  exact ⟨fun _ _ _ h => key (exec_rsp h), fun _ _ h => key (step_rsp h)⟩

end Sys2Proof.Machine

/-! PROOFS. Header byte 0 of a frame (30_encoding.md R78), the frames of a fragmented message (R84), the frame rows as
notifications (R82, R83), the pseudo-commands of the host (R90) and the DH parameter block (R86). -/

namespace Sys2Proof

/-! ## Header byte 0 (R78) -/

theorem headerByte_toNat (t : BitVec 2) (st : BitVec 6) : (headerByte t st).toNat = 4 * st.toNat + t.toNat := by
  have ht : t.toNat < 2 ^ 2 := t.isLt
  have hst : st.toNat < 64 := st.isLt
  have hshift : (st.setWidth 8 <<< 2).toNat = st.toNat <<< 2 := by
    simp only [BitVec.toNat_shiftLeft, BitVec.toNat_setWidth, Nat.shiftLeft_eq]
    omega
  have htype : (t.setWidth 8).toNat = t.toNat := by
    rw [BitVec.toNat_setWidth]
    omega
  rw [headerByte, BitVec.toNat_or, hshift, htype, ← Nat.shiftLeft_add_eq_or_of_lt ht, Nat.shiftLeft_eq]
  omega

theorem type_setWidth_eq_and (b : Byte) : (b.extractLsb' 0 2).setWidth 8 = b &&& 0x03 := by
  apply BitVec.eq_of_toNat_eq
  have hand : b.toNat &&& (0x03 : Byte).toNat = b.toNat % 4 := Nat.and_two_pow_sub_one_eq_mod b.toNat 2
  have hlt := b.isLt
  simp only [BitVec.toNat_setWidth, BitVec.extractLsb'_toNat, BitVec.toNat_and, Nat.shiftRight_zero]
  omega

theorem subtype_setWidth_eq_shift (b : Byte) : (b.extractLsb' 2 6).setWidth 8 = b >>> 2 := by
  apply BitVec.eq_of_toNat_eq
  have hlt := b.isLt
  simp only [BitVec.toNat_setWidth, BitVec.extractLsb'_toNat, BitVec.toNat_ushiftRight, Nat.shiftRight_eq_div_pow]
  omega

/-- Settles O18: the shifted subtype and the type share no bit, and decoding takes the two bit fields as they are. -/
theorem headerBytePacksTypeAndSubtype : Obligations.HeaderBytePacksTypeAndSubtype := by
  refine ⟨headerByte_toNat, fun b0 fc seq rest => ?_, by decide⟩
  exact ⟨⟨b0.extractLsb' 0 2, b0.extractLsb' 2 6, fc, seq, []⟩, by simp [frameDecode], type_setWidth_eq_and b0,
    subtype_setWidth_eq_shift b0⟩

end Sys2Proof

namespace Sys2Proof.Machine

/-! ## The fragment table (R84, R186, R188) -/

theorem fragmentChunks_of_le {data : List Byte} (h : data.length ≤ 14) : fragmentChunks data = [(false, data)] := if_pos h

theorem fragmentChunks_of_gt {data : List Byte} (h : 14 < data.length) : fragmentChunks data =
    (true, le16 data.length ++ data.take 14) :: laterChunks (blocksOf 16 (data.drop 14)) := if_neg (Nat.not_le.mpr h)

theorem fragmentChunks_length (data : List Byte) : (fragmentChunks data).length =
    if data.length ≤ 14 then 1 else 1 + (data.length - 14 + 15) / 16 := by
  split
  case isTrue h => rw [fragmentChunks_of_le h]; rfl
  case isFalse h =>
    rw [fragmentChunks_of_gt (Nat.lt_of_not_le h), List.length_cons, laterChunks_length, blocksOf_length (by decide),
      List.length_drop, Nat.add_comm]
    rfl

/-- R84: the `i`-th of `n` chunks is flagged when another one follows. The only chunk is the message, the first of several
its length and 14 bytes, and a later one at most 16 bytes. -/
theorem fragmentChunks_getElem? {data : List Byte} {n i : Nat} (hn : (fragmentChunks data).length = n) (hi : i < n) :
    (fragmentChunks data)[i]? = some (decide (i + 1 < n),
      if n = 1 then data
      else if i = 0 then le16 data.length ++ data.take 14
      else (data.drop (14 + 16 * (i - 1))).take 16) := by
  have hlen := (fragmentChunks_length data).symm.trans hn
  split at hlen
  case isTrue hle =>
    obtain rfl : i = 0 := by omega
    simp [fragmentChunks_of_le hle, ← hlen]
  case isFalse hle =>
    have hblocks : (blocksOf 16 (data.drop 14)).length + 1 = n := by
      rw [blocksOf_length (by decide), List.length_drop, ← hlen, Nat.add_comm]
      rfl
    rw [fragmentChunks_of_gt (Nat.lt_of_not_le hle), if_neg (by omega)]
    cases i with
    | zero => simp; omega
    | succ j =>
      have hj : j < ((data.drop 14).length + 16 - 1) / 16 := by rw [← blocksOf_length (by decide)]; omega
      simp [laterChunks_getElem?, blocksOf_getElem? (by decide) _ _ hj, ← hblocks]

theorem frameEncode_data0 (fc seq : Byte) (payload : List Byte) : frameEncode ⟨1, 0, fc, seq, payload⟩ =
    [0x01, fc, seq, BitVec.ofNat 8 payload.length] ++ payload := by
  rw [frameEncode, show headerByte 1 0 = 0x01 by decide]
  rfl

/-- Settles O26: FRAG answers the frames of `fragmentChunks`, whose `i`-th chunk is the table's. -/
theorem fragAnswersFramesOfTable : Obligations.FragAnswersFramesOfTable := by
  intro data s _ n payload
  have hn : (fragmentChunks data).length = n := fragmentChunks_length data
  refine ⟨fragmentFrames s.engine.seq (fragmentChunks data), (fragmentFrames_length _ _).trans hn, ?_, fun i hi => ?_⟩
  · rw [Answers, exec_command rfl, ← hn]
    rfl
  · rw [List.getD_eq_getElem?_getD, fragmentFrames_getElem?, fragmentChunks_getElem? hn hi, Option.map_some,
      Option.getD_some, frameEncode_data0]
    simp only [decide_eq_true_eq]
    rfl

/-! ## The frame rows (R82, R83, R212) -/

theorem receiveFrame_of_awaiting {e : Engine} {r : Word} (f : Frame) (h : e.corr = .awaiting r) :
    receiveFrame f e = { e with corr := .resolved r f } := by
  rw [receiveFrame, h]

theorem receiveFrame_of_not_awaiting {e : Engine} (f : Frame) (h : ∀ r, e.corr ≠ .awaiting r) :
    receiveFrame f e = { e with unsolicited := true } := by
  unfold receiveFrame
  split
  · exact absurd ‹_› (h _)
  · rfl

/-- A frame row reaches the slot as its own frame. -/
theorem moves_frame {i : Instr} {f : Frame} (hf : instrFrame i = some f) (hp : f.payload.length ≤ Config.payloadMax)
    (s : State) : Moves i s (receiveFrame f s.engine) := by
  rw [Moves, exec_frame hf, ← receive_frameEncode hp]
  rfl

/-- Settles O32: every frame row is received as its own frame, and the slot decides what becomes of it. -/
theorem everyFrameRowReachesTheSlot : Obligations.EveryFrameRowReachesTheSlot := by
  refine ⟨fun i f s hf hp => ⟨fun r hr => ?_, fun hn => ?_⟩, fun _ _ _ _ _ => ⟨rfl, rfl, rfl, rfl, rfl, rfl, rfl, rfl⟩⟩
  · rw [← receiveFrame_of_awaiting f hr]
    exact moves_frame hf hp s
  · rw [← receiveFrame_of_not_awaiting f hn]
    exact moves_frame hf hp s

/-! ## SLEEP and WAIT (R90, log 10) -/

theorem hostReady_of_ticks {s : State} {left : Nat} (h : s.host.block = .ticks left) : s.hostReady = (left == 0) := by
  rw [State.hostReady, h]

theorem hostReady_of_untilIrq {s : State} (h : s.host.block = .untilIrq) : s.hostReady = s.engine.irqCorr := by
  rw [State.hostReady, h]

/-- Each TICK takes one off what a sleeping host still waits for. -/
theorem runAll_ticks_block {k n : Nat} {s s' : State} (hb : s.host.block = .ticks n)
    (h : runAll (List.replicate k .tick) s = some s') : s'.host.block = .ticks (n - k) := by
  induction k generalizing n s with
  | zero => cases h; exact hb
  | succ k ih =>
    rw [show n - (k + 1) = n - 1 - k by omega]
    exact ih (by rw [hb]; rfl) h

theorem exec_sleep (n : Nat) (s : State) :
    exec (.sleep n) s = .next { s with host := { s.host with block := .ticks n } } := rfl

/-- Settles O53: after `k` TICKs the host has `n - k` of them still to wait for. -/
theorem sleepLetsTicksPass : Obligations.SleepLetsTicksPass := by
  intro n s
  refine ⟨exec_sleep n s, fun k s' h => ?_⟩
  rw [runAll, exec_sleep] at h
  rw [hostReady_of_ticks (runAll_ticks_block rfl h), beq_iff_eq, Nat.sub_eq_zero_iff_le]

/-- A host that cannot go on lets its turn pass. -/
theorem step_of_host_blocked {s : State} {rest : List Turn} (hturn : s.turns = .host :: rest)
    (hready : s.hostReady = false) : step s = .next { s with turns := rest } := by
  have hf : fetch s = fetchHost { s with turns := rest } := by rw [fetch, hturn]
  have hmove : fetchHost { s with turns := rest } = .move { s with turns := rest } :=
    if_neg (Bool.eq_false_iff.mp hready)
  rw [step, hf, hmove]

/-- Settles O52: what a waiting host may do is what `irq_corr` says. -/
theorem waitHoldsUntilIrq : Obligations.WaitHoldsUntilIrq := by
  refine ⟨fun _ => rfl, fun s rest hturn hb => ⟨fun hirq => ?_, fun d more i hirq hr hd => ?_⟩⟩
  · exact step_of_host_blocked hturn ((hostReady_of_untilIrq hb).trans hirq)
  · exact step_of_host_next hturn ((hostReady_of_untilIrq hb).trans hirq) (HostSide.next_of_running hr) rfl hd

/-! ## REQUEST and SEND (R90) -/

theorem cmdReqIssue_of_idle {e : Engine} (t : Word) (h : e.corr = .idle) :
    cmdReqIssue t e = complete [] { e with corr := if t = 0 then .timedOut else .awaiting t } := if_pos h

theorem cmdReqIssue_of_busy {e : Engine} (t : Word) (h : e.corr ≠ .idle) : cmdReqIssue t e = raise .errBusy e := if_neg h

/-- REQUEST is REQ_ISSUE, with WAIT and the descriptor of REQ_COLLECT before what the host does next (log 11). -/
theorem exec_request (t : Word) (s : State) : exec (.request t) s = .next
    { s with
      engine := (cmdReqIssue t s.engine).1
      rsp := (cmdReqIssue t s.engine).2 :: s.rsp
      host := { s.host with running := .pseudo .wait :: .cmd [0x0E] :: s.host.running } } := rfl

/-- Settles O54: the three answers are those of REQ_ISSUE. -/
theorem requestIssuesThenWaits : Obligations.RequestIssuesThenWaits := by
  intro t s host
  refine ⟨fun hidle ht => ?_, fun hidle ht => ?_, fun hbusy => ?_⟩
  · rw [exec_request, cmdReqIssue_of_idle t hidle, if_neg ht]
    rfl
  · rw [exec_request, cmdReqIssue_of_idle t hidle, if_pos ht]
    rfl
  · rw [exec_request, cmdReqIssue_of_busy t hbusy]
    rfl

theorem onError_of_ne_established {n : NegoState} (h : n ≠ .established) : n.onError = .failed := by
  cases n
  case established => exact absurd rfl h
  all_goals rfl

/-- Settles O51: SEND is one Transport call that can fail, and a failed call aborts the sequence. -/
theorem sendWritesOrStops : Obligations.SendWritesOrStops := by
  intro f s peer
  have hexec : exec (.send f) s = .next (s.callTransport (peer.writeCall f)) := rfl
  rcases callTransport_cases (peer.writeCall f) s with ⟨hup, hcall⟩ | ⟨_, hdown, hcall⟩
  · have hup : s.linkUp = true := hup.resolve_left nofun
    exact ⟨fun _ => by rw [hexec, hcall]; rfl, fun hdown => absurd (hup.symm.trans hdown) (by decide)⟩
  · refine ⟨fun hup => absurd (hup.symm.trans hdown) (by decide), fun _ => ⟨s.host.nego.map NegoState.onError, ?_, ?_⟩⟩
    · rw [hexec, hcall]
      rfl
    · refine ⟨fun h => by rw [h]; rfl, fun h => by rw [h]; rfl, fun n h hne => ?_⟩
      rw [h, Option.map_some, onError_of_ne_established hne]

/-! ## The DH parameter block (R86) -/

/-- Settles O55: the two 128-byte fields stand at the offsets 3 and 136, each after its marker and length. -/
theorem parameterBlockLayout : Obligations.ParameterBlockLayout := by
  intro p pub block
  have hp : p.val.length = 128 := p.property
  have hblock : block = [0x01, 0x00, 0x80] ++ (p.val ++ ([0x00, 0x01, 0x02, 0x00, 0x80] ++ pub.val)) := by
    simp only [block, paramBlock, List.append_assoc]
  refine ⟨paramBlock_length p pub, rfl, ?_, ?_, ?_, rfl⟩
  · rw [hblock]
    exact List.take_left' hp
  · rw [hblock, ← List.append_assoc, List.drop_left' (by simp [hp])]
    rfl
  · rw [hblock, ← List.append_assoc, ← List.append_assoc, List.drop_left' (by simp [hp])]

end Sys2Proof.Machine

/-! PROOFS. The MD5 unit answers the digest of R100 to R108, and its padding is R101's. -/

namespace Sys2Proof.Machine

/-! ## Blocks and bytes -/

/-- The blocks of a byte string, by their offsets. -/
theorem blocksOf_eq_map_range {n : Nat} (hn : 0 < n) (b : List Byte) :
    blocksOf n b = (List.range ((b.length + n - 1) / n)).map fun k => (b.drop (n * k)).take n := by
  have hlen := blocksOf_length hn b
  apply List.ext_getElem?
  intro i
  by_cases hi : i < (b.length + n - 1) / n
  · simp [blocksOf_getElem? hn b i hi, hi]
  · rw [List.getElem?_eq_none (by omega), List.getElem?_eq_none (by simpa using hi)]

/-- The `n`-byte string of `v` holds `v` modulo `256 ^ n` only. -/
theorem i2osp_mod (v n : Nat) : i2osp (v % 256 ^ n) n = i2osp v n := by
  induction n generalizing v with
  | zero => rfl
  | succ n ih =>
    have hdiv : v % 256 ^ (n + 1) / 256 = v / 256 % 256 ^ n := by
      rw [Nat.pow_succ', Nat.mod_mul_right_div_self]
    have hlow : BitVec.ofNat 8 (v % 256 ^ (n + 1)) = BitVec.ofNat 8 v :=
      BitVec.eq_of_toNat_eq (by simp [Nat.pow_succ, Nat.mod_mod_of_dvd])
    rw [i2osp, i2osp, hdiv, ih, hlow]

/-- Least significant byte first, byte `k` is the digit of `256 ^ k`. -/
theorem i2osp_reverse (v n : Nat) :
    (i2osp v n).reverse = (List.range n).map fun k => BitVec.ofNat 8 (v / 256 ^ k) := by
  induction n generalizing v with
  | zero => rfl
  | succ n ih =>
    rw [i2osp, List.reverse_append, ih, List.range_succ_eq_map, List.map_cons, List.map_map]
    simp [Function.comp_def, Nat.div_div_eq_div_mul, Nat.pow_succ']

theorem le64_eq_digits (v : Nat) :
    le64 v = (List.range 8).map fun k => BitVec.ofNat 8 (v % 2 ^ 64 / 256 ^ k) := by
  rw [← i2osp_reverse, le64, ← i2osp_mod]
  rfl

/-! ## The padding (R101) -/

/-- Settles O8: the model's `z` is `(55 + 63 n) mod 64`, and 63 is -1 modulo 64. -/
theorem md5PaddingFillsBlocks : Obligations.Md5PaddingFillsBlocks := by
  intro msg
  refine ⟨(55 + 63 * msg.length) % 64, by omega, fun z' hz' => by omega, by omega, ?_, md5Pad_length msg⟩
  rw [md5Pad, le64_eq_digits, List.append_assoc msg [0x80], List.singleton_append]

/-! ## The words of a block (R105) -/

theorem md5Words_length : ∀ block : List Byte, (md5Words block).length = block.length / 4
  | [] | [_] | [_, _] | [_, _, _] => by simp [md5Words]
  | _ :: _ :: _ :: _ :: rest => by
    rw [md5Words, List.length_cons, md5Words_length rest]
    simp only [List.length_cons]
    omega

theorem md5Words_getD : ∀ (block : List Byte) (j : Nat), 4 * j + 3 < block.length →
    (md5Words block).getD j 0 = fromLe32 (block.getD (4 * j) 0) (block.getD (4 * j + 1) 0) (block.getD (4 * j + 2) 0)
      (block.getD (4 * j + 3) 0)
  | _ :: _ :: _ :: _ :: _, 0, _ => rfl
  | _ :: _ :: _ :: _ :: rest, j + 1, h => md5Words_getD rest j (by simp only [List.length_cons] at h; omega)
  | [], _, h | [_], _, h | [_, _], _, h | [_, _, _], _, h => by simp only [List.length_cons, List.length_nil] at h; omega

/-! ## One step (R103, R106) -/

/-- R103's four groups of sixteen steps, by the group's number and by the bounds on the step's index. -/
theorem md5_group_cases {i : Nat} (hi : i < 64) :
    (i / 16 = 0 ∧ i < 16) ∨ (i / 16 = 1 ∧ ¬ i < 16 ∧ i < 32) ∨ (i / 16 = 2 ∧ ¬ i < 16 ∧ ¬ i < 32 ∧ i < 48) ∨
      (i / 16 = 3 ∧ ¬ i < 16 ∧ ¬ i < 32 ∧ ¬ i < 48) := by omega

/-! ## The digest (R100, R107) -/

/-- R100's loop: the blocks are those at the multiples of 64, as many as the padding fills. -/
theorem md5_blocks_foldl (msg : List Byte) (h : Md5Regs) :
    (blocksOf 64 (md5Pad msg)).foldl md5Compress h = (List.range ((msg.length + 8) / 64 + 1)).foldl
      (fun h k => md5Compress h (((md5Pad msg).drop (64 * k)).take 64)) h := by
  have hcount : ((md5Pad msg).length + 64 - 1) / 64 = (msg.length + 8) / 64 + 1 := by
    rw [md5Pad_length]
    omega
  rw [blocksOf_eq_map_range (by decide), List.foldl_map, hcount]

theorem md5_abc : md5 [0x61, 0x62, 0x63]
    = [0x90, 0x01, 0x50, 0x98, 0x3c, 0xd2, 0x4f, 0xb0, 0xd6, 0x96, 0x3f, 0x7d, 0x28, 0xe1, 0x7f, 0x72] := by
  decide +kernel

/-- Settles O7: the blocks are taken at the offsets of `md5_blocks_foldl`, and a step's function, word and rotation are
those of its group. -/
theorem md5AnswersDigest : Obligations.Md5AnswersDigest := by
  refine ⟨fun msg s => ?_, fun block hlen => ⟨?_, fun j hj => ?_⟩, fun x a b c d i hi => ?_, fun a b c d block => rfl,
    md5_abc⟩
  · simp only [← md5_blocks_foldl]
    exact exec_command (i := .md5 msg) rfl s
  · rw [md5Words_length, hlen]
  · exact md5Words_getD block j (by omega)
  · simp only [md5Step, md5Aux, md5Index, md5Shift]
    rcases md5_group_cases hi with ⟨hg, h⟩ | ⟨hg, h⟩ | ⟨hg, h⟩ | ⟨hg, h⟩
    · simp [hg, h]
    · simp [hg, h]
    · simp [hg, h]
    · simp [hg, h]

end Sys2Proof.Machine

/-! PROOFS. The AES-128 unit (41_aes128.md): the key schedule follows R124, the four steps are those of R126 to R129,
and the cipher is a permutation of the 16-byte blocks because each of its steps is injective. -/

namespace Sys2Proof.Machine

/-! ## The two commands (R130, R131) -/

theorem answers_of_command {i : Instr} {f : Engine → Engine × List Byte} {s : State} {e : Engine} {r : List Byte}
    (hi : commandOf i = some f) (hf : f s.engine = (e, r)) : Answers i s e r := by
  rw [Answers, exec_command hi, State.command, hf]

theorem cmdAesSetkey_of_no_key (key : List Byte) {e : Engine} (h : e.aesRk = none) :
    cmdAesSetkey key e = complete [] { e with aesRk := some (aesKeyExpand key) } := by
  simp [cmdAesSetkey, Engine.keyValid, h]

theorem cmdAesSetkey_of_key (key : List Byte) {e : Engine} {rk : List Byte} (h : e.aesRk = some rk) :
    cmdAesSetkey key e = raise .errKeyset e := by
  simp [cmdAesSetkey, Engine.keyValid, h]

theorem cmdAesEncblk_of_no_key (block : List Byte) {e : Engine} (h : e.aesRk = none) :
    cmdAesEncblk block e = raise .errNokey e := by
  rw [cmdAesEncblk, h]

theorem cmdAesEncblk_of_key (block : List Byte) {e : Engine} {rk : List Byte} (h : e.aesRk = some rk) :
    cmdAesEncblk block e = complete (aesEncryptBlock rk block) e := by
  rw [cmdAesEncblk, h]

/-- Settles O9: without a schedule the command completes, with one it raises. -/
theorem aesSetkeyLoadsOnce : Obligations.AesSetkeyLoadsOnce := by
  intro key s
  refine ⟨fun hnone => ?_, fun rk hsome => ?_⟩
  · exact answers_of_command rfl (cmdAesSetkey_of_no_key key hnone)
  · exact answers_of_command rfl (cmdAesSetkey_of_key key hsome)

/-! ## The bytes of the shared operations -/

theorem xorBytes_getD {a b : List Byte} (h : a.length = b.length) (n : Nat) :
    (xorBytes a b).getD n 0 = a.getD n 0 ^^^ b.getD n 0 := by
  by_cases hn : n < a.length
  · have hb : n < b.length := h ▸ hn
    simp [xorBytes, hn, hb]
  · have hb : ¬ n < b.length := h ▸ hn
    simp [xorBytes, hn, hb]

/-- Byte `k` of word `i` stands at `4 * i + k`. -/
theorem flatten_words_getD : ∀ (ws : List (List Byte)), (∀ w ∈ ws, w.length = 4) → ∀ (i k : Nat), k < 4 →
    ws.flatten.getD (4 * i + k) 0 = (ws.getD i []).getD k 0
  | [], _, i, k, _ => by simp
  | w :: ws, hws, 0, k, hk => by
    obtain ⟨hw, -⟩ := List.forall_mem_cons.mp hws
    rw [List.flatten_cons, List.getD_append _ _ _ _ (by omega), List.getD_cons_zero, Nat.mul_zero, Nat.zero_add]
  | w :: ws, hws, i + 1, k, hk => by
    obtain ⟨hw, hrest⟩ := List.forall_mem_cons.mp hws
    rw [List.flatten_cons, List.getD_append_right _ _ _ _ (by omega), List.getD_cons_succ,
      ← flatten_words_getD ws hrest i k hk]
    congr 1
    omega

/-! ## The key schedule (R124) -/

/-- A step appends, so the words that stand are kept. -/
theorem keyWords_prefix {key : List Byte} (h : key.length = 16) {m n : Nat} (hmn : m ≤ n) :
    keyWords key m <+: keyWords key n := by
  induction n, hmn using Nat.le_induction with
  | base => exact List.prefix_rfl
  | succ n _ ih =>
    obtain ⟨hl, -⟩ := keyWords_lengths h n
    rw [keyWords_succ key n hl]
    exact ih.trans (List.prefix_append _ _)

theorem keyWords_getD_of_le {key : List Byte} (h : key.length = 16) {m n i : Nat} (hmn : m ≤ n) (hi : i < 4 + m) :
    (keyWords key n).getD i [] = (keyWords key m).getD i [] := by
  obtain ⟨later, hlater⟩ := keyWords_prefix h hmn
  obtain ⟨hl, -⟩ := keyWords_lengths h m
  rw [← hlater, List.getD_append _ _ _ _ (by omega)]

/-- R124's recurrence on whole words. -/
theorem keyWords_recurrence {key : List Byte} (h : key.length = 16) {n i : Nat} (hi : i < n) :
    (keyWords key n).getD (i + 4) [] = xorBytes ((keyWords key n).getD i [])
      (keyTemp (i + 4) ((keyWords key n).getD (i + 3) [])) := by
  obtain ⟨hl, -⟩ := keyWords_lengths h i
  have hnew : (keyWords key (i + 1)).getD (i + 4) [] = xorBytes ((keyWords key i).getD i [])
      (keyTemp (4 + i) ((keyWords key i).getD (i + 3) [])) := by
    rw [keyWords_succ key i hl, List.getD_append_right _ _ _ _ (by omega), hl, Nat.add_comm i 4, Nat.sub_self,
      List.getD_cons_zero]
  have hkeep (j : Nat) (hj : j < 4 + i) := keyWords_getD_of_le h hi.le hj
  rw [keyWords_getD_of_le h (m := i + 1) hi (by omega), hkeep i (by omega), hkeep (i + 3) (by omega), hnew,
    Nat.add_comm 4 i]

theorem keyWords_getD_length {key : List Byte} (h : key.length = 16) {n i : Nat} (hi : i < 4 + n) :
    ((keyWords key n).getD i []).length = 4 := by
  obtain ⟨hl, hw⟩ := keyWords_lengths h n
  rw [List.getD_eq_getElem _ _ (by omega)]
  exact hw _ (List.getElem_mem _)

theorem keyTemp_of_mod_ne {i : Nat} (hi : i % 4 ≠ 0) {w : List Byte} (h : w.length = 4) : keyTemp i w = w := by
  match w, h with
  | [t0, t1, t2, t3], _ => rw [keyTemp, if_neg hi]

theorem keyTemp_of_mod_eq {i : Nat} (hi : i % 4 = 0) {w : List Byte} (h : w.length = 4) :
    keyTemp i w = [sbox (w.getD 1 0) ^^^ rcon (i / 4), sbox (w.getD 2 0), sbox (w.getD 3 0), sbox (w.getD 0 0)] := by
  match w, h with
  | [t0, t1, t2, t3], _ =>
    rw [keyTemp, if_pos hi]
    rfl

theorem aesKeyExpand_getD {key : List Byte} (h : key.length = 16) (i : Nat) {k : Nat} (hk : k < 4) :
    (aesKeyExpand key).getD (4 * i + k) 0 = ((keyWords key 40).getD i []).getD k 0 := by
  obtain ⟨-, hw⟩ := keyWords_lengths h 40
  rw [aesKeyExpand_eq, flatten_words_getD _ hw i k hk]

/-- R124: round key 0 is the key itself. -/
theorem aesKeyExpand_take {key : List Byte} (h : key.length = 16) : (aesKeyExpand key).take 16 = key := by
  have hprefix : (keyWords key 0).flatten <+: aesKeyExpand key := (keyWords_prefix h (Nat.zero_le 40)).flatten
  rw [keyWords_zero, blocksOf_flatten (by decide), List.prefix_iff_eq_take, h] at hprefix
  exact hprefix.symm

/-- R124's recurrence, byte by byte. -/
theorem aesKeyExpand_recurrence {key : List Byte} (h : key.length = 16) {i k : Nat} (hi : i < 40) (hk : k < 4) :
    (aesKeyExpand key).getD (4 * (i + 4) + k) 0 = (aesKeyExpand key).getD (4 * i + k) 0 ^^^
      (keyTemp (i + 4) ((keyWords key 40).getD (i + 3) [])).getD k 0 := by
  have htemp := keyTemp_length (i + 4) (keyWords_getD_length (n := 40) (i := i + 3) h (by omega))
  have hword := keyWords_getD_length (n := 40) (i := i) h (by omega)
  rw [aesKeyExpand_getD h _ hk, aesKeyExpand_getD h _ hk, keyWords_recurrence h hi,
    xorBytes_getD (hword.trans htemp.symm)]

/-- Settles O10: the schedule is the 44 words of `keyWords`, and `keyTemp` is what word `i - 1` becomes. -/
theorem keyScheduleFollowsRecurrence : Obligations.KeyScheduleFollowsRecurrence := by
  intro key h w
  refine ⟨aesKeyExpand_length h, aesKeyExpand_take h, fun i hi₁ hi₂ => ?_⟩
  obtain ⟨j, rfl⟩ := Nat.exists_eq_add_of_le' hi₁
  have hlast := keyWords_getD_length (n := 40) (i := j + 3) h (by omega)
  have hrec (k : Nat) (hk : k < 4) := aesKeyExpand_recurrence h (i := j) (by omega) hk
  have hbyte (k : Nat) (hk : k < 4) := aesKeyExpand_getD h (j + 3) hk
  simp only [w, Nat.add_sub_cancel, show j + 4 - 1 = j + 3 from rfl]
  refine ⟨fun hmod k hk => ?_, fun hmod => ?_⟩
  · rw [hrec k hk, keyTemp_of_mod_ne hmod hlast, hbyte k hk]
  · rw [keyTemp_of_mod_eq hmod hlast] at hrec
    rw [hbyte 0 (by decide), hbyte 1 (by decide), hbyte 2 (by decide), hbyte 3 (by decide)]
    exact ⟨hrec 0 (by decide), hrec 1 (by decide), hrec 2 (by decide), hrec 3 (by decide)⟩

/-! ## The field and the S-box (R121, R122) -/

theorem xor_left_comm (a b c : Byte) : a ^^^ (b ^^^ c) = b ^^^ (a ^^^ c) := by ac_rfl

theorem ite_bxor (p q : Bool) (c : Byte) :
    (if p ^^ q then c else 0) = (if p then c else 0) ^^^ (if q then c else 0) := by
  cases p <;> cases q <;> simp

/-- R121: `xtime` is linear over the addition `^`. -/
theorem xtime_xor (a b : Byte) : xtime (a ^^^ b) = xtime a ^^^ xtime b := by
  have hshift : (a ^^^ b) <<< 1 = a <<< 1 ^^^ b <<< 1 := BitVec.shiftLeft_xor_distrib a b 1
  rw [xtime, xtime, xtime, hshift, BitVec.getLsbD_xor, ite_bxor]
  ac_rfl

/-- R121's product of two bytes: multiply-and-add over the bits of `y`, the multiples of `x` by `xtime`. -/
def fieldMul (x y : Byte) : Byte :=
  ((List.range 8).foldl
    (fun (acc : Byte × Byte) k => (if y.getLsbD k then acc.1 ^^^ acc.2 else acc.1, xtime acc.2)) (0, x)).1

/-- The `inv(x)` of R122, read off the S-box entry by undoing its affine map. -/
def fieldInv (x : Byte) : Byte :=
  (sbox x).rotateLeft 1 ^^^ (sbox x).rotateLeft 3 ^^^ (sbox x).rotateLeft 6 ^^^ 0x05

theorem fieldMul_fieldInv : ∀ x : Byte, x ≠ 0 → fieldMul x (fieldInv x) = 1 := by decide +kernel

/-- The inverse of the inverse is the byte, so the S-box entry determines it. -/
theorem fieldInv_fieldInv : ∀ x : Byte, fieldInv (fieldInv x) = x := by decide +kernel

theorem sbox_eq_affine_fieldInv : ∀ x : Byte, ∀ i, i < 8 → (sbox x).getLsbD i =
    ((fieldInv x).getLsbD i ^^ (fieldInv x).getLsbD ((i + 4) % 8) ^^ (fieldInv x).getLsbD ((i + 5) % 8) ^^
      (fieldInv x).getLsbD ((i + 6) % 8) ^^ (fieldInv x).getLsbD ((i + 7) % 8) ^^ (0x63 : Byte).getLsbD i) := by
  decide +kernel

theorem sbox_injective : Function.Injective sbox := by
  intro x y h
  have hinv : fieldInv x = fieldInv y := by rw [fieldInv, fieldInv, h]
  rw [← fieldInv_fieldInv x, hinv, fieldInv_fieldInv]

/-! ## The four steps (R126 to R129), byte by byte -/

theorem subBytes_length (st : List Byte) : (subBytes st).length = st.length := List.length_map ..

theorem subBytes_getD {st : List Byte} {n : Nat} (h : n < st.length) : (subBytes st).getD n 0 = sbox (st.getD n 0) := by
  simp [subBytes, h]

/-- R128's index list is `5 * n` modulo 16: a column further for each row. -/
theorem shiftRows_eq_map_range (st : List Byte) :
    shiftRows st = (List.range 16).map fun n => st.getD (5 * n % 16) 0 := rfl

theorem shiftRows_getD (st : List Byte) {r c : Nat} (hr : r < 4) (hc : c < 4) :
    (shiftRows st).getD (4 * c + r) 0 = st.getD (4 * ((c + r) % 4) + r) 0 := by
  have hindex : 5 * (4 * c + r) % 16 = 4 * ((c + r) % 4) + r := by omega
  have hlt : 4 * c + r < 16 := by omega
  rw [shiftRows_eq_map_range, ← hindex]
  simp [hlt]

/-- A row of R129's matrix on a column read from the row's own byte on. -/
def mixRow (a b c d : Byte) : Byte := xtime a ^^^ mul3 b ^^^ c ^^^ d

/-- R129's matrix is circulant: each row is the first one, begun a byte later. -/
theorem mixColumns_cons (a0 a1 a2 a3 : Byte) (rest : List Byte) :
    mixColumns (a0 :: a1 :: a2 :: a3 :: rest) =
      mixRow a0 a1 a2 a3 :: mixRow a1 a2 a3 a0 :: mixRow a2 a3 a0 a1 :: mixRow a3 a0 a1 a2 :: mixColumns rest := by
  have h1 : a0 ^^^ xtime a1 ^^^ mul3 a2 ^^^ a3 = mixRow a1 a2 a3 a0 := by rw [mixRow]; ac_rfl
  have h2 : a0 ^^^ a1 ^^^ xtime a2 ^^^ mul3 a3 = mixRow a2 a3 a0 a1 := by rw [mixRow]; ac_rfl
  have h3 : mul3 a0 ^^^ a1 ^^^ a2 ^^^ xtime a3 = mixRow a3 a0 a1 a2 := by rw [mixRow]; ac_rfl
  rw [mixColumns, h1, h2, h3]
  rfl

theorem mixColumns_getD : ∀ (st : List Byte) (c r : Nat), 4 * c + 3 < st.length → r < 4 →
    (mixColumns st).getD (4 * c + r) 0 = mixRow (st.getD (4 * c + r) 0) (st.getD (4 * c + (r + 1) % 4) 0)
      (st.getD (4 * c + (r + 2) % 4) 0) (st.getD (4 * c + (r + 3) % 4) 0)
  | a0 :: a1 :: a2 :: a3 :: rest, 0, r, _, hr => by
    rw [mixColumns_cons]
    interval_cases r
    all_goals rfl
  | a0 :: a1 :: a2 :: a3 :: rest, c + 1, r, h, hr => by
    have hrest := mixColumns_getD rest c r (by simp only [List.length_cons] at h; omega) hr
    simp only [Nat.mul_succ, Nat.add_right_comm _ 4, mixColumns_cons, List.getD_cons_succ]
    exact hrest
  | [], _, _, h, _ | [_], _, _, h, _ | [_, _], _, _, h, _ | [_, _, _], _, _, h, _ => by
    simp only [List.length_cons, List.length_nil] at h; omega

/-- Settles O11: the commands by `cmdAesEncblk`'s two answers, the cipher by its definition, the steps by their bytes,
and the S-box by the inverse read off its entries. -/
theorem aesEncblkAnswers : Obligations.AesEncblkAnswers := by
  refine ⟨fun block s => ⟨fun rk hsome => ?_, fun hnone => ?_⟩, fun rk block => rfl, fun st k hst hk => ?_, fun a => ?_,
    fun x => ⟨fieldInv x, ?_, fieldMul_fieldInv x, sbox_eq_affine_fieldInv x⟩⟩
  · exact answers_of_command rfl (cmdAesEncblk_of_key block hsome)
  · exact answers_of_command rfl (cmdAesEncblk_of_no_key block hnone)
  · refine ⟨by rw [xorBytes_length, hst, hk, Nat.min_self], by rw [subBytes_length, hst], shiftRows_length st,
      mixColumns_length (n := 4) hst, fun r c hr hc => ⟨?_, ?_, ?_, ?_⟩⟩
    · exact xorBytes_getD (hst.trans hk.symm) _
    · exact subBytes_getD (by omega)
    · exact shiftRows_getD st hr hc
    · exact mixColumns_getD st c r (by omega) hr
  · rw [xtime, apply_ite (a <<< 1 ^^^ ·)]
    exact congrArg (ite _ _) BitVec.xor_zero
  · rintro rfl
    decide

/-! ## Each step is a permutation of the blocks -/

/-- The 16-byte blocks of the cipher (R126). -/
def aesBlocks : Set (List Byte) := {b | b.length = 16}

theorem aesBlocks_finite : aesBlocks.Finite :=
  haveI : Finite Byte := Finite.of_injective BitVec.toFin BitVec.toFin_injective
  List.finite_length_eq Byte 16

/-- The blocks are finitely many, so what is injective on them is onto. -/
theorem bijOn_aesBlocks {f : List Byte → List Byte} (hmaps : aesBlocks.MapsTo f aesBlocks) (hinj : aesBlocks.InjOn f) :
    aesBlocks.BijOn f aesBlocks := (aesBlocks_finite.injOn_iff_bijOn_of_mapsTo hmaps).mp hinj

/-- A function that comes back to where it started is injective. -/
theorem injOn_of_iterate_fixed {f : List Byte → List Byte} {s : Set (List Byte)} (n : Nat)
    (h : ∀ b ∈ s, f^[n + 1] b = b) : s.InjOn f := by
  intro a ha b hb hab
  rw [← h a ha, ← h b hb, Function.iterate_succ_apply, Function.iterate_succ_apply, hab]

theorem subBytes_bijOn : aesBlocks.BijOn subBytes aesBlocks :=
  bijOn_aesBlocks (fun st hst => (subBytes_length st).trans hst) (List.map_injective_iff.mpr sbox_injective).injOn

/-- AddRoundKey undoes itself. -/
theorem xorBytes_xorBytes : ∀ {st k : List Byte}, st.length = k.length → xorBytes (xorBytes st k) k = st
  | [], [], _ => rfl
  | a :: st, b :: k, h => by
    have ih := xorBytes_xorBytes (Nat.succ.inj h)
    simp only [xorBytes, List.zipWith_cons_cons, BitVec.xor_assoc, BitVec.xor_self, BitVec.xor_zero] at ih ⊢
    rw [ih]

theorem xorBytes_bijOn {k : List Byte} (hk : k.length = 16) : aesBlocks.BijOn (xorBytes · k) aesBlocks := by
  refine bijOn_aesBlocks (fun st (hst : st.length = 16) => ?_) ?_
  · exact (xorBytes_length st k).trans (by rw [hst, hk, Nat.min_self])
  · exact injOn_of_iterate_fixed 1 fun st hst => xorBytes_xorBytes (hst.trans hk.symm)

/-- Four rotations by `r` columns bring every row back. -/
theorem shiftRows_four_times {st : List Byte} (h : st.length = 16) : shiftRows^[4] st = st := by
  match st, h with
  | [_, _, _, _, _, _, _, _, _, _, _, _, _, _, _, _], _ => rfl

theorem shiftRows_bijOn : aesBlocks.BijOn shiftRows aesBlocks :=
  bijOn_aesBlocks (fun st _ => shiftRows_length st) (injOn_of_iterate_fixed 3 fun _ h => shiftRows_four_times h)

/-- The square of R129's matrix adds to each byte four times the sum of it and the byte two rows on: over `^` the
multiples by two and by three of the other bytes cancel. -/
theorem mixRow_mixRow (a b c d : Byte) :
    mixRow (mixRow a b c d) (mixRow b c d a) (mixRow c d a b) (mixRow d a b c) = a ^^^ xtime (xtime (a ^^^ c)) := by
  simp only [mixRow, mul3, xtime_xor]
  simp [BitVec.xor_assoc, BitVec.xor_comm, xor_left_comm]

theorem mixColumns_mixColumns_cons (a0 a1 a2 a3 : Byte) (rest : List Byte) :
    mixColumns (mixColumns (a0 :: a1 :: a2 :: a3 :: rest)) =
      (a0 ^^^ xtime (xtime (a0 ^^^ a2))) :: (a1 ^^^ xtime (xtime (a1 ^^^ a3))) ::
        (a2 ^^^ xtime (xtime (a2 ^^^ a0))) :: (a3 ^^^ xtime (xtime (a3 ^^^ a1))) :: mixColumns (mixColumns rest) := by
  rw [mixColumns_cons, mixColumns_cons, mixRow_mixRow, mixRow_mixRow, mixRow_mixRow, mixRow_mixRow]

/-- What the square of the matrix adds, it adds again: the sums over two rows do not change. -/
theorem xor_xtime_xtime_twice (a c : Byte) :
    a ^^^ xtime (xtime (a ^^^ c)) ^^^
      xtime (xtime (a ^^^ xtime (xtime (a ^^^ c)) ^^^ (c ^^^ xtime (xtime (c ^^^ a))))) = a := by
  have hsum : a ^^^ xtime (xtime (a ^^^ c)) ^^^ (c ^^^ xtime (xtime (c ^^^ a))) = a ^^^ c := by
    rw [BitVec.xor_comm c a, BitVec.xor_comm c, BitVec.xor_assoc, ← BitVec.xor_assoc _ _ c, BitVec.xor_self,
      BitVec.zero_xor]
  rw [hsum, BitVec.xor_assoc, BitVec.xor_self, BitVec.xor_zero]

/-- R129's matrix has order 4. -/
theorem mixColumns_four_times : ∀ {st : List Byte} {n : Nat}, st.length = 4 * n → mixColumns^[4] st = st
  | a0 :: a1 :: a2 :: a3 :: rest, n + 1, h => by
    have ih := mixColumns_four_times (st := rest) (n := n) (by simp only [List.length_cons] at h; omega)
    simp only [Function.iterate_succ_apply, Function.iterate_zero_apply] at ih ⊢
    simp only [mixColumns_mixColumns_cons, xor_xtime_xtime_twice, ih]
  | [], _, _ => rfl
  | [_], _, h | [_, _], _, h | [_, _, _], _, h => by simp only [List.length_cons, List.length_nil] at h; omega
  | _ :: _ :: _ :: _ :: _, 0, h => by simp at h

theorem mixColumns_bijOn : aesBlocks.BijOn mixColumns aesBlocks :=
  bijOn_aesBlocks (fun _ h => mixColumns_length (n := 4) h)
    (injOn_of_iterate_fixed 3 fun _ h => mixColumns_four_times (n := 4) h)

/-! ## The cipher is a permutation of the blocks (R131, R132) -/

theorem aesRound_bijOn {rk : List Byte} (h : rk.length = 176) {r : Nat} (hr : r ≤ 10) :
    aesBlocks.BijOn (aesRound rk · r) aesBlocks :=
  (xorBytes_bijOn (roundKey_length h hr)).comp (mixColumns_bijOn.comp (shiftRows_bijOn.comp subBytes_bijOn))

/-- Rounds that are permutations, one after the other. -/
theorem foldl_bijOn {f : List Byte → Nat → List Byte} {s : Set (List Byte)} :
    ∀ rs : List Nat, (∀ r ∈ rs, s.BijOn (f · r) s) → s.BijOn (rs.foldl f ·) s
  | [], _ => Set.bijOn_id s
  | _ :: rs, h => by
    obtain ⟨hr, hrs⟩ := List.forall_mem_cons.mp h
    exact (foldl_bijOn rs hrs).comp hr

theorem aesEncryptBlock_eq_comp (rk : List Byte) : aesEncryptBlock rk = (xorBytes · (roundKey rk 10)) ∘ shiftRows ∘
    subBytes ∘ ((List.range' 1 9).foldl (aesRound rk) ·) ∘ (xorBytes · (roundKey rk 0)) := rfl

theorem aesEncryptBlock_bijOn {rk : List Byte} (h : rk.length = 176) : aesBlocks.BijOn (aesEncryptBlock rk) aesBlocks := by
  have hfirst := xorBytes_bijOn (roundKey_length h (r := 0) (by decide))
  have hrounds : aesBlocks.BijOn ((List.range' 1 9).foldl (aesRound rk) ·) aesBlocks :=
    foldl_bijOn _ fun r hr => aesRound_bijOn h (by rw [List.mem_range'_1] at hr; omega)
  have hlast := xorBytes_bijOn (roundKey_length h (r := 10) (by decide))
  rw [aesEncryptBlock_eq_comp]
  exact hlast.comp (shiftRows_bijOn.comp (subBytes_bijOn.comp (hrounds.comp hfirst)))

/-- Settles O12: the cipher is a composition of permutations of the blocks. -/
theorem cipherIsAPermutation : Obligations.CipherIsAPermutation := by
  intro rk h
  obtain ⟨hmaps, hinj, hsurj⟩ := aesEncryptBlock_bijOn h
  exact ⟨fun b hb => hmaps hb, fun a b ha hb hab => hinj ha hb hab, fun c hc => hsurj hc⟩

end Sys2Proof.Machine

/-! PROOFS. The CFB encryptor (42_cfb.md): each ciphertext block is the data under its encrypted feedback (R140), so a
message may be cut inside a block (R142) and continued after one (R141). -/

namespace Sys2Proof.Machine

/-! ## The command (R143) -/

theorem cmdCfbEnc_of_no_key (iv data : List Byte) {e : Engine} (h : e.aesRk = none) :
    cmdCfbEnc iv data e = raise .errNokey e := by
  rw [cmdCfbEnc, h]

theorem cmdCfbEnc_of_key (iv data : List Byte) {e : Engine} {rk : List Byte} (h : e.aesRk = some rk) :
    cmdCfbEnc iv data e = complete (varField (cfbEncrypt rk data iv)) e := by
  rw [cmdCfbEnc, h]

/-! ## The first block and the rest (R140) -/

theorem xorBytes_take_left (a b : List Byte) (n : Nat) : xorBytes (a.take n) b = (xorBytes a b).take n := by
  induction n generalizing a b with
  | zero => simp [xorBytes]
  | succ n ih =>
    cases a with
    | nil => rfl
    | cons x a =>
      cases b with
      | nil => rfl
      | cons y b => exact congrArg (List.cons (x ^^^ y)) (ih a b)

theorem xorBytes_getD_of_lt {a b : List Byte} {n : Nat} (ha : n < a.length) (hb : n < b.length) :
    (xorBytes a b).getD n 0 = a.getD n 0 ^^^ b.getD n 0 := by
  simp [xorBytes, ha, hb]

/-- At most one block: the last, full or partial (R142). -/
theorem cfbEncrypt_of_length_le (rk iv : List Byte) {data : List Byte} (h : data.length ≤ 16) :
    cfbEncrypt rk data iv = xorBytes data (aesEncryptBlock rk iv) := by
  by_cases hd : data = []
  · subst hd; rfl
  · rw [cfbEncrypt_of_ne_nil rk iv hd, List.take_of_length_le h, List.drop_of_length_le h, cfbEncrypt_nil,
      List.append_nil]

theorem cfb_block_length {rk : List Byte} (h : rk.length = 176) (iv : List Byte) {data : List Byte}
    (hd : 16 ≤ data.length) : (xorBytes (data.take 16) (aesEncryptBlock rk iv)).length = 16 := by
  rw [xorBytes_length, aesEncryptBlock_length h, List.length_take, Nat.min_eq_left hd, Nat.min_self]

theorem cfbEncrypt_take_block {rk : List Byte} (h : rk.length = 176) (data iv : List Byte) :
    (cfbEncrypt rk data iv).take 16 = xorBytes (data.take 16) (aesEncryptBlock rk iv) := by
  rcases Nat.le_total data.length 16 with hd | hd
  · rw [cfbEncrypt_of_length_le rk iv hd, xorBytes_take_left]
  · rw [cfbEncrypt_of_ne_nil rk iv (List.ne_nil_of_length_pos (by omega)),
      List.take_left' (cfb_block_length h iv hd)]

/-- After the first block stands the ciphertext of the rest under that block. -/
theorem cfbEncrypt_drop_block {rk : List Byte} (h : rk.length = 176) (data iv : List Byte) :
    (cfbEncrypt rk data iv).drop 16 = cfbEncrypt rk (data.drop 16) ((cfbEncrypt rk data iv).take 16) := by
  rcases Nat.le_total data.length 16 with hd | hd
  · rw [List.drop_of_length_le hd, List.drop_of_length_le ((cfbEncrypt_length h data iv).trans_le hd), cfbEncrypt_nil]
  · rw [cfbEncrypt_take_block h, cfbEncrypt_of_ne_nil rk iv (List.ne_nil_of_length_pos (by omega)),
      List.drop_left' (cfb_block_length h iv hd)]

/-! ## The feedback register (R141) -/

/-- What FB holds when block `k` is encrypted. -/
def cfbFeedback (rk data iv : List Byte) (k : Nat) : List Byte :=
  if k = 0 then iv else ((cfbEncrypt rk data iv).drop (16 * (k - 1))).take 16

theorem cfbFeedback_zero (rk data iv : List Byte) : cfbFeedback rk data iv 0 = iv := rfl

theorem cfbFeedback_succ (rk data iv : List Byte) (k : Nat) :
    cfbFeedback rk data iv (k + 1) = ((cfbEncrypt rk data iv).drop (16 * k)).take 16 := rfl

/-- The register of a message is, a block later, that of its rest under its first ciphertext block. -/
theorem cfbFeedback_drop_block {rk : List Byte} (h : rk.length = 176) (data iv : List Byte) (k : Nat) :
    cfbFeedback rk data iv (k + 1) = cfbFeedback rk (data.drop 16) ((cfbEncrypt rk data iv).take 16) k := by
  cases k with
  | zero => rfl
  | succ k =>
    rw [cfbFeedback_succ, cfbFeedback_succ, ← cfbEncrypt_drop_block h, List.drop_drop, Nat.mul_succ, Nat.add_comm 16]

/-- R140: byte `j` of block `k` is the data's byte under the encrypted feedback. -/
theorem cfbEncrypt_getD {rk : List Byte} (h : rk.length = 176) (data iv : List Byte) {k j : Nat} (hj : j < 16)
    (hk : 16 * k + j < data.length) : (cfbEncrypt rk data iv).getD (16 * k + j) 0 =
      data.getD (16 * k + j) 0 ^^^ (aesEncryptBlock rk (cfbFeedback rk data iv k)).getD j 0 := by
  have getD_take (l : List Byte) : (l.take 16).getD j 0 = l.getD j 0 := by simp [hj]
  have getD_drop (l : List Byte) (n : Nat) : (l.drop 16).getD (16 * n + j) 0 = l.getD (16 * (n + 1) + j) 0 := by
    simp [Nat.mul_succ, Nat.add_comm, Nat.add_left_comm]
  induction k generalizing data iv with
  | zero =>
    have hdata : j < (data.take 16).length := by rw [List.length_take]; omega
    have hkey : j < (aesEncryptBlock rk iv).length := hj.trans_eq (aesEncryptBlock_length h iv).symm
    rw [Nat.mul_zero, Nat.zero_add, ← getD_take, cfbEncrypt_take_block h, xorBytes_getD_of_lt hdata hkey, getD_take,
      cfbFeedback_zero]
  | succ k ih =>
    have hrest : 16 * k + j < (data.drop 16).length := by rw [List.length_drop]; omega
    rw [← getD_drop, ← getD_drop, cfbEncrypt_drop_block h, ih _ _ hrest, cfbFeedback_drop_block h]

/-- Settles O13: the command by `cmdCfbEnc`'s two answers, the bytes by `cfbEncrypt_getD`. -/
theorem cfbEncAnswers : Obligations.CfbEncAnswers := by
  refine ⟨fun iv data s => ⟨fun hnone => ?_, fun rk hsome => ?_⟩, fun rk iv data h _ => ⟨?_, fun k j hj hk => ?_⟩⟩
  · exact answers_of_command rfl (cmdCfbEnc_of_no_key iv data hnone)
  · exact answers_of_command rfl (cmdCfbEnc_of_key iv data hsome)
  · exact cfbEncrypt_length h data iv
  · exact cfbEncrypt_getD h data iv hj hk

/-! ## A cut inside a block (R142) -/

theorem cfbEncrypt_take {rk : List Byte} (h : rk.length = 176) (data iv : List Byte) (n : Nat) :
    cfbEncrypt rk (data.take n) iv = (cfbEncrypt rk data iv).take n := by
  induction n using Nat.strong_induction_on generalizing data iv with
  | _ n ih =>
    rcases Nat.le_total n 16 with hn | hn
    · have htake (l : List Byte) : l.take n = (l.take 16).take n := by rw [List.take_take, Nat.min_eq_left hn]
      have hlen : (data.take n).length ≤ 16 := (List.length_take_le n data).trans hn
      rw [cfbEncrypt_of_length_le rk iv hlen, htake (cfbEncrypt rk data iv), cfbEncrypt_take_block h,
        ← xorBytes_take_left, ← htake]
    · have hfirst : (cfbEncrypt rk (data.take n) iv).take 16 = (cfbEncrypt rk data iv).take 16 := by
        rw [cfbEncrypt_take_block h, cfbEncrypt_take_block h, List.take_take, Nat.min_eq_left hn]
      have hrest : (cfbEncrypt rk (data.take n) iv).drop 16 = ((cfbEncrypt rk data iv).drop 16).take (n - 16) := by
        rw [cfbEncrypt_drop_block h, hfirst, List.drop_take, ih (n - 16) (by omega), ← cfbEncrypt_drop_block h]
      calc cfbEncrypt rk (data.take n) iv
        _ = (cfbEncrypt rk data iv).take 16 ++ ((cfbEncrypt rk data iv).drop 16).take (n - 16) := by
          rw [← hfirst, ← hrest, List.take_append_drop]
        _ = (cfbEncrypt rk data iv).take n := by rw [← List.take_add, Nat.add_sub_cancel' hn]

/-- Settles O14: a cut before the second block by the first block alone, any other by the cut of the rest
(`cfbEncrypt_take`). -/
theorem cfbPartialBlockIsAPrefix : Obligations.CfbPartialBlockIsAPrefix := fun _ data iv n h _ =>
  ⟨cfbEncrypt_length h data iv, cfbEncrypt_take h data iv n⟩

/-! ## A second call after a block (R141) -/

/-- What follows `q` whole blocks is encrypted under the register that they leave. -/
theorem cfbEncrypt_append {rk : List Byte} (h : rk.length = 176) (a b iv : List Byte) {q : Nat}
    (ha : a.length = 16 * q) :
    cfbEncrypt rk (a ++ b) iv = cfbEncrypt rk a iv ++ cfbEncrypt rk b (cfbFeedback rk a iv q) := by
  induction q generalizing a iv with
  | zero =>
    obtain rfl : a = [] := List.eq_nil_of_length_eq_zero ha
    rfl
  | succ q ih =>
    have hle : 16 ≤ a.length := by omega
    have hfirst : (cfbEncrypt rk (a ++ b) iv).take 16 = (cfbEncrypt rk a iv).take 16 := by
      rw [cfbEncrypt_take_block h, cfbEncrypt_take_block h, List.take_append_of_le_length hle]
    have hrest : (cfbEncrypt rk (a ++ b) iv).drop 16 =
        (cfbEncrypt rk a iv).drop 16 ++ cfbEncrypt rk b (cfbFeedback rk a iv (q + 1)) := by
      rw [cfbEncrypt_drop_block h, hfirst, List.drop_append_of_le_length hle, ih _ _ (by rw [List.length_drop]; omega),
        ← cfbEncrypt_drop_block h, ← cfbFeedback_drop_block h]
    rw [← List.take_append_drop 16 (cfbEncrypt rk (a ++ b) iv), hfirst, hrest, ← List.append_assoc,
      List.take_append_drop]

/-- Settles O15: the register that whole blocks leave is their last ciphertext block. -/
theorem cfbContinuesAtBlockBoundary : Obligations.CfbContinuesAtBlockBoundary := by
  intro rk a b iv h _ hne hmod
  have hpos : 0 < a.length := List.length_pos_iff.mpr hne
  obtain ⟨q, hq⟩ : ∃ q, a.length = 16 * (q + 1) := ⟨a.length / 16 - 1, by omega⟩
  have hlast : ((cfbEncrypt rk a iv).drop (16 * q)).length ≤ 16 := by
    rw [List.length_drop, cfbEncrypt_length h]; omega
  rw [cfbEncrypt_append h a b iv hq, cfbFeedback_succ, List.take_of_length_le hlast, hq, Nat.mul_succ,
    Nat.add_sub_cancel]

end Sys2Proof.Machine

/-! PROOFS. The modular exponentiation unit (43_modexp.md): the answer is the power's 128 big-endian bytes (R155), and
as a power of a residue depends on the product of the exponents alone, both sides of R156 get the same ones. -/

namespace Sys2Proof.Machine

/-! ## The command (R155) -/

theorem cmdModpow_of_bad_operand {base exp mod : List Byte} (e : Engine)
    (h : 128 < base.length ∨ 128 < exp.length ∨ 128 < mod.length ∨ os2ip mod = 0) :
    cmdModpow base exp mod e = raise .errOperand e := by
  by_cases hlong : 128 < base.length ∨ 128 < exp.length ∨ 128 < mod.length
  · exact if_pos hlong
  · have hzero : os2ip mod = 0 := by tauto
    exact (if_neg hlong).trans (if_pos hzero)

theorem cmdModpow_of_good_operands {base exp mod : List Byte} (e : Engine) (hbase : base.length ≤ 128)
    (hexp : exp.length ≤ 128) (hmod : mod.length ≤ 128) (hpos : os2ip mod ≠ 0) :
    cmdModpow base exp mod e = complete (i2osp (os2ip base ^ os2ip exp % os2ip mod) 128) e := by
  have hfits : ¬ (128 < base.length ∨ 128 < exp.length ∨ 128 < mod.length) := by omega
  rw [← modpow_eq _ _ (Nat.one_le_iff_ne_zero.mpr hpos)]
  exact (if_neg hfits).trans (if_neg hpos)

theorem modpow_answers_power {base exp mod : List Byte} (s : State) (hbase : base.length ≤ 128)
    (hexp : exp.length ≤ 128) (hmod : mod.length ≤ 128) (hpos : os2ip mod ≠ 0) :
    Answers (.modpow base exp mod) s s.engine (0x00 :: i2osp (os2ip base ^ os2ip exp % os2ip mod) 128) :=
  answers_of_command rfl (cmdModpow_of_good_operands s.engine hbase hexp hmod hpos)

/-- A residue fits the result's width, because its modulus does. -/
theorem os2ip_i2osp_mod {m : List Byte} (hlen : m.length ≤ 128) (hpos : os2ip m ≠ 0) (v : Nat) :
    os2ip (i2osp (v % os2ip m) 128) = v % os2ip m := by
  apply os2ip_i2osp
  calc v % os2ip m
    _ < os2ip m := Nat.mod_lt v (Nat.pos_of_ne_zero hpos)
    _ < 256 ^ m.length := os2ip_lt m
    _ ≤ 256 ^ 128 := Nat.pow_le_pow_right (by decide) hlen

/-- Settles O16: the good operands by `modpow_answers_power`, any other by `cmdModpow_of_bad_operand`. -/
theorem modpowAnswers : Obligations.ModpowAnswers := by
  intro base exp mod s
  refine ⟨fun hbase hexp hmod hpos => ?_, fun hbad => ?_⟩
  · exact ⟨_, modpow_answers_power s hbase hexp hmod hpos, i2osp_length _ _, os2ip_i2osp_mod hmod hpos _⟩
  · exact answers_of_command rfl (cmdModpow_of_bad_operand s.engine hbad)

/-! ## Diffie-Hellman (R156) -/

/-- One side's secret: the power of the other side's public value is that of the generator under both exponents. -/
theorem modpow_answers_secret {g a b m : List Byte} (s : State) (hb : b.length ≤ 128) (hm : m.length ≤ 128)
    (hpos : os2ip m ≠ 0) :
    Answers (.modpow (i2osp (os2ip g ^ os2ip a % os2ip m) 128) b m) s s.engine
      (0x00 :: i2osp (os2ip g ^ (os2ip a * os2ip b) % os2ip m) 128) := by
  have hanswer := modpow_answers_power s (i2osp_length (os2ip g ^ os2ip a % os2ip m) 128).le hb hm hpos
  rwa [os2ip_i2osp_mod hm hpos, ← Nat.pow_mod, ← Nat.pow_mul] at hanswer

/-- Settles O17: both secrets are the generator's power under the product of the exponents. -/
theorem dhSharedSecretIsSymmetric : Obligations.DhSharedSecretIsSymmetric := by
  intro g a b m s hg ha hb hm hpos
  have hsecret := modpow_answers_secret (g := g) (a := b) s ha hm hpos
  rw [Nat.mul_comm] at hsecret
  exact ⟨_, _, _, modpow_answers_power s hg ha hm hpos, modpow_answers_power s hg hb hm hpos, hsecret,
    modpow_answers_secret s hb hm hpos⟩

end Sys2Proof.Machine

/-! PROOFS. The frame codec and its commands (44_frame_codec.md): a frame that passed R176's check is its header before
its payload (R166), decoding inverts encoding (R171), and the frames that a run builds are numbered from SEQ on (R173). -/

namespace Sys2Proof

/-! ## The codec (R165 to R168, R171) -/

theorem setWidth_setWidth_of_lt {n : Nat} {b : Byte} (h : b.toNat < 2 ^ n) : (b.setWidth n).setWidth 8 = b := by
  apply BitVec.eq_of_toNat_eq
  rw [BitVec.toNat_setWidth, BitVec.toNat_setWidth, Nat.mod_eq_of_lt h, Nat.mod_eq_of_lt b.isLt]

theorem headerByte_setWidth {type subtype : Byte} (ht : type.toNat < 2) (hst : subtype.toNat ≤ 63) :
    headerByte (type.setWidth 2) (subtype.setWidth 6) = (subtype <<< 2) ||| type := by
  rw [headerByte, setWidth_setWidth_of_lt (n := 2) (by omega), setWidth_setWidth_of_lt (n := 6) (by omega)]

theorem frameDecode_of_le {b0 fc seq n : Byte} {rest : List Byte} (h : n.toNat ≤ rest.length) :
    frameDecode (b0 :: fc :: seq :: n :: rest) =
      some ⟨b0.extractLsb' 0 2, b0.extractLsb' 2 6, fc, seq, rest.take n.toNat⟩ := if_pos h

/-- R168's ParseError: the header or the payload that it announces does not stand in the buffer. -/
theorem frameDecode_of_short : ∀ {buf : List Byte}, buf.length < 4 ∨ buf.length < 4 + (buf.getD 3 0).toNat →
    frameDecode buf = none
  | [], _ | [_], _ | [_, _], _ | [_, _, _], _ => rfl
  | _ :: _ :: _ :: n :: rest, h => by
    have hshort : ¬ n.toNat ≤ rest.length := by
      simp only [List.length_cons, List.getD_cons_succ, List.getD_cons_zero] at h
      omega
    exact if_neg hshort

/-- R171, the other way: what was decoded is the encoded frame with bytes after it. -/
theorem eq_frameEncode_append_of_frameDecode {buf : List Byte} {f : Frame} (h : frameDecode buf = some f) :
    ∃ t, buf = frameEncode f ++ t := by
  unfold frameDecode at h
  split at h
  case h_2 => cases h
  case h_1 b0 fc seq n rest =>
    split at h
    case isFalse => cases h
    case isTrue hle =>
      cases h
      exact ⟨rest.drop n.toNat, by simp [frameEncode, headerByte_extract, Nat.min_eq_left hle]⟩

theorem frameEncode_length (f : Frame) : (frameEncode f).length = 4 + f.payload.length := by
  simp only [frameEncode, List.length_cons]
  omega

theorem frameEncode_eq_take_of_frameDecode {buf : List Byte} {f : Frame} (h : frameDecode buf = some f) :
    frameEncode f = buf.take (4 + (buf.getD 3 0).toNat) := by
  have hlen : f.payload.length ≤ 255 := frameDecode_payload h
  obtain ⟨t, rfl⟩ := eq_frameEncode_append_of_frameDecode h
  have hbyte : ((frameEncode f ++ t).getD 3 0).toNat = f.payload.length := Nat.mod_eq_of_lt (by omega)
  rw [hbyte, ← frameEncode_length, List.take_left]

end Sys2Proof

namespace Sys2Proof.Machine

/-! ## Operands and results (R176, R169) -/

theorem frameCheck_of_bad_operand {type subtype : Byte} (payload : List Byte)
    (h : 2 ≤ type.toNat ∨ 63 < subtype.toNat) : frameCheck type subtype payload = some .errOperand := if_pos h

theorem frameCheck_of_long_payload {type subtype : Byte} {payload : List Byte} (ht : type.toNat < 2)
    (hst : subtype.toNat ≤ 63) (hlen : 255 < payload.length) : frameCheck type subtype payload = some .errLen :=
  (if_neg (by omega)).trans (if_pos hlen)

theorem frameOf_length (type subtype fc seq : Byte) (payload : List Byte) :
    (frameOf type subtype fc seq payload).length = 4 + payload.length := frameEncode_length _

/-- The `var` field of a frame, with the header written on the command's own operands (R166). -/
theorem varField_frameOf {type subtype : Byte} (fc seq : Byte) (payload : List Byte) (ht : type.toNat < 2)
    (hst : subtype.toNat ≤ 63) : varField (frameOf type subtype fc seq payload) =
      le16 (4 + payload.length) ++ ([(subtype <<< 2) ||| type, fc, seq, BitVec.ofNat 8 payload.length] ++ payload) := by
  rw [varField, frameOf_length, frameOf, frameEncode, headerByte_setWidth ht hst]
  rfl

theorem frameFields_of_operands {type subtype : Byte} (fc seq : Byte) (payload : List Byte) (ht : type.toNat < 2)
    (hst : subtype.toNat ≤ 63) : frameFields ⟨type.setWidth 2, subtype.setWidth 6, fc, seq, payload⟩ =
      type :: subtype :: fc :: seq :: varField payload := by
  rw [frameFields, setWidth_setWidth_of_lt (n := 2) (by omega), setWidth_setWidth_of_lt (n := 6) (by omega)]

theorem frameFields_of_header (b0 fc seq : Byte) (payload : List Byte) :
    frameFields ⟨b0.extractLsb' 0 2, b0.extractLsb' 2 6, fc, seq, payload⟩ =
      (b0 &&& 0x03) :: (b0 >>> 2) :: fc :: seq :: varField payload := by
  rw [frameFields, type_setWidth_eq_and, subtype_setWidth_eq_shift]

/-! ## FRAME_ENC and FRAME_DEC (R167, R169) -/

section
variable {type subtype fc seq : Byte} {payload buf : List Byte} {e : Engine}

theorem cmdFrameEnc_of_refused {status : Status} (h : frameCheck type subtype payload = some status) :
    cmdFrameEnc type subtype fc seq payload e = raise status e := by
  rw [cmdFrameEnc, h]

theorem cmdFrameEnc_of_passed (h : frameCheck type subtype payload = none) :
    cmdFrameEnc type subtype fc seq payload e = complete (varField (frameOf type subtype fc seq payload)) e := by
  rw [cmdFrameEnc, h]

theorem cmdFrameDec_of_none (h : frameDecode buf = none) : cmdFrameDec buf e = raise .errParse e := by
  rw [cmdFrameDec, h]

theorem cmdFrameDec_of_some {f : Frame} (h : frameDecode buf = some f) :
    cmdFrameDec buf e = complete (frameFields f) e := by
  rw [cmdFrameDec, h]

/-- FRAME_ENC and FRAME_ENC4 run the same command, so good operands get the same answer from both. -/
theorem frameEnc_answers_frame {i : Instr} (hi : commandOf i = some (cmdFrameEnc type subtype fc seq payload)) (s : State)
    (ht : type.toNat < 2) (hst : subtype.toNat ≤ 63) (hlen : payload.length ≤ 255) :
    Answers i s s.engine (0x00 :: (le16 (4 + payload.length) ++
      ([(subtype <<< 2) ||| type, fc, seq, BitVec.ofNat 8 payload.length] ++ payload))) := by
  rw [← varField_frameOf fc seq payload ht hst]
  exact answers_of_command hi (cmdFrameEnc_of_passed (frameCheck_none ht hst hlen))

theorem frameEnc_answers_status {i : Instr} (hi : commandOf i = some (cmdFrameEnc type subtype fc seq payload)) (s : State)
    {status : Status} (h : frameCheck type subtype payload = some status) : Answers i s s.engine [status.code] :=
  answers_of_command hi (cmdFrameEnc_of_refused h)

end

/-- Settles O19: both instructions are `cmdFrameEnc`, whose answer `frameCheck` decides. -/
theorem frameEncAnswers : Obligations.FrameEncAnswers := by
  intro type subtype fc seq payload s frame
  refine ⟨fun ht hst hlen => ?_, fun hbad => ?_, fun ht hst hlen => ?_⟩
  · exact ⟨frameEnc_answers_frame rfl s ht hst hlen, frameEnc_answers_frame rfl s ht hst hlen⟩
  · have hcheck := frameCheck_of_bad_operand payload hbad
    exact ⟨frameEnc_answers_status rfl s hcheck, frameEnc_answers_status rfl s hcheck⟩
  · have hcheck := frameCheck_of_long_payload ht hst hlen
    exact ⟨frameEnc_answers_status rfl s hcheck, frameEnc_answers_status rfl s hcheck⟩

/-- Settles O20: the fields are the bits of byte 0 and the bytes as they stand, and a short buffer does not decode. -/
theorem frameDecAnswers : Obligations.FrameDecAnswers := by
  intro buf s
  refine ⟨fun b0 fc seq n rest hbuf hle => ?_, fun hshort => ?_⟩
  · subst hbuf
    have hpayload : varField (rest.take n.toNat) = le16 n.toNat ++ rest.take n.toNat := by
      rw [varField, List.length_take, Nat.min_eq_left hle]
    rw [← hpayload, ← frameFields_of_header]
    exact answers_of_command rfl (cmdFrameDec_of_some (frameDecode_of_le hle))
  · exact answers_of_command rfl (cmdFrameDec_of_none (frameDecode_of_short hshort))

/-- Settles O21: the frame is `frameOf`'s, which decodes to the operands; the other direction is
`frameEncode_eq_take_of_frameDecode`. -/
theorem frameRoundTrip : Obligations.FrameRoundTrip := by
  refine ⟨fun type subtype fc seq payload t s ht hst hlen => ?_, fun _ _ h _ => frameEncode_eq_take_of_frameDecode h⟩
  have ht : type.toNat < 2 := Nat.lt_succ_of_le ht
  refine ⟨frameOf type subtype fc seq payload, ?_, ?_⟩
  · exact answers_of_command rfl (cmdFrameEnc_of_passed (frameCheck_none ht hst hlen))
  · rw [← frameFields_of_operands fc seq payload ht hst]
    exact answers_of_command rfl (cmdFrameDec_of_some (frameDecode_frameEncode t hlen))

/-! ## FRAME_TX and FRAME_TX_ENC (R172, R174) -/

section
variable {type subtype fc : Byte} {payload : List Byte} {e : Engine}

theorem cmdFrameTx_of_refused {status : Status} (h : frameCheck type subtype payload = some status) :
    cmdFrameTx type subtype fc payload e = raise status e := by
  rw [cmdFrameTx, h]

theorem cmdFrameTx_of_passed (h : frameCheck type subtype payload = none) : cmdFrameTx type subtype fc payload e =
    complete (varField (frameOf type subtype fc e.seq payload)) { e with seq := e.seq + 1 } := by
  rw [cmdFrameTx, h]

theorem cmdFrameTxEnc_of_refused {status : Status} (h : frameCheck type subtype payload = some status) :
    cmdFrameTxEnc type subtype fc payload e = raise status e := by
  rw [cmdFrameTxEnc, h]

theorem cmdFrameTxEnc_of_no_key (h : frameCheck type subtype payload = none) (hkey : e.aesRk = none) :
    cmdFrameTxEnc type subtype fc payload e = raise .errNokey e := by
  simp only [cmdFrameTxEnc, h, hkey]

theorem cmdFrameTxEnc_of_key {rk : List Byte} (h : frameCheck type subtype payload = none) (hkey : e.aesRk = some rk) :
    cmdFrameTxEnc type subtype fc payload e =
      complete (varField (frameOf type subtype (fc ||| fcEnc) e.seq (cfbEncrypt rk payload (frameIv e.seq))))
        { e with seq := e.seq + 1 } := by
  simp only [cmdFrameTxEnc, h, hkey]

end

/-- Settles O22: `frameCheck` decides between the next frame and a status that leaves SEQ alone. -/
theorem frameTxAnswers : Obligations.FrameTxAnswers := by
  intro type subtype fc payload s
  refine ⟨fun ht hst hlen => ?_, fun hbad => ?_, fun ht hst hlen => ?_⟩
  · rw [List.append_assoc, ← varField_frameOf fc s.engine.seq payload ht hst]
    exact answers_of_command rfl (cmdFrameTx_of_passed (frameCheck_none ht hst hlen))
  · exact answers_of_command rfl (cmdFrameTx_of_refused (frameCheck_of_bad_operand payload hbad))
  · exact answers_of_command rfl (cmdFrameTx_of_refused (frameCheck_of_long_payload ht hst hlen))

/-- Settles O23: the key is looked at only when `frameCheck` passes, and the ciphertext is as long as the payload. -/
theorem frameTxEncAnswers : Obligations.FrameTxEncAnswers := by
  intro type subtype fc payload s
  refine ⟨fun rk hkey hrk ht hst hlen => ?_, fun hbad => ?_, fun ht hst hlen => ?_, fun hkey ht hst hlen => ?_⟩
  · have hcipher := cfbEncrypt_length hrk payload (frameIv s.engine.seq)
    have hframe := varField_frameOf (fc ||| fcEnc) s.engine.seq (cfbEncrypt rk payload (frameIv s.engine.seq)) ht hst
    rw [hcipher, ← List.append_assoc] at hframe
    exact answers_of_command rfl
      ((cmdFrameTxEnc_of_key (frameCheck_none ht hst hlen) hkey).trans (by rw [hframe]; rfl))
  · exact answers_of_command rfl (cmdFrameTxEnc_of_refused (frameCheck_of_bad_operand payload hbad))
  · exact answers_of_command rfl (cmdFrameTxEnc_of_refused (frameCheck_of_long_payload ht hst hlen))
  · exact answers_of_command rfl (cmdFrameTxEnc_of_no_key (frameCheck_none ht hst hlen) hkey)

/-! ## Frames numbered from SEQ on (R173) -/

/-- The frames carry the sequence numbers from `q` on, and `q'` is the number after the last. -/
structure Issues (q : Byte) (frames : List (List Byte)) (q' : Byte) : Prop where
  numbered : ∀ k, k < frames.length → (frames.getD k []).getD 2 0 = q + BitVec.ofNat 8 k
  next : q' = q + BitVec.ofNat 8 frames.length

theorem Issues.nil (q : Byte) : Issues q [] q where
  numbered _ h := absurd h (Nat.not_lt_zero _)
  next := (BitVec.add_zero q).symm

theorem Issues.append {q q' q'' : Byte} {fs gs : List (List Byte)} (h : Issues q fs q') (h' : Issues q' gs q'') :
    Issues q (fs ++ gs) q'' where
  numbered k hk := by
    rw [List.length_append] at hk
    rcases Nat.lt_or_ge k fs.length with hlt | hge
    · rw [List.getD_append _ _ _ _ hlt, h.numbered k hlt]
    · rw [List.getD_append_right _ _ _ _ hge, h'.numbered _ (by omega), h.next, BitVec.add_assoc, ← BitVec.ofNat_add,
        Nat.add_sub_cancel' hge]
  next := by rw [h'.next, h.next, BitVec.add_assoc, ← BitVec.ofNat_add, List.length_append]

/-- One frame with the number `q`. -/
theorem Issues.oneFrame (type subtype fc q : Byte) (payload : List Byte) :
    Issues q [frameOf type subtype fc q payload] (q + 1) where
  numbered k hk := by
    obtain rfl : k = 0 := Nat.lt_one_iff.mp hk
    exact (BitVec.add_zero q).symm
  next := rfl

/-- R188: the frames of a fragmented message. -/
theorem Issues.fragments (q : Byte) (chunks : List (Bool × List Byte)) :
    Issues q (fragmentFrames q chunks) (q + BitVec.ofNat 8 chunks.length) where
  numbered k hk := by
    have hk' : k < chunks.length := hk.trans_eq (fragmentFrames_length q chunks)
    rw [List.getD_eq_getElem?_getD (l := fragmentFrames q chunks), fragmentFrames_getElem?, List.getElem?_eq_getElem hk']
    rfl
  next := by rw [fragmentFrames_length]

/-! ## The frames in a response (R73) -/

theorem framesOf_frameTx_ok (type subtype fc : Byte) (payload results : List Byte) :
    framesOf (.frameTx type subtype fc payload) (0x00 :: results) = (parseVar results).toList := rfl

theorem framesOf_frameTxEnc_ok (type subtype fc : Byte) (payload results : List Byte) :
    framesOf (.frameTxEnc type subtype fc payload) (0x00 :: results) = (parseVar results).toList := rfl

theorem framesOf_frag_ok (data results : List Byte) :
    framesOf (.frag data) (0x00 :: results) = (parseFrames results).getD [] := rfl

theorem framesOf_raise (i : Instr) {status : Status} (h : status ≠ .ok) (e : Engine) :
    framesOf i (raise status e).2 = [] := by
  cases status
  case ok => exact absurd rfl h
  all_goals rfl

theorem parseVar_varField {b : List Byte} (h : b.length ≤ Config.varMax) : parseVar (varField b) = some b := by
  rw [parseVar, readVar_varField_end h]
  rfl

theorem parseFrames_varFields {fs : List (List Byte)} (hcount : fs.length < 65536)
    (h : ∀ f ∈ fs, f.length ≤ Config.varMax) :
    parseFrames (le16 fs.length ++ (fs.map varField).flatten) = some fs := by
  have hread := readVars_varFields fs [] h
  rw [List.append_nil] at hread
  simp [parseFrames, le16, readU16, fromLe16_le16 hcount, hread]

theorem fragmentFrames_mem_length {q : Byte} {chunks : List (Bool × List Byte)} {f : List Byte}
    (h : f ∈ fragmentFrames q chunks) : ∃ c ∈ chunks, f.length = 4 + c.2.length := by
  obtain ⟨k, hk⟩ := List.mem_iff_getElem?.mp h
  rw [fragmentFrames_getElem?] at hk
  obtain ⟨c, hc, rfl⟩ := Option.map_eq_some_iff.mp hk
  exact ⟨c, List.mem_of_getElem? hc, frameEncode_length _⟩

/-- The frames that stand in FRAG's results are those of the chunks. -/
theorem parseFrames_fragmentFrames (q : Byte) {data : List Byte} (h : data.length ≤ Config.varMax) :
    parseFrames (le16 (fragmentChunks data).length ++ ((fragmentFrames q (fragmentChunks data)).map varField).flatten) =
      some (fragmentFrames q (fragmentChunks data)) := by
  have hlen : data.length ≤ 65535 := h
  have hcount : (fragmentFrames q (fragmentChunks data)).length < 65536 := by
    rw [fragmentFrames_length, fragmentChunks_length]
    split
    · decide
    · omega
  have hfits : ∀ f ∈ fragmentFrames q (fragmentChunks data), f.length ≤ Config.varMax := by
    intro f hf
    obtain ⟨c, hc, hf⟩ := fragmentFrames_mem_length hf
    have := fragmentChunks_mem_length hc
    rw [hf, Config.varMax]
    omega
  have hparse := parseFrames_varFields hcount hfits
  rwa [fragmentFrames_length] at hparse

/-! ## What one command issues (R172, R174, R189) -/

theorem frameCheck_some_ne_ok {type subtype : Byte} {payload : List Byte} {status : Status}
    (h : frameCheck type subtype payload = some status) : status ≠ .ok := by
  rcases frameCheck_some h with rfl | rfl
  · nofun
  · nofun

theorem payload_length_of_frameCheck_none {type subtype : Byte} {payload : List Byte}
    (h : frameCheck type subtype payload = none) : payload.length ≤ 255 := by
  rcases frameCheck_cases type subtype payload with ⟨_, h'⟩ | ⟨_, _, h'⟩ | ⟨_, hlen, _⟩
  · exact nomatch h.symm.trans h'
  · exact nomatch h.symm.trans h'
  · exact hlen

/-- A refused command answers no frame and takes no number. -/
theorem issues_raise (i : Instr) {status : Status} (h : status ≠ .ok) (e : Engine) :
    Issues e.seq (framesOf i (raise status e).2) (raise status e).1.seq := by
  rw [framesOf_raise i h]
  exact .nil e.seq

/-- A `var` result that is one frame: what FRAME_TX and FRAME_TX_ENC answer. -/
theorem parseVar_frameOf (type subtype fc seq : Byte) {payload : List Byte} (h : payload.length ≤ 255) :
    parseVar (varField (frameOf type subtype fc seq payload)) = some (frameOf type subtype fc seq payload) := by
  apply parseVar_varField
  rw [frameOf_length, Config.varMax]
  omega

theorem cmdFrameTx_issues (type subtype fc : Byte) (payload : List Byte) (e : Engine) :
    Issues e.seq (framesOf (.frameTx type subtype fc payload) (cmdFrameTx type subtype fc payload e).2)
      (cmdFrameTx type subtype fc payload e).1.seq := by
  cases hcheck : frameCheck type subtype payload with
  | some status =>
    rw [cmdFrameTx_of_refused hcheck]
    exact issues_raise _ (frameCheck_some_ne_ok hcheck) e
  | none =>
    rw [cmdFrameTx_of_passed hcheck, complete_response, framesOf_frameTx_ok,
      parseVar_frameOf _ _ _ _ (payload_length_of_frameCheck_none hcheck)]
    exact .oneFrame type subtype fc e.seq payload

theorem cmdFrameTxEnc_issues (type subtype fc : Byte) (payload : List Byte) {e : Engine}
    (hrk : ∀ rk, e.aesRk = some rk → rk.length = 176) :
    Issues e.seq (framesOf (.frameTxEnc type subtype fc payload) (cmdFrameTxEnc type subtype fc payload e).2)
      (cmdFrameTxEnc type subtype fc payload e).1.seq := by
  cases hcheck : frameCheck type subtype payload with
  | some status =>
    rw [cmdFrameTxEnc_of_refused hcheck]
    exact issues_raise _ (frameCheck_some_ne_ok hcheck) e
  | none =>
    cases hkey : e.aesRk with
    | none =>
      rw [cmdFrameTxEnc_of_no_key hcheck hkey]
      exact issues_raise _ (status := .errNokey) nofun e
    | some rk =>
      have hcipher := cfbEncrypt_length (hrk rk hkey) payload (frameIv e.seq)
      rw [cmdFrameTxEnc_of_key hcheck hkey, complete_response, framesOf_frameTxEnc_ok,
        parseVar_frameOf _ _ _ _ (hcipher.trans_le (payload_length_of_frameCheck_none hcheck))]
      exact .oneFrame type subtype _ e.seq _

theorem cmdFrag_issues {data : List Byte} (h : data.length ≤ Config.varMax) (e : Engine) :
    Issues e.seq (framesOf (.frag data) (cmdFrag data e).2) (cmdFrag data e).1.seq := by
  rw [cmdFrag, complete_response, framesOf_frag_ok, parseFrames_fragmentFrames e.seq h]
  exact .fragments e.seq (fragmentChunks data)

/-- Each of R25's three commands numbers the frames of its response from SEQ on, and keeps the invariant. -/
theorem command_issues {i : Instr} (htakes : takesSeq i = true) (hwf : wellFormed i = true) :
    ∃ f, commandOf i = some f ∧
      ∀ e : Engine, e.Sound → (f e).1.Sound ∧ Issues e.seq (framesOf i (f e).2) (f e).1.seq := by
  cases i
  case frameTx t st fc p =>
    exact ⟨_, rfl, fun e he => ⟨engineEffect_sound (i := .frameTx t st fc p) nofun he, cmdFrameTx_issues t st fc p e⟩⟩
  case frameTxEnc t st fc p =>
    exact ⟨_, rfl, fun e he =>
      ⟨engineEffect_sound (i := .frameTxEnc t st fc p) nofun he, cmdFrameTxEnc_issues t st fc p he.schedule⟩⟩
  case frag data =>
    exact ⟨_, rfl, fun e he =>
      ⟨engineEffect_sound (i := .frag data) nofun he, cmdFrag_issues (of_decide_eq_true hwf) e⟩⟩
  all_goals cases htakes

/-! ## Runs (R173) -/

theorem runAll_cons_command {i : Instr} {f : Engine → Engine × List Byte} (h : commandOf i = some f) (is : List Instr)
    (s : State) : runAll (i :: is) s = runAll is (s.command f) := by
  rw [runAll, exec_command h]

theorem framesBuilt_cons_command {i : Instr} {f : Engine → Engine × List Byte} (h : commandOf i = some f)
    (is : List Instr) (s : State) :
    framesBuilt (i :: is) s = framesOf i (f s.engine).2 ++ framesBuilt is (s.command f) := by
  rw [framesBuilt, exec_command h]
  rfl

theorem runAll_issues {is : List Instr} {s s' : State} (hs : s.Sound)
    (his : ∀ i ∈ is, takesSeq i = true ∧ wellFormed i = true) (hrun : runAll is s = some s') :
    Issues s.engine.seq (framesBuilt is s) s'.engine.seq := by
  induction is generalizing s with
  | nil =>
    cases hrun
    exact .nil _
  | cons i is ih =>
    obtain ⟨⟨htakes, hwf⟩, hrest⟩ := List.forall_mem_cons.mp his
    obtain ⟨f, hf, hissues⟩ := command_issues htakes hwf
    obtain ⟨hsound, hfirst⟩ := hissues s.engine hs
    rw [runAll_cons_command hf] at hrun
    rw [framesBuilt_cons_command hf]
    exact hfirst.append (ih (s := s.command f) hsound hrest hrun)

/-- Settles O24: by induction on the run, each command's frames going on where the ones before it ended. -/
theorem sequenceNumbersFollowIssuance : Obligations.SequenceNumbersFollowIssuance := by
  intro is s s' hs his hrun
  obtain ⟨hnumbered, hnext⟩ := runAll_issues hs his hrun
  exact ⟨hnumbered, hnext⟩

end Sys2Proof.Machine

/-! PROOFS. The sizes of a message's chunks (45_fragmenter.md R187), the reassembler on one chunk (R192, R193), on
the chunks of a whole message (R196), and what a partial message outlives (R194). -/

namespace Sys2Proof.Machine

/-! ## The sizes of the chunks (R187) -/

/-- R187: in a message of several chunks every payload has 16 bytes but the last, which has the rest. -/
theorem fragmentChunks_payload_length {data : List Byte} {n i : Nat} (hgt : 14 < data.length)
    (hn : (fragmentChunks data).length = n) (hi : i < n) :
    (fragmentChunks data)[i]?.map (·.2.length) = some (if i + 1 < n then 16 else data.length - 14 - 16 * (n - 2)) := by
  have hlen := (fragmentChunks_length data).symm.trans hn
  rw [if_neg (by omega)] at hlen
  rw [fragmentChunks_getElem? hn hi, Option.map_some, if_neg (by omega)]
  cases i with
  | zero =>
    rw [if_pos rfl, if_pos (by omega), List.length_append, le16_length, List.length_take, Nat.min_eq_left (by omega)]
  | succ j =>
    rw [if_neg (by omega), List.length_take, List.length_drop, Option.some.injEq]
    split <;> omega

theorem fragmentChunks_map_length {data : List Byte} {n : Nat} (hgt : 14 < data.length)
    (hn : (fragmentChunks data).length = n) : (fragmentChunks data).map (·.2.length) =
      List.replicate (n - 1) 16 ++ [data.length - 14 - 16 * (n - 2)] := by
  have hpos : 0 < n := by rw [← hn, fragmentChunks_length, if_neg (by omega)]; omega
  apply List.ext_getElem?
  intro i
  rw [List.getElem?_map]
  rcases Nat.lt_trichotomy (i + 1) n with hi | hi | hi
  · rw [fragmentChunks_payload_length hgt hn (by omega), if_pos hi, List.getElem?_append_left (by simp; omega),
      List.getElem?_replicate, if_pos (by omega)]
  · rw [fragmentChunks_payload_length hgt hn (by omega), if_neg (by omega), ← hi]
    simp
  · rw [List.getElem?_eq_none (by omega), List.getElem?_eq_none (by simp; omega), Option.map_none]

/-- Settles O27: the count is `fragmentChunks_length`, and the lengths are those of the table's payloads. -/
theorem fragmentCountAndSizes : Obligations.FragmentCountAndSizes := by
  refine ⟨?_, fun p hp data hlen => ?_⟩
  · intro data n
    refine ⟨fun hle => by rw [fragmentChunks_of_le hle]; rfl, fun hgt => ?_⟩
    have hn : n = 1 + (data.length - 14 + 15) / 16 := (fragmentChunks_length data).trans (if_neg (Nat.not_le.mpr hgt))
    exact ⟨hn, fragmentChunks_map_length hgt rfl, by omega, by omega⟩
  · rw [fragmentChunks_length, hlen]
    clear hlen
    revert p
    decide

/-! ## The reassembler on one chunk (R192) -/

section
variable {r : Reasm} {pl : List Byte}

theorem reasmStep_idle_unflagged (pl : List Byte) : reasmStep false pl none = (none, .done pl) := rfl

theorem reasmStep_idle_short : ∀ {pl : List Byte}, pl.length < 2 → reasmStep true pl none = (none, .error)
  | [], _ => rfl
  | [_], _ => rfl
  | _ :: _ :: _, h => by simp at h

theorem reasmStep_idle_start {lo hi : Byte} {data : List Byte} (h : data.length ≤ fromLe16 lo hi) :
    reasmStep true (lo :: hi :: data) none = (some ⟨BitVec.ofNat 16 (fromLe16 lo hi), data⟩, .more) :=
  if_neg (Nat.not_lt.mpr h)

theorem reasmStep_idle_overlong {lo hi : Byte} {data : List Byte} (h : fromLe16 lo hi < data.length) :
    reasmStep true (lo :: hi :: data) none = (none, .error) := if_pos h

theorem reasmStep_active_overlong (more : Bool) (h : r.total.toNat < r.buf.length + pl.length) :
    reasmStep more pl (some r) = (none, .error) := if_pos (by rwa [List.length_append])

theorem reasmStep_active_more (h : r.buf.length + pl.length ≤ r.total.toNat) :
    reasmStep true pl (some r) = (some { r with buf := r.buf ++ pl }, .more) :=
  if_neg (by rw [List.length_append]; omega)

theorem reasmStep_active_done (h : r.buf.length + pl.length = r.total.toNat) :
    reasmStep false pl (some r) = (none, .done (r.buf ++ pl)) := by
  simp [reasmStep, h]

theorem reasmStep_active_short (h : r.buf.length + pl.length < r.total.toNat) :
    reasmStep false pl (some r) = (none, .error) := by
  simp [reasmStep, h.ne]

end

/-- R194: an error idles the reassembler. -/
theorem reasmStep_error {more : Bool} {pl : List Byte} {ra ra' : Option Reasm}
    (h : reasmStep more pl ra = (ra', .error)) : ra' = none := by
  match ra, more, pl with
  | none, false, _ => cases h
  | none, true, [] | none, true, [_] =>
    cases h
    rfl
  | none, true, lo :: hi :: data =>
    rcases Nat.lt_or_ge (fromLe16 lo hi) data.length with hover | hfits
    · rw [reasmStep_idle_overlong hover] at h
      cases h
      rfl
    · rw [reasmStep_idle_start hfits] at h
      cases h
  | some r, more, pl =>
    rcases Nat.lt_or_ge r.total.toNat (r.buf.length + pl.length) with hover | hfits
    · rw [reasmStep_active_overlong more hover] at h
      cases h
      rfl
    cases more with
    | true =>
      rw [reasmStep_active_more hfits] at h
      cases h
    | false =>
      rcases hfits.lt_or_eq with hunder | htotal
      · rw [reasmStep_active_short hunder] at h
        cases h
        rfl
      · rw [reasmStep_active_done htotal] at h
        cases h

/-! ## REASM_PUSH (R193) -/

section
variable {fc : Byte} {pl message : List Byte} {e : Engine} {ra : Option Reasm}

theorem cmdReasmPush_of_long (h : 255 < pl.length) : cmdReasmPush fc pl e = raise .errLen e := if_pos h

theorem cmdReasmPush_of_more (hlen : pl.length ≤ 255) (h : reasmStep (fc.getLsbD 4) pl e.ra = (ra, .more)) :
    cmdReasmPush fc pl e = complete [0] { e with ra } := by
  rw [cmdReasmPush, if_neg (Nat.not_lt.mpr hlen), h]

theorem cmdReasmPush_of_done (hlen : pl.length ≤ 255) (h : reasmStep (fc.getLsbD 4) pl e.ra = (ra, .done message)) :
    cmdReasmPush fc pl e = complete (1 :: varField message) { e with ra } := by
  rw [cmdReasmPush, if_neg (Nat.not_lt.mpr hlen), h]

theorem cmdReasmPush_of_error (hlen : pl.length ≤ 255) (h : reasmStep (fc.getLsbD 4) pl e.ra = (ra, .error)) :
    cmdReasmPush fc pl e = raise .errFrag { e with ra } := by
  rw [cmdReasmPush, if_neg (Nat.not_lt.mpr hlen), h]

end

theorem Engine.set_ra_none_of_idle {e : Engine} (h : e.ra = none) : { e with ra := none } = e := by rw [← h]

/-- Settles O28: each clause is one row of `reasmStep`, answered as REASM_PUSH answers its result. -/
theorem reasmPushAnswers : Obligations.ReasmPushAnswers := by
  intro fc pl s push
  refine ⟨fun hlong => ?_, fun hlen hidle hflag => ?_, fun hidle hflag hshort => ?_, ?_, ?_⟩
  · exact answers_of_command rfl (cmdReasmPush_of_long hlong)
  · refine answers_of_command rfl ?_
    rw [cmdReasmPush_of_done hlen (by rw [hflag, hidle, reasmStep_idle_unflagged]), Engine.set_ra_none_of_idle hidle]
    rfl
  · refine answers_of_command rfl ?_
    rw [cmdReasmPush_of_error (by omega) (by rw [hflag, hidle, reasmStep_idle_short hshort]),
      Engine.set_ra_none_of_idle hidle]
    rfl
  · rintro lo hi data hlen hidle hflag rfl
    refine ⟨fun hfits => ?_, fun hover => ?_⟩
    · exact answers_of_command rfl
        (cmdReasmPush_of_more hlen (by rw [hflag, hidle]; exact reasmStep_idle_start hfits))
    · refine answers_of_command rfl ?_
      rw [cmdReasmPush_of_error hlen (by rw [hflag, hidle, reasmStep_idle_overlong hover]),
        Engine.set_ra_none_of_idle hidle]
      rfl
  · intro r hlen hactive
    refine ⟨fun hover => ?_, fun hfits hflag => ?_, fun htotal hflag => ?_, fun hunder hflag => ?_⟩
    · exact answers_of_command rfl
        (cmdReasmPush_of_error hlen (by rw [hactive, reasmStep_active_overlong _ hover]))
    · exact answers_of_command rfl
        (cmdReasmPush_of_more hlen (by rw [hflag, hactive, reasmStep_active_more hfits]))
    · exact answers_of_command rfl
        (cmdReasmPush_of_done hlen (by rw [hflag, hactive, reasmStep_active_done htotal]))
    · exact answers_of_command rfl
        (cmdReasmPush_of_error hlen (by rw [hflag, hactive, reasmStep_active_short hunder]))

/-! ## A message's chunks in order (R196) -/

/-- REASM_PUSH of a chunk of the fragmenter, with the flag in bit 4 of `fc`. -/
def pushChunk (c : Bool × List Byte) : Instr := .reasmPush (if c.1 then 0x10 else 0x00) c.2

theorem runAll_cons_answers {i : Instr} {s : State} {e : Engine} {rsp : List Byte} (h : Answers i s e rsp)
    (is : List Instr) : runAll (i :: is) s = runAll is { s with engine := e, rsp := rsp :: s.rsp } := by
  rw [runAll, show exec i s = _ from h]

/-- The state after `n` answers More and the answer Done with the message, with the reassembler idle. -/
def State.reassembled (s : State) (n : Nat) (message : List Byte) : State :=
  { s with
    engine := { s.engine with ra := none }
    rsp := (0x00 :: 0x01 :: varField message) :: (List.replicate n [0x00, 0x00] ++ s.rsp) }

theorem runAll_push_done {pl message : List Byte} {s : State} (hlen : pl.length ≤ 255)
    (h : reasmStep false pl s.engine.ra = (none, .done message)) :
    runAll [pushChunk (false, pl)] s = some (s.reassembled 0 message) :=
  runAll_cons_answers (answers_of_command rfl (cmdReasmPush_of_done (fc := 0x00) hlen h)) []

/-- A chunk that is answered More only adds its answer to those that the rest of the message has. -/
theorem runAll_push_more {pl message : List Byte} {s : State} {ra : Option Reasm} {is : List Instr} {n : Nat}
    (hlen : pl.length ≤ 255) (h : reasmStep true pl s.engine.ra = (ra, .more))
    (hrest : ∀ s' : State, s'.engine.ra = ra → runAll is s' = some (s'.reassembled n message)) :
    runAll (pushChunk (true, pl) :: is) s = some (s.reassembled (n + 1) message) := by
  have hanswers : Answers (pushChunk (true, pl)) s { s.engine with ra } [0x00, 0x00] :=
    answers_of_command rfl (cmdReasmPush_of_more (fc := 0x10) hlen h)
  rw [runAll_cons_answers hanswers, hrest _ rfl, State.reassembled, State.reassembled, List.replicate_succ',
    List.append_assoc]
  rfl

/-- The later chunks complete a message that lacks just their bytes. -/
theorem runAll_laterChunks : ∀ {bs : List (List Byte)} {r : Reasm} {s : State}, bs ≠ [] →
    (∀ b ∈ bs, b.length ≤ 255) → s.engine.ra = some r → r.buf.length + bs.flatten.length = r.total.toNat →
    runAll ((laterChunks bs).map pushChunk) s = some (s.reassembled (bs.length - 1) (r.buf ++ bs.flatten))
  | [], _, _, hne, _, _, _ => absurd rfl hne
  | [last], r, s, _, hlen, hra, htotal => by
    rw [List.flatten_singleton] at htotal ⊢
    exact runAll_push_done (hlen last (by simp)) (by rw [hra, reasmStep_active_done htotal])
  | block :: b :: rest, r, s, _, hlen, hra, htotal => by
    obtain ⟨hblock, hrest⟩ := List.forall_mem_cons.mp hlen
    rw [List.flatten_cons, List.length_append] at htotal
    rw [List.flatten_cons, ← List.append_assoc]
    refine runAll_push_more hblock (by rw [hra, reasmStep_active_more (by omega)]) fun s' hra' => ?_
    exact runAll_laterChunks (List.cons_ne_nil b rest) hrest hra' (by simp only [List.length_append]; omega)

/-- The first of several chunks starts a message of the announced length (R186). -/
theorem reasmStep_first_chunk {data : List Byte} (hlen : data.length ≤ 65535) :
    reasmStep true (le16 data.length ++ data.take 14) none =
      (some ⟨BitVec.ofNat 16 data.length, data.take 14⟩, .more) := by
  have htotal : fromLe16 (BitVec.ofNat 8 data.length) (BitVec.ofNat 8 (data.length / 256)) = data.length :=
    fromLe16_le16 (by omega)
  refine (reasmStep_idle_start (by rw [htotal]; exact List.length_take_le' ..)).trans ?_
  rw [htotal]
  rfl

theorem runAll_pushChunks {data : List Byte} {s : State} (hlen : data.length ≤ 65535) (hidle : s.engine.ra = none) :
    runAll ((fragmentChunks data).map pushChunk) s = some (s.reassembled ((fragmentChunks data).length - 1) data) := by
  rcases Nat.lt_or_ge 14 data.length with hgt | hle
  · have hflat : (blocksOf 16 (data.drop 14)).flatten = data.drop 14 := blocksOf_flatten (by decide) _
    have hpos : 0 < (blocksOf 16 (data.drop 14)).length := by
      rw [blocksOf_length (by decide), List.length_drop]
      omega
    rw [fragmentChunks_of_gt hgt, List.length_cons, laterChunks_length, Nat.add_sub_cancel, ← Nat.sub_add_cancel hpos]
    refine runAll_push_more (by simp [le16_length]; omega) (by rw [hidle, reasmStep_first_chunk hlen]) fun s' hra => ?_
    rw [runAll_laterChunks (List.length_pos_iff.mp hpos)
      (fun b hb => (blocksOf_mem (by decide) hb).2.trans (by decide)) hra, hflat, List.take_append_drop]
    · rw [hflat, BitVec.toNat_ofNat, List.length_take, List.length_drop]
      omega
  · rw [fragmentChunks_of_le hle]
    exact runAll_push_done (by omega) (by rw [hidle, reasmStep_idle_unflagged])

/-- Settles O29: the first chunk starts the message and `runAll_laterChunks` completes it. -/
theorem reassembleFragmentsRoundTrip : Obligations.ReassembleFragmentsRoundTrip := by
  intro data s hlen hidle
  refine (runAll_pushChunks hlen hidle).trans ?_
  rw [State.reassembled, Engine.set_ra_none_of_idle hidle]

/-! ## What a partial message outlives (R194, R195) -/

/-- R194: REASM_PUSH answers ERR_FRAG only with an idle reassembler. -/
theorem cmdReasmPush_errFrag {fc : Byte} {pl : List Byte} {e : Engine} (h : (cmdReasmPush fc pl e).2 = [0x0C]) :
    (cmdReasmPush fc pl e).1.ra = none := by
  by_cases hlen : pl.length ≤ 255
  · rcases hstep : reasmStep (fc.getLsbD 4) pl e.ra with ⟨ra, _ | message | _⟩
    · rw [cmdReasmPush_of_more hlen hstep] at h
      cases h
    · rw [cmdReasmPush_of_done hlen hstep] at h
      cases h
    · rw [cmdReasmPush_of_error hlen hstep]
      exact reasmStep_error hstep
  · rw [cmdReasmPush_of_long (Nat.lt_of_not_le hlen)] at h
    cases h

/-- Settles O30: an error idles the reassembler, and `engineEffect_ra` names the instructions that write RA_*. -/
theorem partialMessageStays : Obligations.PartialMessageStays := by
  refine ⟨fun s => answers_of_command rfl rfl, fun fc pl s s' hexec hrsp => ?_, fun s s' hstep _ hra => ?_⟩
  · cases hexec
    exact cmdReasmPush_errFrag (List.head_eq_of_cons_eq hrsp)
  · rcases step_engine_runs hstep with he | ⟨hreset, _⟩ | ⟨i, hi, he⟩
    · exact absurd (congrArg Engine.ra he) hra
    · exact .inl hreset
    · rw [he] at hra
      rcases engineEffect_ra hra with rfl | rfl | ⟨fc, pl, rfl⟩
      · exact .inr (.inl hi)
      · exact .inr (.inr (.inl hi))
      · exact .inr (.inr (.inr ⟨fc, pl, hi⟩))

end Sys2Proof.Machine

/-! PROOFS. The request/response correlator (46_correlator.md): the slot's rows (R206 to R214) as equations of its two
commands and two events, what `t` ticks do to a waiting slot (R214), the two orders of a frame and the last tick (R215,
R284), and what ends a wait (R211). -/

namespace Sys2Proof.Machine

/-! ## The commands, state by state (R210, R231) -/

section
variable {e : Engine}

theorem cmdReqCollect_of_awaiting {r : Word} (h : e.corr = .awaiting r) : cmdReqCollect e = raise .errPending e := by
  rw [cmdReqCollect, h]

theorem cmdReqCollect_of_timedOut (h : e.corr = .timedOut) :
    cmdReqCollect e = raise .errTimeout { e with corr := .idle } := by
  rw [cmdReqCollect, h]

theorem cmdReqCollect_of_resolved {r : Word} {f : Frame} (h : e.corr = .resolved r f) :
    cmdReqCollect e = complete (le32 r ++ frameFields f) { e with corr := .idle } := by
  rw [cmdReqCollect, h]

theorem cmdSessionInit_of_busy (h : e.corr ≠ .idle) : cmdSessionInit e = raise .errBusy e := if_neg h

/-! ## The events, state by state (R212, R214) -/

theorem receive_of_no_frame {b : List Byte} (h : frameDecode b = none) : receive b e = { e with parseErr := true } := by
  rw [receive, h]

theorem receive_of_frame {b : List Byte} {f : Frame} (h : frameDecode b = some f) : receive b e = receiveFrame f e := by
  rw [receive, h]

theorem receive_corr_of_not_awaiting (b : List Byte) (h : ∀ r, e.corr ≠ .awaiting r) :
    (receive b e).corr = e.corr := by
  rcases receive_cases b e with ⟨_, hr⟩ | ⟨_, _, ⟨r, ha, _⟩ | ⟨_, hr⟩⟩
  · rw [hr]
  · exact absurd ha (h r)
  · rw [hr]

theorem tickEngine_of_awaiting_one (h : e.corr = .awaiting 1) : tickEngine e = { e with corr := .timedOut } := by
  rw [tickEngine, h]
  rfl

theorem tickEngine_of_awaiting_more {r : Word} (h : e.corr = .awaiting r) (hr : r ≠ 1) :
    tickEngine e = { e with corr := .awaiting (r - 1) } := by
  have hleft : r - 1 ≠ 0 := fun hz => hr (BitVec.sub_eq_iff_eq_add.mp hz)
  simp only [tickEngine, h, if_neg hleft]

theorem tickEngine_of_not_awaiting (h : ∀ r, e.corr ≠ .awaiting r) : tickEngine e = e := by
  rcases tickEngine_cases e with ⟨ha, _⟩ | ⟨r, ha, _⟩ | ⟨_, ht⟩
  · exact absurd ha (h 1)
  · exact absurd ha (h r)
  · exact ht

end

theorem moves_rxNotify (b : List Byte) (s : State) : Moves (.rxNotify b) s (receive b s.engine) := rfl

theorem exec_tick (s : State) : exec .tick s = .next
    { s with engine := tickEngine s.engine, host := { s.host with block := s.host.block.tick } } := rfl

/-- Settles O31: each row is the equation of its command or event in that state, and `engineEffect_corr` names the
instructions that write the slot. -/
theorem correlatorTransitionTable : Obligations.CorrelatorTransitionTable := by
  intro s
  refine ⟨fun t hidle ht => ?_, fun hidle => ?_, fun t hbusy => ?_, fun r b f ha hf => ?_, fun b hf => ?_,
    fun b f hn hf => ?_, fun s' htick => ?_, fun r f hc => ?_, fun hc => ?_, fun r hc => ?_, fun hc => ?_,
    fun i s' hexec hissue hrequest hcollect htick hnotify => ?_⟩
  · refine answers_of_command rfl ?_
    rw [cmdReqIssue_of_idle t hidle, if_neg ht]
    rfl
  · exact answers_of_command rfl (cmdReqIssue_of_idle 0 hidle)
  · exact answers_of_command rfl (cmdReqIssue_of_busy t hbusy)
  · rw [← receiveFrame_of_awaiting f ha, ← receive_of_frame hf]
    exact moves_rxNotify b s
  · rw [← receive_of_no_frame hf]
    exact moves_rxNotify b s
  · rw [← receiveFrame_of_not_awaiting f hn, ← receive_of_frame hf]
    exact moves_rxNotify b s
  · have he : s'.engine = tickEngine s.engine := exec_next_engine htick
    rw [he]
    refine ⟨tickEngine_of_awaiting_one, fun r ha hr => ?_, tickEngine_of_not_awaiting⟩
    exact tickEngine_of_awaiting_more ha (by rintro rfl; exact absurd hr (by decide))
  · exact answers_of_command rfl (cmdReqCollect_of_resolved hc)
  · exact answers_of_command rfl (cmdReqCollect_of_timedOut hc)
  · exact answers_of_command rfl (cmdReqCollect_of_awaiting hc)
  · exact answers_of_command rfl (cmdReqCollect_of_idle hc)
  · by_contra hne
    rw [exec_next_engine hexec] at hne
    rcases engineEffect_corr hne with ⟨t, hi⟩ | ⟨t, hi⟩ | hi | hi | hi
    · exact hissue t hi
    · exact hrequest t hi
    · exact hcollect hi
    · exact htick hi
    · rw [hnotify] at hi
      cases hi

/-! ## The deadline (R214) -/

/-- A tick writes nothing of the engine but the slot. -/
theorem tickEngine_eq_set_corr (e : Engine) : ∃ c, tickEngine e = { e with corr := c } := by
  rcases tickEngine_cases e with ⟨_, ht⟩ | ⟨r, _, _, ht⟩ | ⟨_, ht⟩
  · exact ⟨_, ht⟩
  · exact ⟨_, ht⟩
  · exact ⟨e.corr, ht⟩

/-- What a tick takes from the host's wait: one of the ticks that a sleeping host still counts (log 10). -/
theorem Block.tick_cases (b : Block) : b.tick = b ∨ ∃ n, b = .ticks n ∧ b.tick = .ticks (n - 1) := by
  cases b with
  | ticks n => exact .inr ⟨n, rfl, rfl⟩
  | ready => exact .inl rfl
  | untilIrq => exact .inl rfl

theorem runAll_ticks_engine (k : Nat) (s : State) :
    ∃ s', runAll (List.replicate k .tick) s = some s' ∧ s'.engine = tickEngine^[k] s.engine := by
  induction k generalizing s with
  | zero => exact ⟨s, rfl, rfl⟩
  | succ k ih =>
    rw [List.replicate_succ, runAll, exec_tick]
    exact ih _

/-- Before the deadline each tick takes one off the count. -/
theorem tickEngine_iterate_of_lt {e : Engine} {t : Word} (h : e.corr = .awaiting t) {k : Nat} (hk : k < t.toNat) :
    tickEngine^[k] e = { e with corr := .awaiting (t - BitVec.ofNat 32 k) } := by
  induction k with
  | zero => rw [Function.iterate_zero_apply, BitVec.sub_zero, ← h]
  | succ k ih =>
    have hleft : t - BitVec.ofNat 32 k ≠ 1 := by bv_omega
    have hcount : t - BitVec.ofNat 32 k - 1 = t - BitVec.ofNat 32 (k + 1) := by bv_omega
    rw [Function.iterate_succ_apply', ih (by omega), tickEngine_of_awaiting_more rfl hleft, hcount]

/-- The `t`-th tick finds a count of 1. -/
theorem tickEngine_iterate_deadline {e : Engine} {t : Word} (h : e.corr = .awaiting t) (ht : t ≠ 0) :
    tickEngine^[t.toNat] e = { e with corr := .timedOut } := by
  obtain ⟨n, hn⟩ : ∃ n, t.toNat = n + 1 := Nat.exists_eq_succ_of_ne_zero (by bv_omega)
  have hlast : t - BitVec.ofNat 32 n = 1 := by bv_omega
  rw [hn, Function.iterate_succ_apply', tickEngine_iterate_of_lt h (by omega), hlast]
  exact tickEngine_of_awaiting_one rfl

/-- Settles O33: `k` TICKs are `k` iterations of `tickEngine`, which counts down to 1 and then times out. -/
theorem timeoutAtExactlyTheDeadline : Obligations.TimeoutAtExactlyTheDeadline := by
  refine ⟨fun s => ?_, fun s t ha ht => ⟨fun k hk => ?_, ?_⟩⟩
  · obtain ⟨c, hc⟩ := tickEngine_eq_set_corr s.engine
    refine ⟨{ s.engine with corr := c }, s.host.block.tick, ?_, rfl, rfl, rfl, rfl, rfl, s.host.block.tick_cases⟩
    rw [exec_tick, hc]
  · rw [← tickEngine_iterate_of_lt ha hk]
    exact runAll_ticks_engine k s
  · rw [← tickEngine_iterate_deadline ha ht]
    exact runAll_ticks_engine t.toNat s

/-! ## A frame and the last tick (R215, R284) -/

theorem Engine.not_awaiting_of_irq {e : Engine} (h : e.irqCorr = true) (r : Word) : e.corr ≠ .awaiting r := by
  intro ha
  rw [Engine.irqCorr, ha] at h
  cases h

/-- An event moves the slot only while it is Awaiting. -/
theorem engineEffect_corr_of_event {i : Instr} {e : Engine} (hi : notifies i = true ∨ i = .tick)
    (h : ∀ r, e.corr ≠ .awaiting r) : (engineEffect i e).corr = e.corr := by
  rcases hi with hi | rfl
  · obtain ⟨b, hb⟩ := engineEffect_of_notifies hi e
    rw [hb]
    exact receive_corr_of_not_awaiting b h
  · exact congrArg Engine.corr (tickEngine_of_not_awaiting h)

theorem step_of_rx_frame {s : State} {rest : List Turn} {b : List Byte} {f : Frame} (hturn : s.turns = .rx b :: rest)
    (hf : frameDecode b = some f) :
    step s = .next { s with turns := rest, engine := receiveFrame f s.engine } := by
  have hdecode : decode (.rx b) = .ok (frameInstr f) := by rw [decode, decodeRx, hf]
  rw [step_of_fetch_run (fetch_of_rx_turn hturn) hdecode]
  exact moves_frame (instrFrame_frameInstr f) (frameDecode_payload hf) _

theorem step_of_tick {s : State} {rest : List Turn} (hturn : s.turns = .tick :: rest) : step s = .next
    { s with
      turns := rest
      engine := tickEngine s.engine
      host := { s.host with block := s.host.block.tick } } :=
  step_of_fetch_run (fetch_of_tick_turn hturn) rfl

theorem core_run_succ_of_step {s s' : State} (h : step s = .next s') (k : Nat) :
    Sys2Proof.core.run (k + 1) s = Sys2Proof.core.run k s' := by
  simp only [Host.Core.run, show Sys2Proof.core.step s = .next s' from h]

/-- Settles O34: only an Awaiting slot is moved by events, and each order is two steps whose second one finds the slot
completed. -/
theorem raceResolvesExactlyOnce : Obligations.RaceResolvesExactlyOnce := by
  refine ⟨fun s s' i hi hirq hexec => ?_, fun s rest b f ha hf => ⟨fun hturns => ?_, fun hturns => ?_⟩⟩
  · rw [exec_next_engine hexec]
    exact engineEffect_corr_of_event hi (Engine.not_awaiting_of_irq hirq)
  · rw [core_run_succ_of_step (step_of_rx_frame hturns hf), core_run_succ_of_step (step_of_tick rfl)]
    have hframe := receiveFrame_of_awaiting f ha
    exact ⟨_, rfl, (congrArg tickEngine hframe).trans (tickEngine_of_not_awaiting (Engine.not_awaiting_of_irq rfl))⟩
  · rw [core_run_succ_of_step (step_of_tick hturns), core_run_succ_of_step (step_of_rx_frame rfl hf)]
    have htick := tickEngine_of_awaiting_one ha
    exact ⟨_, rfl, (congrArg (receiveFrame f) htick).trans
      (receiveFrame_of_not_awaiting f (Engine.not_awaiting_of_irq rfl))⟩

/-! ## What ends a wait (R211) -/

/-- No instruction idles a slot that is Awaiting: REQ_ISSUE and REQ_COLLECT are refused, and an event completes the
request or lets it wait on. -/
theorem engineEffect_corr_ne_idle {e : Engine} {r : Word} (h : e.corr = .awaiting r) (i : Instr) :
    (engineEffect i e).corr ≠ .idle := by
  have hbusy : e.corr ≠ .idle := by rw [h]; exact nofun
  have hissue (t : Word) : (cmdReqIssue t e).1.corr ≠ .idle := by rwa [cmdReqIssue_of_busy t hbusy]
  by_cases hc : (engineEffect i e).corr = e.corr
  · rwa [hc]
  · rcases engineEffect_corr hc with ⟨t, rfl⟩ | ⟨t, rfl⟩ | rfl | rfl | hn
    · exact hissue t
    · exact hissue t
    · rwa [engineEffect, cmdReqCollect_of_awaiting h]
    · rw [engineEffect]
      rcases tickEngine_cases e with ⟨_, ht⟩ | ⟨r, _, _, ht⟩ | ⟨_, ht⟩ <;> rw [ht]
      · exact nofun
      · exact nofun
      · exact hbusy
    · obtain ⟨b, hb⟩ := engineEffect_of_notifies hn e
      rw [hb]
      rcases receive_cases b e with ⟨_, hr⟩ | ⟨f, _, ⟨r, _, hr⟩ | ⟨_, hr⟩⟩ <;> rw [hr]
      · exact hbusy
      · exact nofun
      · exact hbusy

/-- Settles O35: a step that is no reset leaves the engine alone or has one instruction's effect, which idles no
Awaiting slot. -/
theorem onlyResetCancelsAWait : Obligations.OnlyResetCancelsAWait := by
  refine ⟨fun s s' r hstep ha hidle => ?_, fun s s' hexec => ?_, fun s hbusy => ?_⟩
  · rcases step_engine_runs hstep with he | ⟨hreset, _⟩ | ⟨i, _, he⟩
    · rw [he, ha] at hidle
      cases hidle
    · exact hreset
    · rw [he] at hidle
      exact absurd hidle (engineEffect_corr_ne_idle ha i)
  · have he : s'.engine = (cmdSessionEnd s.engine).1 := exec_next_engine hexec
    rw [he]
    rfl
  · exact answers_of_command rfl (cmdSessionInit_of_busy hbusy)

end Sys2Proof.Machine

/-! PROOFS. Session control (47_session_control.md): the lifetime of the key over the steps (R233), and the commands
SESSION_END, GET_STATUS and CLR_FLAGS (R232, R234, R235) with the STATUS bits (R30). -/

namespace Sys2Proof.Machine

/-! ## The lifetime of the key (R233) -/

theorem Engine.keyValid_eq_false {e : Engine} : e.keyValid = false ↔ e.aesRk = none :=
  Option.isSome_eq_false_iff.trans Option.isNone_iff_eq_none

theorem cmdSessionInit_of_idle {e : Engine} (h : e.corr = .idle) :
    cmdSessionInit e =
      complete [] { e with seq := 0, aesRk := none, ra := none, parseErr := false, unsolicited := false } :=
  if_pos h

theorem cmdSessionInit_aesRk (e : Engine) : (cmdSessionInit e).1.aesRk = none ∨ (cmdSessionInit e).1 = e := by
  by_cases h : e.corr = .idle
  · exact .inl (by rw [cmdSessionInit_of_idle h, complete_engine])
  · exact .inr (by rw [cmdSessionInit_of_busy h, raise_engine])

/-- What changes the schedule over one step: AES_SETKEY where there was none, or one of the three ways to drop it. -/
theorem step_aesRk {s s' : State} (h : step s = .next s') (hrk : s'.engine.aesRk ≠ s.engine.aesRk) :
    (∃ key, s.Runs (.aesSetkey key) ∧ s.engine.aesRk = none) ∨
    (s.Runs .sessionEnd ∨ s.Runs .sessionInit ∨ s.Resets) ∧ s'.engine.aesRk = none := by
  rcases step_engine_runs h with he | ⟨hreset, he⟩ | ⟨i, hi, he⟩
  · exact absurd (congrArg Engine.aesRk he) hrk
  · exact .inr ⟨.inr (.inr hreset), congrArg Engine.aesRk he⟩
  · rw [he] at hrk
    rcases engineEffect_aesRk hrk with ⟨key, rfl, hnone⟩ | rfl | rfl
    · exact .inl ⟨key, hi, hnone⟩
    · exact .inr ⟨.inl hi, congrArg Engine.aesRk he⟩
    · rcases cmdSessionInit_aesRk s.engine with hdrop | hkept
      · exact .inr ⟨.inr (.inl hi), (congrArg Engine.aesRk he).trans hdrop⟩
      · exact absurd (congrArg Engine.aesRk hkept) hrk

/-- Settles O40: a step that changes the schedule loads it where there was none or drops it, by `step_aesRk`; any other
step keeps KEYVALID with it. -/
theorem keyIsImmutableOnceEstablished : Obligations.KeyIsImmutableOnceEstablished := by
  intro s s' hstep
  by_cases hrk : s'.engine.aesRk = s.engine.aesRk
  · have hvalid : s'.engine.keyValid = s.engine.keyValid := congrArg Option.isSome hrk
    rw [hvalid]
    exact ⟨fun h0 h1 => absurd (h0.symm.trans h1) nofun, fun h1 h0 => absurd (h0.symm.trans h1) nofun, fun _ _ => hrk⟩
  · rcases step_aesRk hstep hrk with ⟨key, hload, hnone⟩ | ⟨hdrop, hnone⟩
    · rw [Engine.keyValid_eq_false.mpr hnone]
      exact ⟨fun _ _ => ⟨key, hload⟩, nofun, nofun⟩
    · rw [Engine.keyValid_eq_false.mpr hnone]
      exact ⟨nofun, fun _ _ => hdrop, nofun⟩

/-! ## SESSION_END and CLR_FLAGS (R232, R235) -/

/-- Settles O39: the command completes with the key dropped, whatever the slot. -/
theorem sessionEndDropsOnlyTheKey : Obligations.SessionEndDropsOnlyTheKey :=
  fun _ => answers_of_command (f := cmdSessionEnd) rfl rfl

/-- Settles O42: a set mask bit makes `flag && !bit` false, a clear one leaves the flag. -/
theorem clrFlagsClearsNamedFlags : Obligations.ClrFlagsClearsNamedFlags := by
  intro mask s
  refine ⟨s.engine.parseErr && !mask.getLsbD 2, s.engine.unsolicited && !mask.getLsbD 3,
    answers_of_command (f := cmdClrFlags mask) rfl rfl, ?_, ?_, ?_, ?_⟩
  all_goals
    intro hbit
    simp only [hbit, Bool.not_true, Bool.and_false, Bool.not_false, Bool.and_true]

/-! ## GET_STATUS (R234) -/

/-- R30: the bits of STATUS, over the 16 settings of its four flags. -/
theorem Engine.statusByte_bits (e : Engine) :
    e.statusByte.getLsbD 0 = e.keyValid ∧ e.statusByte.getLsbD 1 = e.raActive ∧
    e.statusByte.getLsbD 2 = e.parseErr ∧ e.statusByte.getLsbD 3 = e.unsolicited ∧ e.statusByte.toNat < 16 := by
  unfold Engine.statusByte
  generalize e.keyValid = k, e.raActive = r, e.parseErr = p, e.unsolicited = u
  revert k r p u
  decide

/-- R28: CORR_FRAME holds a value only in Resolved. -/
theorem Corr.frame_of_code_ne {c : Corr} (h : c.code ≠ 0x02) : c.frame = none := by
  cases c with
  | idle => rfl
  | awaiting remain => rfl
  | resolved remain f => exact absurd rfl h
  | timedOut => rfl

/-- Settles O41: the command completes with the registers, `statusByte_bits` gives R30's bits, and in each state of the
slot the three views are R28's. -/
theorem getStatusAnswersRegisters : Obligations.GetStatusAnswersRegisters := by
  refine ⟨fun s => answers_of_command (f := cmdGetStatus) rfl rfl, fun e => ?_, fun e r f => ?_⟩
  · obtain ⟨hkey, hra, hparse, hunsolicited, hupper⟩ := e.statusByte_bits
    rw [hkey, hra]
    exact ⟨Option.isSome_iff_ne_none, Option.isSome_iff_ne_none, hparse, hunsolicited, hupper⟩
  · rw [Engine.corrCode, Engine.corrRemain, Engine.corrFrame]
    exact ⟨fun hidle => hidle ▸ ⟨rfl, rfl⟩, fun hawaiting => hawaiting ▸ ⟨rfl, rfl⟩,
      fun hresolved => hresolved ▸ ⟨rfl, rfl, rfl⟩, fun htimedOut => htimedOut ▸ ⟨rfl, rfl⟩, Corr.frame_of_code_ne⟩

end Sys2Proof.Machine

/-! PROOFS. The end of the handshake, the polling loop and the WiFi list (48_host_sequences.md R246, R247, R255, R257, R260,
R263, R264): each turn of the host is one step, a computation by itself and a command with its answer. -/

namespace Sys2Proof.Machine

/-! ## A turn of the host, in a sequence (R58, log 12) -/

/-- The machine with a host that waits for nothing, with these turns and actions to come, these values of a handshake and
these responses. -/
def State.hostAt (turns : List Turn) (running : List HostAction) (keys : HandshakeKeys) (rsp : List (List Byte))
    (s : State) : State :=
  { s with turns, rsp, host := { s.host with running, block := .ready, keys } }

theorem State.eq_hostAt {s : State} {turns : List Turn} {running : List HostAction} (hturns : s.turns = turns)
    (hblock : s.host.block = .ready) (hrunning : s.host.running = running) :
    s = s.hostAt turns running s.host.keys s.rsp := by
  rw [State.hostAt, ← hturns, ← hrunning, ← hblock]

theorem step_hostAt_resume (s : State) (rest : List Turn) (k : Kont) (more : List HostAction) (keys : HandshakeKeys)
    (rsps : List (List Byte)) :
    step (s.hostAt (.host :: rest) (.resume k :: more) keys rsps) = .next (resume k (s.hostAt rest more keys rsps)) := rfl

/-- A computation of the host is a step of its own. -/
theorem step_of_resume {s : State} {rest : List Turn} {k : Kont} {more : List HostAction} (hturn : s.turns = .host :: rest)
    (hblock : s.host.block = .ready) (hrunning : s.host.running = .resume k :: more) :
    step s = .next (resume k (s.hostAt rest more s.host.keys s.rsp)) := by
  conv_lhs => rw [State.eq_hostAt hturn hblock hrunning]
  exact step_hostAt_resume s rest k more _ _

/-- A command that the host issues is decoded and answers (R72, R56). -/
theorem step_hostAt_issue (s : State) (rest : List Turn) {i : Instr} (more : List HostAction) (keys : HandshakeKeys)
    (rsps : List (List Byte)) {f : Engine → Engine × List Byte} {e : Engine} {r : List Byte} (hw : wellFormed i = true)
    (hne : encodeCmd i ≠ []) (hi : commandOf i = some f) (hf : f s.engine = (e, r)) :
    step (s.hostAt (.host :: rest) (issue i :: more) keys rsps)
      = .next ({ s with engine := e }.hostAt rest more keys (r :: rsps)) := by
  have hd : decode (.cmd (encodeCmd i)) = .ok i := decodeCmd_encodeCmd hw hne
  exact (step_of_host_next rfl rfl (HostSide.next_of_running rfl) rfl hd).trans (answers_of_command hi hf)

/-- Two turns: the host issues a command, and goes on with its answer. -/
theorem run_hostAt_issue_resume (n : Nat) (s : State) (rest : List Turn) {i : Instr} (k : Kont) (more : List HostAction)
    (keys : HandshakeKeys) (rsps : List (List Byte)) {f : Engine → Engine × List Byte} {e : Engine} {r : List Byte}
    {s' : State} (hw : wellFormed i = true) (hne : encodeCmd i ≠ []) (hi : commandOf i = some f)
    (hf : f s.engine = (e, r)) (hk : resume k ({ s with engine := e }.hostAt rest more keys (r :: rsps)) = s') :
    Sys2Proof.core.run (n + 2) (s.hostAt (.host :: .host :: rest) (issue i :: .resume k :: more) keys rsps)
      = Sys2Proof.core.run n s' := by
  rw [core_run_succ_of_step (step_hostAt_issue s _ _ keys rsps hw hne hi hf),
    core_run_succ_of_step (step_hostAt_resume _ rest k more keys _), hk]

/-! ## What REQ_COLLECT returned (R73) -/

theorem parseCollect_fields (r : Word) (type subtype fc seq : Byte) {payload : List Byte}
    (h : payload.length ≤ Config.varMax) :
    parseCollect (le32 r ++ [type, subtype, fc, seq] ++ varField payload) = some (r.toNat, type, subtype, payload) := by
  simp [parseCollect, readU32_le32, readVar_varField_end h]

theorem exists_le32_eq : ∀ {b : List Byte}, b.length = 4 → ∃ r, le32 r = b
  | [b0, b1, b2, b3], _ => ⟨fromLe32 b0 b1 b2 b3, le32_fromLe32 b0 b1 b2 b3⟩

/-- The payload is read whatever stands in the eight bytes before it. -/
theorem parseCollect_payload {remain hdr payload : List Byte} (hremain : remain.length = 4) (hhdr : hdr.length = 4)
    (h : payload.length ≤ Config.varMax) :
    ∃ n type subtype, parseCollect (remain ++ hdr ++ varField payload) = some (n, type, subtype, payload) := by
  obtain ⟨r, rfl⟩ := exists_le32_eq hremain
  match hdr, hhdr with
  | [type, subtype, fc, seq], _ => exact ⟨_, _, _, parseCollect_fields r type subtype fc seq h⟩

/-! ## The handshake's outcome (R246, R247) -/

theorem resume_peerKey_timeout {dhP : Bytes Config.dhBytes} {s : State} (h : s.lastResponse.1 = Status.errTimeout.code) :
    resume (.peerKey dhP) s = s.abort .protocolTimeout := if_pos h

theorem resume_sharedSecret_ok {s : State} {ss : Bytes Config.dhBytes} (h : s.lastResponse = (0x00, ss.val)) :
    resume .sharedSecret s =
      (s.hold { s.host.keys with sharedSecret := some ss }).push [issue (.md5 ss.val), .resume .sessionKey] :=
  withResult_ok h (parseFixed_val ss)

theorem resume_sessionKey_ok {s : State} {key : Bytes Config.keyBytes} (h : s.lastResponse = (0x00, key.val)) :
    resume .sessionKey s =
      (s.hold { s.host.keys with sessionKey := some key }).push
        [issue (.aesSetkey key.val), .resume .expectOk, .resume (.nego .established),
          .resume (.report .established)] :=
  withResult_ok h (parseFixed_val key)

theorem resume_expectOk_ok {s : State} {results : List Byte} (h : s.lastResponse = (0x00, results)) :
    resume .expectOk s = s := withResult_ok (k := fun _ => s) h rfl

theorem md5_length (msg : List Byte) : (md5 msg).length = 16 := rfl

/-- The shared secret of R246: `peer^priv mod P`, in 128 bytes. -/
def dhSecret (p priv peer : Bytes Config.dhBytes) : Bytes Config.dhBytes :=
  ⟨i2osp (os2ip peer.val ^ os2ip priv.val % os2ip p.val) 128, i2osp_length _ _⟩

/-- The session key of R246: the digest of the secret. -/
def dhSessionKey (p priv peer : Bytes Config.dhBytes) : Bytes Config.keyBytes :=
  ⟨md5 (dhSecret p priv peer).val, md5_length _⟩

section
variable {p priv peer : Bytes Config.dhBytes} (n : Nat) (s : State) (rest : List Turn) (keys : HandshakeKeys)
  (rsps : List (List Byte))

/-- R246, the peer's key: it is held, and MODPOW comes next. -/
theorem run_peerKey {remain hdr : List Byte} (hpriv : keys.privateKey = some priv) (hremain : remain.length = 4)
    (hhdr : hdr.length = 4) :
    Sys2Proof.core.run (n + 1) (s.hostAt (.host :: rest) [.resume (.peerKey p)] keys
        ((0x00 :: (remain ++ hdr ++ varField peer.val)) :: rsps))
      = Sys2Proof.core.run n (s.hostAt rest [issue (.modpow peer.val priv.val p.val), .resume .sharedSecret]
          { keys with peerPublicKey := some peer } ((0x00 :: (remain ++ hdr ++ varField peer.val)) :: rsps)) := by
  have hlen : peer.val.length ≤ Config.varMax := by rw [peer.property]; decide
  obtain ⟨_, _, _, hparse⟩ := parseCollect_payload hremain hhdr hlen
  rw [core_run_succ_of_step (step_hostAt_resume _ _ _ _ _ _), resume_peerKey_ok rfl hparse,
    show (s.hostAt rest [] keys _).host.keys.privateKey = some priv from hpriv]
  rfl

/-- R246, the shared secret: MODPOW answers it, it is held, and MD5 comes next. -/
theorem run_sharedSecret (hp : os2ip p.val ≠ 0) :
    Sys2Proof.core.run (n + 2) (s.hostAt (.host :: .host :: rest)
        [issue (.modpow peer.val priv.val p.val), .resume .sharedSecret] keys rsps)
      = Sys2Proof.core.run n (s.hostAt rest [issue (.md5 (dhSecret p priv peer).val), .resume .sessionKey]
          { keys with sharedSecret := some (dhSecret p priv peer) } ((0x00 :: (dhSecret p priv peer).val) :: rsps)) := by
  have hw : wellFormed (.modpow peer.val priv.val p.val) = true := by
    simp [wellFormed, peer.property, priv.property, p.property, Config.dhBytes, Config.varMax]
  exact run_hostAt_issue_resume n s rest .sharedSecret [] keys rsps hw (List.cons_ne_nil _ _) rfl
    (cmdModpow_of_good_operands _ peer.property.le priv.property.le p.property.le hp)
    (resume_sharedSecret_ok (ss := dhSecret p priv peer) rfl)

/-- R246, the session key: MD5 answers it, it is held, and AES_SETKEY comes next. -/
theorem run_sessionKey :
    Sys2Proof.core.run (n + 2) (s.hostAt (.host :: .host :: rest)
        [issue (.md5 (dhSecret p priv peer).val), .resume .sessionKey] keys rsps)
      = Sys2Proof.core.run n (s.hostAt rest
          [issue (.aesSetkey (dhSessionKey p priv peer).val), .resume .expectOk, .resume (.nego .established),
            .resume (.report .established)]
          { keys with sessionKey := some (dhSessionKey p priv peer) }
          ((0x00 :: (dhSessionKey p priv peer).val) :: rsps)) := by
  have hw : wellFormed (.md5 (dhSecret p priv peer).val) = true := by
    simp [wellFormed, (dhSecret p priv peer).property, Config.dhBytes, Config.varMax]
  exact run_hostAt_issue_resume n s rest .sessionKey [] keys rsps hw (List.cons_ne_nil _ _) rfl rfl
    (resume_sessionKey_ok (key := dhSessionKey p priv peer) rfl)

/-- R246, R241: AES_SETKEY loads the key, and the negotiator is Established. -/
theorem run_established {key : Bytes Config.keyBytes} (hnone : s.engine.aesRk = none) :
    Sys2Proof.core.run (n + 3) (s.hostAt (.host :: .host :: .host :: rest)
        [issue (.aesSetkey key.val), .resume .expectOk, .resume (.nego .established), .resume (.report .established)]
        keys rsps)
      = Sys2Proof.core.run n (({ s with engine := { s.engine with aesRk := some (aesKeyExpand key.val) } }.setNego
          (some .established)).hostAt rest [.resume (.report .established)] keys ([0x00] :: rsps)) := by
  have hw : wellFormed (.aesSetkey key.val) = true := by simp [wellFormed, key.property]
  have hload := run_hostAt_issue_resume (n + 1) s (.host :: rest) .expectOk
    [.resume (.nego .established), .resume (.report .established)] keys rsps hw (List.cons_ne_nil _ _) rfl
    (cmdAesSetkey_of_no_key _ hnone) (resume_expectOk_ok rfl)
  exact hload.trans (core_run_succ_of_step (step_hostAt_resume _ rest _ _ keys _) n)

/-- R246: from the collected peer key to the loaded session key. -/
theorem run_keyDerivation {remain hdr : List Byte} (hpriv : keys.privateKey = some priv) (hremain : remain.length = 4)
    (hhdr : hdr.length = 4) (hp : os2ip p.val ≠ 0) (hnone : s.engine.aesRk = none) :
    Sys2Proof.core.run (n + 8) (s.hostAt (List.replicate 9 .host ++ rest) [.resume (.peerKey p)] keys
        ((0x00 :: (remain ++ hdr ++ varField peer.val)) :: rsps))
      = Sys2Proof.core.run n
          (({ s with engine := { s.engine with aesRk := some (aesKeyExpand (dhSessionKey p priv peer).val) } }.setNego
            (some .established)).hostAt (.host :: rest) [.resume (.report .established)]
            { keys with
              peerPublicKey := some peer
              sharedSecret := some (dhSecret p priv peer)
              sessionKey := some (dhSessionKey p priv peer) }
            ([0x00] :: (0x00 :: (dhSessionKey p priv peer).val) :: (0x00 :: (dhSecret p priv peer).val)
              :: (0x00 :: (remain ++ hdr ++ varField peer.val)) :: rsps)) :=
  calc
    _ = _ := run_peerKey (n + 7) s _ _ _ hpriv hremain hhdr
    _ = _ := run_sharedSecret (n + 5) s _ _ _ hp
    _ = _ := run_sessionKey (n + 3) s _ _ _
    _ = _ := run_established n s _ _ _ hnone

end

/-- Settles O56: after the eight turns of `run_keyDerivation` the host holds the values; the ninth reports and drops them. -/
theorem handshakeLoadsTheDerivedKey : Obligations.HandshakeLoadsTheDerivedKey := by
  intro s rest p priv peer remain hdr rsps hturns hblock hrunning hpriv hremain hhdr hrsp hp hnone secret
  have hs := State.eq_hostAt hturns hblock hrunning
  rw [hrsp] at hs
  have hrun (n : Nat) := (congrArg (Sys2Proof.core.run (n + 8)) hs).trans
    (run_keyDerivation n s rest s.host.keys rsps hpriv hremain hhdr hp hnone)
  have hreport := (hrun 1).trans (core_run_succ_of_step (step_hostAt_resume ..) 0)
  exact ⟨⟨_, hrun 0, hpriv, rfl, rfl, rfl, rfl⟩, _, hreport, rfl, rfl, rfl, rfl⟩

/-- Settles O57: both failures abort the sequence, which leaves the engine alone. -/
theorem handshakeFailureLoadsNoKey : Obligations.HandshakeFailureLoadsNoKey := by
  intro s rest p more rsps hturn hblock hrunning hnego
  have hstep := step_of_resume hturn hblock hrunning
  have hfailed (r : Report) : ((s.hostAt rest more s.host.keys s.rsp).abort r).host.nego = some .failed :=
    congrArg (Option.map NegoState.onError) hnego
  refine ⟨fun hrsp => ?_, fun remain hdr peer hremain hhdr hlen hne hrsp => ?_⟩
  · rw [resume_peerKey_timeout (by rw [hrsp]; rfl)] at hstep
    exact ⟨_, hstep, rfl, hfailed _, rfl, rfl, rfl⟩
  · obtain ⟨_, _, _, hparse⟩ := parseCollect_payload hremain hhdr (hlen.trans (by decide))
    rw [resume_peerKey_bad (by rw [hrsp]; rfl) hparse hne] at hstep
    exact ⟨_, hstep, rfl, hfailed _, rfl, rfl, rfl⟩

/-! ## The polling loop (R255, R257) -/

/-- How a polling loop goes on from `s` with `left` ticks of its window, `more` being what the host does after it: it
reports its failure, or polls again with the sub-deadline. -/
def LoopsWith (goal : PollGoal) (s : State) (more : List HostAction) (left : Nat) (s' : State) : Prop :=
  if left = 0 then s'.host.reports = goal.elapsed :: s.host.reports ∧ s'.host.running = more
  else s'.host.reports = s.host.reports ∧ s'.host.running = .pseudo (.request (BitVec.ofNat 32 (min 2000 left)))
    :: .resume (.polled goal left (min 2000 left)) :: more

theorem pollStep_loopsWith (goal : PollGoal) (left : Nat) (s : State) :
    LoopsWith goal s s.host.running left (pollStep goal left s) := by
  rcases pollStep_cases goal left s with ⟨h0, h⟩ | ⟨hpos, h⟩ <;> rw [h, LoopsWith]
  · rw [if_pos h0]
    exact ⟨rfl, rfl⟩
  · rw [if_neg hpos.ne']
    exact ⟨rfl, rfl⟩

section
variable {goal : PollGoal} {left t : Nat} {s : State}

theorem resume_polled_timeout (h : s.lastResponse.1 = Status.errTimeout.code) :
    resume (.polled goal left t) s = pollStep goal (left - t) s := if_pos h

theorem resume_polled_ok {results payload : List Byte} {remain : Nat} {type subtype : Byte}
    (h : s.lastResponse = (0x00, results)) (hc : parseCollect results = some (remain, type, subtype, payload)) :
    resume (.polled goal left t) s =
      (goal.result type subtype payload).elim (pollStep goal (left - (t - remain)) s) s.report := by
  unfold resume
  rw [h]
  refine (if_neg (show ¬(0x00 : Byte) = Status.errTimeout.code by decide)).trans ?_
  rw [withResult_ok h hc]
  dsimp only
  cases goal.result type subtype payload <;> rfl

end

/-- A status report is a success when byte 1 is 0 (R88). -/
theorem statusSuccess_iff (payload : List Byte) : statusSuccess payload = true ↔ payload[1]? = some 0x00 := beq_iff_eq

theorem result_status (type subtype : Byte) (payload : List Byte) : PollGoal.result .status type subtype payload =
    if type = 1 ∧ subtype = 0x0F ∧ payload[1]? = some 0x00 then some (.wifiConfigured true) else none := by
  simp only [PollGoal.result, statusSuccess_iff]

/-- One round, whatever the loop looks for: the head, a timeout, and a collected frame. -/
theorem poll_rounds (s : State) (goal : PollGoal) (rest : List Turn) (left t : Nat) (more : List HostAction)
    (rsps : List (List Byte)) (hturn : s.turns = .host :: rest) (hblock : s.host.block = .ready) :
    (s.host.running = .resume (.poll goal left) :: more →
      ∃ s', step s = .next s' ∧ s'.engine = s.engine ∧ LoopsWith goal s more left s') ∧
    (s.host.running = .resume (.polled goal left t) :: more →
      (s.rsp = [0x06] :: rsps →
        ∃ s', step s = .next s' ∧ s'.engine = s.engine ∧ LoopsWith goal s more (left - t) s') ∧
      ∀ (r : Word) (type subtype fc seq : Byte) (payload : List Byte), payload.length ≤ Config.varMax →
        s.rsp = (0x00 :: (le32 r ++ [type, subtype, fc, seq] ++ varField payload)) :: rsps →
        ∃ s', step s = .next s' ∧ s'.engine = s.engine ∧
          (∀ found, goal.result type subtype payload = some found →
            s'.host.reports = found :: s.host.reports ∧ s'.host.running = more) ∧
          (goal.result type subtype payload = none → LoopsWith goal s more (left - (t - r.toNat)) s')) := by
  have hloops (left : Nat) (keys : HandshakeKeys) (rsp : List (List Byte)) :
      LoopsWith goal s more left (pollStep goal left (s.hostAt rest more keys rsp)) :=
    pollStep_loopsWith goal left (s.hostAt rest more keys rsp)
  refine ⟨fun hrunning => ?_, fun hrunning => ⟨fun hrsp => ?_, fun r type subtype fc seq payload hlen hrsp => ?_⟩⟩
  · exact ⟨_, step_of_resume hturn hblock hrunning, resume_engine _ _, hloops _ _ _⟩
  · refine ⟨_, step_of_resume hturn hblock hrunning, resume_engine _ _, ?_⟩
    rw [resume_polled_timeout (by rw [hrsp]; rfl)]
    exact hloops _ _ _
  · refine ⟨_, step_of_resume hturn hblock hrunning, resume_engine _ _, ?_⟩
    rw [resume_polled_ok (by rw [hrsp]; rfl) (parseCollect_fields r type subtype fc seq hlen)]
    refine ⟨fun found hfound => ?_, fun hnone => ?_⟩
    · rw [hfound]
      exact ⟨rfl, rfl⟩
    · rw [hnone]
      exact hloops _ _ _

/-- Settles O58: `poll_rounds` for each of the two goals, with what they report written out. -/
theorem pollingLoopRounds : Obligations.PollingLoopRounds := by
  intro s goal rest left t more rsps elapsed answer loopsWith hturn hblock
  have helapsed : elapsed = goal.elapsed := by cases goal <;> rfl
  have hanswer : answer = goal.result := by
    cases goal
    · exact funext fun type => funext fun subtype => funext fun payload => (result_status type subtype payload).symm
    · rfl
  have hloops : loopsWith = LoopsWith goal s more := by
    simp only [loopsWith, helapsed]
    rfl
  obtain ⟨hhead, hpolled⟩ := poll_rounds s goal rest left t more rsps hturn hblock
  rw [hloops, hanswer]
  refine ⟨hhead, fun hrunning _ => ?_⟩
  obtain ⟨htimeout, hframe⟩ := hpolled hrunning
  exact ⟨htimeout, fun r type subtype fc seq payload hlen _ => hframe r type subtype fc seq payload (hlen.trans (by decide))⟩

/-! ## Parsing the WiFi list (R260) -/

theorem wifiEntries_nil (fuel : Nat) : wifiEntries fuel [] = [] := by cases fuel <;> rfl

/-- Parsing stops at an entry that is too short or overruns. -/
theorem wifiEntries_of_bad {fuel : Nat} {n : Byte} {rest : List Byte} (h : n.toNat ≤ 1 ∨ rest.length < n.toNat) :
    wifiEntries fuel (n :: rest) = [] := by
  cases fuel with
  | zero => rfl
  | succ fuel => exact if_pos h

/-- One entry is read back, and parsing goes on after it. -/
theorem wifiEntries_entry {fuel : Nat} (rssi : Byte) {ssid : List Byte} (rest : List Byte) (hmin : 1 ≤ ssid.length)
    (hmax : ssid.length ≤ 254) :
    wifiEntries (fuel + 1) (wifiEntryBytes rssi ssid ++ rest) = ⟨ssid, rssi.toInt⟩ :: wifiEntries fuel rest := by
  have hn : (BitVec.ofNat 8 (ssid.length + 1)).toNat = (rssi :: ssid).length := by
    rw [BitVec.toNat_ofNat, Nat.mod_eq_of_lt (by omega), List.length_cons]
  have hgood : ¬ ((rssi :: ssid).length ≤ 1 ∨ ((rssi :: ssid) ++ rest).length < (rssi :: ssid).length) := by
    simp only [List.length_cons, List.length_append]
    omega
  change wifiEntries (fuel + 1) (BitVec.ofNat 8 (ssid.length + 1) :: ((rssi :: ssid) ++ rest)) = _
  rw [wifiEntries, hn, if_neg hgood, List.take_left, List.drop_left]

theorem wifiEntries_entries {fuel : Nat} {entries : List (Byte × List Byte)} {tail : List Byte}
    (hentries : ∀ e ∈ entries, 1 ≤ e.2.length ∧ e.2.length ≤ 254) (htail : ∀ fuel, wifiEntries fuel tail = [])
    (hfuel : entries.length ≤ fuel) :
    wifiEntries fuel ((entries.map fun e => wifiEntryBytes e.1 e.2).flatten ++ tail)
      = entries.map fun e => ⟨e.2, e.1.toInt⟩ := by
  induction entries generalizing fuel with
  | nil => exact htail fuel
  | cons e entries ih =>
    obtain ⟨fuel, rfl⟩ : ∃ n, fuel = n + 1 := Nat.exists_eq_succ_of_ne_zero (by simp at hfuel; omega)
    obtain ⟨⟨hmin, hmax⟩, hrest⟩ := List.forall_mem_cons.mp hentries
    rw [List.map_cons, List.flatten_cons, List.append_assoc, wifiEntries_entry _ _ hmin hmax,
      ih hrest (by simpa using hfuel), List.map_cons]

/-- Every entry has bytes, so the payload's length is fuel enough. -/
theorem length_le_wifiEntryBytes_flatten (entries : List (Byte × List Byte)) :
    entries.length ≤ (entries.map fun e => wifiEntryBytes e.1 e.2).flatten.length := by
  induction entries with
  | nil => exact le_rfl
  | cons e entries ih =>
    have hpos : 1 ≤ (wifiEntryBytes e.1 e.2).length := Nat.succ_pos _
    rw [List.map_cons, List.flatten_cons, List.length_append, List.length_cons]
    omega

/-- Settles O59: entry by entry (`wifiEntries_entry`), then the tail stops the parse. -/
theorem wifiParseReadsEntries : Obligations.WifiParseReadsEntries := by
  intro entries tail hentries htail
  have hstop : ∀ fuel, wifiEntries fuel tail = [] := by
    rcases htail with rfl | ⟨n, rest, rfl, hbad⟩
    · exact wifiEntries_nil
    · exact fun _ => wifiEntries_of_bad hbad
  have hfuel := length_le_wifiEntryBytes_flatten entries
  exact wifiEntries_entries hentries hstop (by rw [List.length_append]; omega)

/-! ## The WiFi list without duplicates, sorted (R263, R264) -/

/-- De-duplication, at the end of the list: the last entry stays if its SSID has not come before. -/
theorem wifiDedupe_append_singleton (l : List WifiEntry) (e : WifiEntry) :
    wifiDedupe (l ++ [e]) =
      if (wifiDedupe l).any (·.ssid == e.ssid) then wifiDedupe l else wifiDedupe l ++ [e] := by
  rw [wifiDedupe, List.foldl_append]
  rfl

theorem wifiDedupe_sublist (l : List WifiEntry) : (wifiDedupe l).Sublist l := by
  induction l using List.reverseRecOn with
  | nil => exact .refl []
  | append_singleton l e ih =>
    rw [wifiDedupe_append_singleton]
    split
    · exact ih.trans (List.sublist_append_left l [e])
    · exact ih.append (.refl [e])

theorem wifiDedupe_nodup (l : List WifiEntry) : ((wifiDedupe l).map (·.ssid)).Nodup := by
  induction l using List.reverseRecOn with
  | nil => exact List.nodup_nil
  | append_singleton l e ih =>
    rw [wifiDedupe_append_singleton]
    split
    · exact ih
    · rename_i hnew
      rw [List.map_append, List.map_singleton, ← List.concat_eq_append]
      refine ih.concat ?_
      simpa using hnew

/-- R263: of each SSID the first entry is kept. -/
theorem wifiDedupe_find? (l : List WifiEntry) (ssid : List Byte) :
    (wifiDedupe l).find? (·.ssid == ssid) = l.find? (·.ssid == ssid) := by
  induction l using List.reverseRecOn with
  | nil => rfl
  | append_singleton l e ih =>
    rw [wifiDedupe_append_singleton, List.find?_append, ← ih]
    split
    · rename_i hold
      by_cases he : e.ssid = ssid
      · rw [he, List.any_eq_true, ← List.find?_isSome] at hold
        rw [Option.or_of_isSome hold]
      · simp [he]
    · exact List.find?_append

theorem mem_wifiDedupe {l : List WifiEntry} {e : WifiEntry} :
    e ∈ wifiDedupe l ↔ l.find? (fun x => x.ssid == e.ssid) = some e := by
  rw [← wifiDedupe_find?]
  refine ⟨fun he => ?_, List.mem_of_find?_eq_some⟩
  obtain ⟨x, hx⟩ : ∃ x, (wifiDedupe l).find? (·.ssid == e.ssid) = some x :=
    Option.isSome_iff_exists.mp (List.find?_isSome.mpr ⟨e, he, beq_self_eq_true _⟩)
  have hssid : x.ssid = e.ssid := by simpa using List.find?_some hx
  rw [hx, List.inj_on_of_nodup_map (wifiDedupe_nodup l) (List.mem_of_find?_eq_some hx) he hssid]

theorem wifiSort_perm (l : List WifiEntry) : (wifiSort l).Perm l := List.perm_insertionSort _ l

theorem wifiSort_pairwise (l : List WifiEntry) : (wifiSort l).Pairwise fun a b => b.signal ≤ a.signal := by
  have : Std.Total fun a b : WifiEntry => b.signal ≤ a.signal := ⟨fun a b => le_total b.signal a.signal⟩
  have : IsTrans WifiEntry fun a b => b.signal ≤ a.signal := ⟨fun _ _ _ hab hbc => hbc.trans hab⟩
  exact List.pairwise_insertionSort _ l

/-- R264: the order is stable. Entries of one signal are ordered as they stand, so that the sorted list has them as a
sublist; and it has no others of that signal. -/
theorem wifiSort_filter_signal (l : List WifiEntry) (k : Int) :
    (wifiSort l).filter (·.signal == k) = l.filter (·.signal == k) := by
  have hsorted : (l.filter (·.signal == k)).Pairwise fun a b => b.signal ≤ a.signal := by
    refine List.pairwise_of_forall_mem_list fun a ha b hb => ?_
    simp only [List.mem_filter, beq_iff_eq] at ha hb
    exact (hb.right.trans ha.right.symm).le
  have hsub : (l.filter (·.signal == k)).Sublist (wifiSort l) :=
    List.sublist_insertionSort hsorted List.filter_sublist
  have hfilter := hsub.filter (·.signal == k)
  simp only [List.filter_filter, Bool.and_self] at hfilter
  exact (hfilter.eq_of_length ((wifiSort_perm l).filter _).length_eq.symm).symm

/-- Settles O60: sorting permutes the de-duplicated list and keeps the order of equal signals. -/
theorem wifiListSortedWithoutDuplicates : Obligations.WifiListSortedWithoutDuplicates := by
  intro p
  refine ⟨wifiSort_pairwise _, ?_, fun k => ?_, fun e => ?_⟩
  · exact ((wifiSort_perm _).map _).nodup_iff.mpr (wifiDedupe_nodup _)
  · rw [wifiList, wifiSort_filter_signal]
    exact List.filter_sublist.trans (wifiDedupe_sublist _)
  · exact (wifiSort_perm _).mem_iff.trans mem_wifiDedupe

end Sys2Proof.Machine

/-! PROOFS. Statuses, events and `irq_corr` (60_exceptions.md): how each command ends is said once, so that its status is in
its row of the matrix (R272) and an error status leaves the engine as it was (R276); events answer nothing (R279); and what
moves `irq_corr` (R280). -/

namespace Sys2Proof.Machine

/-! ## How each command ends (R272, R276) -/

/-- The outcome of instruction `i` on engine `e`: it completes, or raises a status of its row of the matrix with the engine
as it was, or is one of R276's two exceptions. -/
inductive PreciseEnd (i : Instr) (e : Engine) : Engine × List Byte → Prop where
  | completed (results : List Byte) (e' : Engine) : PreciseEnd i e (complete results e')
  | raised {status : Status} (h : status ∈ statusMatrix i) : PreciseEnd i e (raise status e)
  | timeout (h : i = .reqCollect) : PreciseEnd i e (raise .errTimeout { e with corr := .idle })
  | badFragment {fc : Byte} {pl : List Byte} (h : i = .reasmPush fc pl) :
    PreciseEnd i e (raise .errFrag { e with ra := none })

theorem mem_statusMatrix_of_frameCheck {type subtype : Byte} {payload : List Byte} {status : Status}
    (h : frameCheck type subtype payload = some status) : status ∈ [Status.errOperand, .errLen] := by
  rcases frameCheck_some h with rfl | rfl <;> decide

section
variable (e : Engine)

theorem cmdFrameEnc_preciseEnd {i : Instr} (hi : statusMatrix i = [.errOperand, .errLen]) (type subtype fc seq : Byte)
    (payload : List Byte) : PreciseEnd i e (cmdFrameEnc type subtype fc seq payload e) := by
  unfold cmdFrameEnc
  split
  · exact .raised (hi ▸ mem_statusMatrix_of_frameCheck ‹_›)
  · exact .completed _ e

theorem cmdReqIssue_preciseEnd {i : Instr} (hi : statusMatrix i = [.errBusy]) (t : Word) :
    PreciseEnd i e (cmdReqIssue t e) := by
  unfold cmdReqIssue
  split
  · exact .completed _ _
  · exact .raised (hi ▸ List.mem_singleton_self _)

theorem cmdReqCollect_preciseEnd : PreciseEnd .reqCollect e (cmdReqCollect e) := by
  unfold cmdReqCollect
  split
  · exact .raised (by decide)
  · exact .raised (by decide)
  · exact .timeout rfl
  · exact .completed _ _

/-- REASM_PUSH answers ERR_FRAG only with the reassembler idled (`reasmStep_error`). -/
theorem cmdReasmPush_preciseEnd (fc : Byte) (pl : List Byte) : PreciseEnd (.reasmPush fc pl) e (cmdReasmPush fc pl e) := by
  unfold cmdReasmPush
  split
  · exact .raised (List.mem_cons_self ..)
  · split
    · exact .completed _ _
    · exact .completed _ _
    · rename_i hstep
      rw [reasmStep_error hstep]
      exact .badFragment rfl

theorem commandOf_preciseEnd {i : Instr} {f : Engine → Engine × List Byte} (h : commandOf i = some f) :
    PreciseEnd i e (f e) := by
  cases i <;> cases h
  case frameEnc | frameEnc4 => exact cmdFrameEnc_preciseEnd e rfl _ _ _ _ _
  case reqIssue => exact cmdReqIssue_preciseEnd e rfl _
  case reqCollect => exact cmdReqCollect_preciseEnd e
  case reasmPush => exact cmdReasmPush_preciseEnd e _ _
  case md5 | frag | reasmReset | getStatus | sessionEnd | clrFlags => exact .completed _ _
  case reserved => exact .raised (List.mem_singleton_self _)
  case aesSetkey =>
    unfold cmdAesSetkey
    split
    · exact .raised (List.mem_singleton_self _)
    · exact .completed _ _
  case aesEncblk =>
    unfold cmdAesEncblk
    split
    · exact .raised (List.mem_singleton_self _)
    · exact .completed _ e
  case cfbEnc =>
    unfold cmdCfbEnc
    split
    · exact .raised (List.mem_singleton_self _)
    · exact .completed _ e
  case modpow =>
    unfold cmdModpow
    split
    · exact .raised (List.mem_singleton_self _)
    · split
      · exact .raised (List.mem_singleton_self _)
      · exact .completed _ e
  case frameDec =>
    unfold cmdFrameDec
    split
    · exact .raised (List.mem_singleton_self _)
    · exact .completed _ e
  case frameTx =>
    unfold cmdFrameTx
    split
    · exact .raised (mem_statusMatrix_of_frameCheck ‹_›)
    · exact .completed _ _
  case frameTxEnc =>
    unfold cmdFrameTxEnc
    split
    · exact .raised (List.mem_append_left [.errNokey] (mem_statusMatrix_of_frameCheck ‹_›))
    · split
      · exact .raised (List.mem_append_right [Status.errOperand, .errLen] (List.mem_singleton_self _))
      · exact .completed _ _
  case sessionInit =>
    unfold cmdSessionInit
    split
    · exact .completed _ _
    · exact .raised (List.mem_singleton_self _)

end

/-- An instruction that answers is a command with its end, or REQUEST with the end of its REQ_ISSUE (log 11). -/
theorem exec_preciseEnd {i : Instr} {s s' : State} (h : exec i s = .next s') (hr : s'.rsp ≠ s.rsp) :
    ∃ out, PreciseEnd i s.engine out ∧ s'.engine = out.1 ∧ s'.rsp = out.2 :: s.rsp := by
  cases hc : commandOf i with
  | some f =>
    rw [exec_command hc] at h
    cases h
    exact ⟨_, commandOf_preciseEnd s.engine hc, rfl, rfl⟩
  | none =>
    cases i
    case request t =>
      cases h
      exact ⟨_, cmdReqIssue_preciseEnd s.engine rfl t, rfl, rfl⟩
    case send f =>
      cases h
      exact absurd (State.callTransport_rsp _ s) hr
    case rxNotify | tick | frameDataNeg | frameDataSsid | frameDataPassword | frameDataStatus | frameDataWifilist
      | frameCtrlApply | frameCtrlScan | frameGeneric | wait | sleep =>
      cases h
      exact absurd rfl hr
    all_goals cases hc

/-- The same for an answer that is given by its status and its results. -/
theorem exec_preciseEnd_of_answer {i : Instr} {s s' : State} {status : Byte} {results : List Byte}
    (h : exec i s = .next s') (hr : s'.rsp = (status :: results) :: s.rsp) :
    ∃ out, PreciseEnd i s.engine out ∧ s'.engine = out.1 ∧ out.2 = status :: results := by
  obtain ⟨out, hend, he, hout⟩ := exec_preciseEnd h (by rw [hr]; exact List.cons_ne_self _ _)
  rw [hr] at hout
  exact ⟨out, hend, he, (List.cons.inj hout).left.symm⟩

/-- Settles O44: of the ends of a command, a raised status is in the matrix by definition, and so are the two exceptions'. -/
theorem statusesStayInTheMatrix : Obligations.StatusesStayInTheMatrix := by
  intro i s s' status results hexec hrsp
  obtain ⟨out, hend, _, hout⟩ := exec_preciseEnd_of_answer hexec hrsp
  cases hend with
  | completed => cases hout; exact .inl rfl
  | raised hst => cases hout; exact .inr ⟨_, hst, rfl⟩
  | timeout hi => cases hout; exact .inr ⟨.errTimeout, by rw [hi]; decide, rfl⟩
  | badFragment hi =>
    cases hout
    exact .inr ⟨.errFrag, by rw [hi]; exact List.mem_cons_of_mem _ (List.mem_singleton_self _), rfl⟩

/-- Settles O45: a raised status leaves the engine as it was, but for the two exceptions. -/
theorem errorsArePrecise : Obligations.ErrorsArePrecise := by
  intro i s s' status results hexec hrsp herror
  obtain ⟨out, hend, he, hout⟩ := exec_preciseEnd_of_answer hexec hrsp
  cases hend with
  | completed => cases hout; exact absurd rfl herror
  | raised => cases hout; exact ⟨rfl, .inl he⟩
  | timeout hi => cases hout; exact ⟨rfl, .inr (.inl ⟨hi, rfl, he⟩)⟩
  | badFragment hi => cases hout; exact ⟨rfl, .inr (.inr ⟨_, _, hi, rfl, he⟩)⟩

/-! ## Events (R279) -/

/-- A notification's step, a frame or not: `receive`, and nothing else. -/
theorem step_of_rx {s : State} {rest : List Turn} {b : List Byte} (hturn : s.turns = .rx b :: rest) :
    step s = .next { s with turns := rest, engine := receive b s.engine } := by
  cases hf : frameDecode b with
  | some f =>
    rw [receive_of_frame hf]
    exact step_of_rx_frame hturn hf
  | none =>
    have hdecode : decode (.rx b) = .ok (.rxNotify b) := by rw [decode, decodeRx, hf]
    rw [step_of_fetch_run (fetch_of_rx_turn hturn) hdecode]
    exact moves_rxNotify b _

/-- Settles O37: both events are steps that touch the engine and the host's wait alone. -/
theorem eventsNeverFailOrRespond : Obligations.EventsNeverFailOrRespond := by
  rintro s rest b (hturn | hturn)
  · exact ⟨_, step_of_rx hturn, rfl, rfl, rfl⟩
  · exact ⟨_, step_of_tick hturn, rfl, rfl, rfl⟩

/-! ## `irq_corr` (R280) -/

theorem Corr.irq_iff_code (c : Corr) : c.irq = true ↔ c.code = 2 ∨ c.code = 3 := by
  cases c <;> simp [Corr.irq, Corr.code]

theorem Engine.corr_ne_idle_of_irq {e : Engine} (h : e.irqCorr = true) : e.corr ≠ .idle := by
  intro hidle
  rw [Engine.irqCorr, hidle] at h
  cases h

/-- A request with ticks to wait for raises nothing. -/
theorem cmdReqIssue_irqCorr {t : Word} (ht : t ≠ 0) {e : Engine} (h : e.irqCorr = false) :
    (cmdReqIssue t e).1.irqCorr = false := by
  by_cases hidle : e.corr = .idle
  · rw [cmdReqIssue_of_idle t hidle, if_neg ht]
    rfl
  · rwa [cmdReqIssue_of_busy t hidle]

theorem cmdReqCollect_irqCorr (e : Engine) : (cmdReqCollect e).1.irqCorr = false := by
  unfold cmdReqCollect
  split
  · rename_i hc
    exact congrArg Corr.irq hc
  · rename_i hc
    exact congrArg Corr.irq hc
  · rfl
  · rfl

/-- What raises `irq_corr`: an event, or a request that times out at once (R207). -/
theorem engineEffect_raises_irq {i : Instr} {e : Engine} (h0 : e.irqCorr = false) (h1 : (engineEffect i e).irqCorr = true) :
    notifies i = true ∨ i = .tick ∨ i = .reqIssue 0 ∨ i = .request 0 := by
  have hissue {t : Word} (h : (cmdReqIssue t e).1.irqCorr = true) : t = 0 := by
    by_contra ht
    rw [cmdReqIssue_irqCorr ht h0] at h
    cases h
  have hmoved : (engineEffect i e).corr ≠ e.corr := fun hc =>
    absurd (h1.symm.trans ((congrArg Corr.irq hc).trans h0)) nofun
  rcases engineEffect_corr hmoved with ⟨t, rfl⟩ | ⟨t, rfl⟩ | rfl | rfl | hn
  · exact .inr (.inr (.inl (by rw [hissue h1])))
  · exact .inr (.inr (.inr (by rw [hissue h1])))
  · exact absurd (h1.symm.trans (cmdReqCollect_irqCorr e)) nofun
  · exact .inr (.inl rfl)
  · exact .inl hn

/-- What lowers `irq_corr`: of the instructions, REQ_COLLECT alone moves a completed slot. -/
theorem engineEffect_lowers_irq {i : Instr} {e : Engine} (h1 : e.irqCorr = true)
    (h0 : (engineEffect i e).irqCorr = false) : i = .reqCollect := by
  have hmoved : (engineEffect i e).corr ≠ e.corr := fun hc =>
    absurd (h0.symm.trans ((congrArg Corr.irq hc).trans h1)) nofun
  have hrefused (t : Word) : (cmdReqIssue t e).1.corr = e.corr := by
    rw [cmdReqIssue_of_busy t (Engine.corr_ne_idle_of_irq h1), raise_engine]
  have hevent (hi : notifies i = true ∨ i = .tick) : (engineEffect i e).corr = e.corr :=
    engineEffect_corr_of_event hi (Engine.not_awaiting_of_irq h1)
  rcases engineEffect_corr hmoved with ⟨t, rfl⟩ | ⟨t, rfl⟩ | rfl | htick | hn
  · exact absurd (hrefused t) hmoved
  · exact absurd (hrefused t) hmoved
  · rfl
  · exact absurd (hevent (.inr htick)) hmoved
  · exact absurd (hevent (.inl hn)) hmoved

/-- Settles O36: a step that is no reset changes `irq_corr` by one instruction's effect. -/
theorem irqRisesAndFallsWithTheOutcome : Obligations.IrqRisesAndFallsWithTheOutcome := by
  refine ⟨fun e => e.corr.irq_iff_code, fun s s' hstep h0 h1 => ?_, fun s s' hstep h1 h0 => ?_⟩
  · rcases step_engine_runs hstep with he | ⟨_, he⟩ | ⟨i, hi, he⟩ <;> rw [he] at h1
    · exact absurd (h0.symm.trans h1) nofun
    · cases h1
    · exact ⟨i, hi, engineEffect_raises_irq h0 h1⟩
  · rcases step_engine_runs hstep with he | ⟨hreset, _⟩ | ⟨i, hi, he⟩
    · rw [he] at h0
      exact absurd (h0.symm.trans h1) nofun
    · exact .inl hreset
    · rw [he] at h0
      exact .inr (engineEffect_lowers_irq h1 h0 ▸ hi)

end Sys2Proof.Machine

/-! PROOFS. Reset (70_reset_and_hazards.md R300 to R302): the reset step, SESSION_INIT against it, and the engine after it. -/

namespace Sys2Proof.Machine

/-- R300: a reset turn is never refused, and touches the engine only (log 17). -/
theorem step_of_reset {s : State} {rest : List Turn} (hturn : s.turns = .reset :: rest) :
    step s = .next { s with engine := Engine.reset, turns := rest } := by
  have hf : fetch s = .move (resetStep { s with turns := rest }) := by rw [fetch, hturn]
  rw [step, hf]
  rfl

/-- R301: SESSION_INIT sets every piece of state but the slot, which was Idle. -/
theorem cmdSessionInit_eq_reset {e : Engine} (h : e.corr = .idle) : cmdSessionInit e = complete [] Engine.reset := by
  rw [cmdSessionInit_of_idle h, h]
  rfl

/-- Settles O38: the two answers of SESSION_INIT, and the reset step. -/
theorem sessionInitLeavesResetState : Obligations.SessionInitLeavesResetState := by
  intro s rest
  refine ⟨fun hidle => ?_, fun hbusy => ?_, step_of_reset⟩
  · exact answers_of_command rfl (cmdSessionInit_eq_reset hidle)
  · exact answers_of_command rfl (cmdSessionInit_of_busy hbusy)

theorem Engine.reset_statusByte : Engine.reset.statusByte = 0x00 := by decide

/-- Settles O47: the engine after the reset step is `Engine.reset`, whose fields and views are R36's. -/
theorem resetPutsEveryPieceOfState : Obligations.ResetPutsEveryPieceOfState :=
  ⟨fun _ _ hturn => ⟨_, step_of_reset hturn, rfl, Engine.reset_statusByte, rfl, rfl, rfl, rfl, rfl, rfl⟩, rfl⟩

theorem Engine.reset_not_awaiting (r : Word) : Engine.reset.corr ≠ .awaiting r := nofun

/-- Settles O48: no request is awaiting after reset, so that a tick finds nothing to count and a frame is unsolicited. -/
theorem nothingMovesAfterReset : Obligations.NothingMovesAfterReset := by
  refine ⟨rfl, fun s he => ⟨_, exec_tick s, ?_⟩, fun s b he => ⟨fun hf => ?_, fun hf => ?_⟩⟩
  · exact (congrArg tickEngine he).trans (tickEngine_of_not_awaiting Engine.reset_not_awaiting)
  · obtain ⟨f, hf⟩ := Option.isSome_iff_exists.mp hf
    rw [← receiveFrame_of_not_awaiting f Engine.reset_not_awaiting, ← receive_of_frame hf, ← he]
    exact moves_rxNotify b s
  · rw [← receive_of_no_frame hf, ← he]
    exact moves_rxNotify b s

end Sys2Proof.Machine
